-- ==== Sys2Proof/Word.lean ====
section
/-!
DEFINITION. The word types of the MT19937 twist-state engine (spec/00_scope.md section 6, spec/10_state.md
R13, spec/30_encoding.md R47, spec/42_uniform.md R95).

Bit vectors stand only for what the spec adds, shifts, masks or lays out in bits: state words, drawn words, bytes,
floating-point patterns, command words and response fields.
-/

namespace Sys2Proof

/-- A `u32`: a state word or a drawn word (R13, R66). -/
abbrev Word := BitVec 32

/-- A `u8` of a byte stream (R86). -/
abbrev Byte := BitVec 8

/-- A binary32 bit pattern: bit 31 sign, bits 30:23 exponent, bits 22:0 fraction (R95). -/
abbrev F32 := BitVec 32

/-- A binary64 bit pattern: bit 63 sign, bits 62:52 exponent, bits 51:0 fraction (R95). -/
abbrev F64 := BitVec 64

/-- A command word `CW` of 131 bits (R47). -/
abbrev CommandWord := BitVec 131

/-- The state array `x[0..623]`: 624 words of 32 bits (R13). -/
abbrev StateArray := Vector Word 624

end Sys2Proof
end

