-- ==== Sys2Proof/Syntax.lean ====
section
/-!
DEFINITION. The eight commands of the block (spec/30_encoding.md R46), one constructor per row of
spec/opcode_table.json, each holding exactly the operands its command uses (R48, R49).

Operands are held as what they are: the seed is a `u32`, the length a signed integer (`s32` once well formed), a
floating-point operand the bit pattern of its format.
-/

namespace Sys2Proof

/-- A command (R46). The block has no instructions in the processor sense; these are its "instructions" (R1). -/
inductive Instr where
  /-- op 0, `SEED` (R69). -/
  | seed (seed : Word)
  /-- op 1, `NEXT_U32` (R75). -/
  | nextU32
  /-- op 2, `NEXT_U64` (R85). -/
  | nextU64
  /-- op 3, `NEXT_BYTES` (R87): the length is signed. -/
  | nextBytes (length : Int)
  /-- op 4, `UNIFORM_F32` (R101). -/
  | uniformF32 (lower upper : F32)
  /-- op 5, `UNIFORM_F64` (R102). -/
  | uniformF64 (lower upper : F64)
  /-- op 6, `GAUSSIAN_F32` (R114). -/
  | gaussianF32 (mean sigma : F32)
  /-- op 7, `GAUSSIAN_F64` (R115). -/
  | gaussianF64 (mean sigma : F64)
deriving DecidableEq, Repr

end Sys2Proof
end

