-- ==== Sys2Proof/WellFormed.lean ====
section
/-!
DEFINITION. Which commands can be written in a command word (spec/30_encoding.md R48, R56).

The only operand whose type is wider than its field is the length of `NEXT_BYTES`: an `s32`, "a signed integer literal in
[-2^31, 2^31)" (R56). Every other operand fills its field exactly.
-/

namespace Sys2Proof

/-- The operands of a command fit the fields that carry them (R48, R56). -/
def wellFormed : Instr → Bool
  | .seed _ => true
  | .nextU32 => true
  | .nextU64 => true
  | .nextBytes length => decide (-2147483648 ≤ length ∧ length < 2147483648)
  | .uniformF32 _ _ => true
  | .uniformF64 _ _ => true
  | .gaussianF32 _ _ => true
  | .gaussianF64 _ _ => true

/-- `wellFormed` as a proposition. -/
abbrev WellFormed (i : Instr) : Prop := wellFormed i = true

end Sys2Proof
end

