-- ==== Sys2Proof/Decode.lean ====
section
/-!
DEFINITION. Command words: fields, operand assembly, decoder and encoder (spec/30_encoding.md R46 to R51).

`CW[130:128] = op`, `CW[127:64] = b`, `CW[63:0] = a` (R47). All eight opcodes are assigned, so the decoder of a 131-bit word
is total (R50). A number that needs more than 131 bits is no command word, and `decodeNumber` rejects it by name.
-/

namespace Sys2Proof

/-- Why a number is refused by the decoder. -/
inductive DecodeError where
  /-- The number has a bit set above bit 130: there is one format, of fixed length 131 bits (R47, R51). Safe. -/
  | notACommandWord
deriving DecidableEq, Repr

/-- `op = CW[130:128]` (R47). -/
def fieldOp (cw : CommandWord) : BitVec 3 := cw.extractLsb' 128 3

/-- `b = CW[127:64]`, the second operand field (R47). -/
def fieldB (cw : CommandWord) : BitVec 64 := cw.extractLsb' 64 64

/-- `a = CW[63:0]`, the first operand field (R47). -/
def fieldA (cw : CommandWord) : BitVec 64 := cw.extractLsb' 0 64

/-- A 32-bit operand: bits `[31:0]` of its field; bits `[63:32]` are ignored (R48, R49). -/
def operand32 (field : BitVec 64) : BitVec 32 := field.extractLsb' 0 32

/-- The length operand: `sext(a[31:0])`, two's complement (R48). -/
def operandLength (field : BitVec 64) : Int := (operand32 field).toInt

/-- The command a command word stands for (R46, R48, R50). The last arm is op 7: a 3-bit field has no other value left. -/
def decode (cw : CommandWord) : Instr :=
  match (fieldOp cw).toNat with
  | 0 => .seed (operand32 (fieldA cw))
  | 1 => .nextU32
  | 2 => .nextU64
  | 3 => .nextBytes (operandLength (fieldA cw))
  | 4 => .uniformF32 (operand32 (fieldA cw)) (operand32 (fieldB cw))
  | 5 => .uniformF64 (fieldA cw) (fieldB cw)
  | 6 => .gaussianF32 (operand32 (fieldA cw)) (operand32 (fieldB cw))
  | _ => .gaussianF64 (fieldA cw) (fieldB cw)

/-- The decoder on any number: a number below `2^131` is a command word, any other is refused by name (R47, R50). -/
def decodeNumber (w : Nat) : Except DecodeError Instr :=
  if w < 2 ^ 131 then .ok (decode (BitVec.ofNat 131 w)) else .error .notACommandWord

/-- The opcode number of a command (R46). -/
def opcode : Instr → BitVec 3
  | .seed _ => 0
  | .nextU32 => 1
  | .nextU64 => 2
  | .nextBytes _ => 3
  | .uniformF32 _ _ => 4
  | .uniformF64 _ _ => 5
  | .gaussianF32 _ _ => 6
  | .gaussianF64 _ _ => 7

/-- The operand field `a` of a command; ignored bits are zero (R48, R56). -/
def encodeA : Instr → BitVec 64
  | .seed seed => seed.setWidth 64
  | .nextU32 => 0
  | .nextU64 => 0
  | .nextBytes length => (BitVec.ofInt 32 length).setWidth 64
  | .uniformF32 lower _ => lower.setWidth 64
  | .uniformF64 lower _ => lower
  | .gaussianF32 mean _ => mean.setWidth 64
  | .gaussianF64 mean _ => mean

/-- The operand field `b` of a command; ignored bits are zero (R48, R56). -/
def encodeB : Instr → BitVec 64
  | .seed _ => 0
  | .nextU32 => 0
  | .nextU64 => 0
  | .nextBytes _ => 0
  | .uniformF32 _ upper => upper.setWidth 64
  | .uniformF64 _ upper => upper
  | .gaussianF32 _ sigma => sigma.setWidth 64
  | .gaussianF64 _ sigma => sigma

/-- `CW = {op, b, a}` (R47). -/
def packWord (op : BitVec 3) (b a : BitVec 64) : CommandWord := op ++ b ++ a

/-- The command word of a command, every ignored bit zero (R47, R48, R56). -/
def encode (i : Instr) : CommandWord := packWord (opcode i) (encodeB i) (encodeA i)

/-- The low `nbits` bits of a table word, as the number the decoder is given. -/
def tableNumber (nbits w : Nat) : Nat := w % 2 ^ nbits

/-- The instruction the decoder reads from an instruction whose bits are `w`, numbered as spec/opcode_table.json numbers
them (bit 0 of the number is `CW[0]`, R47). -/
def decodeTableWord (nbits w : Nat) : Option Instr := (decodeNumber (tableNumber nbits w)).toOption

end Sys2Proof
end

