-- ==== Sys2Proof/Config.lean ====
section
/-!
DEFINITION. What the spec leaves to the implementation (spec/00_scope.md R6): the parameters of the block.

A value the spec decides for this hardware (`MAX_BYTES`) has a body. A value it leaves OPEN (`TWIST_ORDER`, `LN32`,
`COS32`, `LN64`, `COS64`) or free at each use (the NaN draws) is an opaque constant: nothing can be proved of what it is, so
a theorem holds for every value. The constants of R5 and R10 are hardwired and stand in Machine/Constants.lean.
-/

namespace Sys2Proof

/-- The two values of the parameter `TWIST_ORDER` (R6, R71, R72; 92_eei_decisions.md D5). -/
inductive TwistOrder where
  /-- Every read takes the array's content at that moment (R71). -/
  | sequential
  /-- Every read takes the array as it stood when the twist began (R72). -/
  | snapshot
deriving DecidableEq, Repr, Inhabited

namespace Config

/-- `TWIST_ORDER`, OPEN in the spec (R6, D5); see notes/assumptions/1.md. -/
opaque twistOrder : TwistOrder

/-- `MAX_BYTES`: the inclusive cap on the length of a byte stream, 10 MiB for this hardware (R6, D9). -/
def maxBytes : Nat := 10485760

/-- `LN32`, OPEN: a total function whose result depends on the operand alone (R6, R112, D12); see notes/assumptions/2.md. -/
opaque ln32 : F32 → F32

/-- `COS32`, OPEN (R6, R112, D12); see notes/assumptions/2.md. -/
opaque cos32 : F32 → F32

/-- `LN64`, OPEN (R6, R112, D12); see notes/assumptions/2.md. -/
opaque ln64 : F64 → F64

/-- `COS64`, OPEN (R6, R112, D12); see notes/assumptions/2.md. -/
opaque cos64 : F64 → F64

/-- The free bits of the `k`-th NaN draw in binary32: the sign bit and the 22 fraction bits below the quiet bit (R6, R96,
D10); see notes/assumptions/3.md. -/
opaque freeNaN32 : Nat → BitVec 23

/-- The free bits of the `k`-th NaN draw in binary64: the sign bit and the 51 fraction bits below the quiet bit (R6, R96,
D10); see notes/assumptions/3.md. -/
opaque freeNaN64 : Nat → BitVec 52

end Config

end Sys2Proof
end

