-- ==== Sys2Proof/Machine/Constants.lean ====
section
/-!
DEFINITION. The hardwired constants of the block (spec/10_state.md R10, R11; spec/00_scope.md R5; spec/43_gaussian.md R111),
under the names the spec gives them. None is state and none is an argument: "these ... must not be configurable" (R5).
-/

namespace Sys2Proof.Machine.Const

/-- Degree: number of state words. -/
abbrev n : Nat := 624
/-- Shift: distance to the middle word in the twist. -/
abbrev m : Nat := 397
/-- Twist matrix coefficient. -/
abbrev a : Word := 0x9908B0DF#32
/-- Tempering shift 1 (right). -/
abbrev u : Nat := 11
/-- Tempering mask 1. -/
abbrev d : Word := 0xFFFFFFFF#32
/-- Tempering shift 2 (left). -/
abbrev s : Nat := 7
/-- Tempering mask 2. -/
abbrev b : Word := 0x9D2C5680#32
/-- Tempering shift 3 (left). -/
abbrev t : Nat := 15
/-- Tempering mask 3. -/
abbrev c : Word := 0xEFC60000#32
/-- Tempering shift 4 (right). -/
abbrev l : Nat := 18
/-- Seed-expansion multiplier. -/
abbrev f : Word := 0x6C078965#32
/-- The right shift `w - 2` of the seeding recurrence. -/
abbrev seedShift : Nat := 30
/-- The seed used "if unseeded". -/
abbrev defaultSeed : Word := 5489#32
/-- The most significant `w - r = 1` bit (R11; 90_conflicts.md C1). -/
abbrev upperMask : Word := 0x80000000#32
/-- The least significant `r = 31` bits (R11; 90_conflicts.md C1). -/
abbrev lowerMask : Word := 0x7FFFFFFF#32
/-- `NEG2` in binary32 (R111). -/
abbrev neg2F32 : F32 := 0xC0000000#32
/-- `TWO_PI` in binary32 (R111). -/
abbrev twoPiF32 : F32 := 0x40C90FDB#32
/-- `NEG2` in binary64 (R111). -/
abbrev neg2F64 : F64 := 0xC000000000000000#64
/-- `TWO_PI` in binary64 (R111). -/
abbrev twoPiF64 : F64 := 0x401921FB54442D18#64

end Sys2Proof.Machine.Const
end

