-- ==== Sys2Proof/Machine/Seeding.lean ====
section
/-!
DEFINITION. The seed-expansion multiplier and the seeding recurrence (spec/40_bitgen.md R65, R68): what fills the state
array. The cursor's part of `SEEDSTATE` is `seedState` in Machine/Ops.lean.
-/

namespace Sys2Proof.Machine

/-- `MUL32(p, q)` through 16-bit halves; `ph * qh` is not formed and the sum is masked to 32 bits (R65). -/
def mul32 (p q : Word) : Word :=
  let ph := p.toNat / 65536
  let pl := p.toNat % 65536
  let qh := q.toNat / 65536
  let ql := q.toNat % 65536
  let low := pl * ql
  let cross := (ph * ql + pl * qh) % 65536
  BitVec.ofNat 32 (low + cross * 65536)

/-- `x[i]` from `x[i-1]`: `(MUL32(f, prev XOR (prev >> 30)) + i) mod 2^32` (R68). -/
def seedNext (i : Nat) (prev : Word) : Word :=
  mul32 Const.f (prev ^^^ (prev >>> Const.seedShift)) + BitVec.ofNat 32 i

/-- `k v` (`withValue_eq`), written so that Lean's kernel computes the word `v` before it goes on. -/
def withValue {α : Type} (v : Word) (k : Word → α) : α :=
  match v.toNat with
  | 0 => k 0
  | value + 1 => k (BitVec.ofNat 32 (value + 1))

@[simp] theorem withValue_eq {α : Type} (v : Word) (k : Word → α) : withValue v k = k v := by
  unfold withValue
  split <;> rename_i h
  · exact congrArg k (BitVec.eq_of_toNat_eq (by simp [h]))
  · exact congrArg k (BitVec.eq_of_toNat_eq (by rw [← Nat.succ_eq_add_one, ← h]; simp))

/-- The `k` words `x[i], x[i+1], …` that follow the word `prev = x[i-1]`, in ascending order (R68). -/
def seedFrom : Nat → Word → Nat → List Word
  | 0, _, _ => []
  | k + 1, prev, i => withValue (seedNext i prev) fun next => next :: seedFrom k next (i + 1)

theorem seedFrom_length (k : Nat) (prev : Word) (i : Nat) : (seedFrom k prev i).length = k := by
  induction k generalizing prev i with
  | zero => rfl
  | succ k ih => simp [seedFrom, ih]

/-- The array `SEEDSTATE(s)` leaves: `x[0] = s`, then 623 words of the recurrence (R68). Nothing of a previous array enters. -/
def seedArray (s : Word) : StateArray :=
  ⟨(s :: seedFrom 623 s 1).toArray, by simp [seedFrom_length]⟩

end Sys2Proof.Machine
end

