-- ==== Sys2Proof/Machine/State.lean ====
section
/-!
DEFINITION. The state of the block and its two channels, the machine after reset, and the reasons a step can stop.

The spec's architectural state is the array `x`, the cursor `index` and the flag `fatal`, 19979 bits (spec/10_state.md R13,
R17, R19). The command and response channels (spec/30_encoding.md R45, R52) are held as lists, because the model's step is a
function of the state alone: `input` is what the host has presented and the engine has not yet taken, `responses` what the
engine has delivered, oldest first (notes/assumptions/5.md). `nanDraws` is the model's own counter, not the spec's (notes/assumptions/3.md).
-/

namespace Sys2Proof.Machine

/-- The status codes of a response, by name (R53). -/
inductive Status where
  | ok
  | invalidArgument
  | resourceLimitExceeded
  | fatal
deriving DecidableEq, Repr

/-- The three conditions the block can report (R125). -/
inductive Condition where
  /-- `NEXT_BYTES` with `length <= 0` (R126). -/
  | invalidArgument
  /-- `NEXT_BYTES` with `length > MAX_BYTES` (R127). -/
  | resourceLimitExceeded
  /-- The cursor invariant is broken, now or earlier (R128, R129). -/
  | fatal
deriving DecidableEq, Repr

/-- A response `(status, data, bytes)` (R52). -/
structure Response where
  status : Status
  data : BitVec 64
  bytes : List Byte
deriving DecidableEq, Repr

/-- The two moves the host has (R45; 93_implementation_defined.md U4, U7). -/
inductive HostMove where
  /-- The reset event (R145). -/
  | reset
  /-- One command word presented on the command channel (R45, R47). -/
  | command (cw : CommandWord)
deriving DecidableEq, Repr

structure State where
  /-- The state array `x[0..623]` (R13). -/
  x : StateArray
  /-- The cursor, a 10-bit unsigned register (R17). -/
  index : BitVec 10
  /-- The sticky flag `fatal` (R19). -/
  fatal : Bool
  /-- The moves the host has presented and the engine has not yet taken, in order (R45). -/
  input : List HostMove
  /-- The responses the engine has delivered, in order (R45, R52). -/
  responses : List Response
  /-- The model's own: how many NaN draws have been numbered so far (R6, R96; notes/assumptions/3.md). -/
  nanDraws : Nat
deriving DecidableEq, Repr

/-- The state after reset: `x = SEEDSTATE(5489)`, `index = 624`, `fatal = 0` (R24, R145). Nothing has been presented and
nothing delivered; the NaN counter's 0 is a DESIGN CHOICE (notes/assumptions/3.md). -/
def State.reset : State where
  x := seedArray Const.defaultSeed
  index := 624
  fatal := false
  input := []
  responses := []
  nanDraws := 0

/-- Why the machine stops with no successor. -/
inductive Fault where
  /-- Raised by `GAUSSIAN_F32` and `GAUSSIAN_F64` alone, when no non-zero word can ever be drawn again: the resample loop of
  R113 does not end, the command has no response and the model has no successor ("stuck",
  93_implementation_defined.md U8; 70_reset_and_hazards.md R155). Safe. See notes/assumptions/4.md. -/
  | resampleNeverEnds
deriving DecidableEq, Repr

/-- Why an instruction is refused. -/
inductive Refusal where
  /-- Raised by an arm of exec whose instruction has no meaning yet. Safe. No arm of this model is left so. -/
  | notModelled (mnemonic : String)
deriving DecidableEq, Repr

/-- How a part of a command ends: with a value, with a condition (which ends the command at once, spec/00_scope.md section 6),
or never. The state is the one it leaves. -/
inductive Run (α : Type) where
  | value (v : α) (s : State)
  | raised (c : Condition) (s : State)
  | stuck
deriving DecidableEq, Repr

end Sys2Proof.Machine
end

