-- ==== Sys2Proof/Machine/Flags.lean ====
section
/-!
DEFINITION. The block's one flag, `fatal` (spec/10_state.md R19). It is set by the next-word operation alone, tested at the
start of every command (spec/60_exceptions.md R130), and cleared by reset alone (R129). There are no condition codes and no
floating-point flags.
-/

namespace Sys2Proof.Machine

/-- `fatal <- 1` (R74, R128). -/
def setFatal (s : State) : State := { s with fatal := true }

/-- `fatal <- 0`, part of the reset event only (R145). -/
def clearFatal (s : State) : State := { s with fatal := false }

end Sys2Proof.Machine
end

