-- ==== Sys2Proof/Machine/Operands.lean ====
section
/-!
DEFINITION. The forms in which results leave the block: the response's fields (spec/30_encoding.md R52 to R55), the byte
order of a drawn word (spec/41_integer_bytes.md R86) and the word order of a 64-bit value (spec/20_memory.md R34). The forms in which
operands arrive are in Decode.lean (R48).
-/

namespace Sys2Proof.Machine

/-- The 2-bit status code (R53). -/
def statusCode : Status → BitVec 2
  | .ok => 0
  | .invalidArgument => 1
  | .resourceLimitExceeded => 2
  | .fatal => 3

/-- `RW[65:64] = status`, `RW[63:0] = data`; the bytes travel beside it (R52). -/
def responseWord (r : Response) : BitVec 66 := statusCode r.status ++ r.data

/-- The status that reports a condition (R53, R125). -/
def conditionStatus : Condition → Status
  | .invalidArgument => .invalidArgument
  | .resourceLimitExceeded => .resourceLimitExceeded
  | .fatal => .fatal

/-- The response of a command that met a condition: status only, `data = 0`, no bytes (R54, R55, R125). -/
def errorResponse (c : Condition) : Response := ⟨conditionStatus c, 0, []⟩

/-- The response of a command without a result (`SEED`, R54). -/
def plainResponse : Response := ⟨.ok, 0, []⟩

/-- A 32-bit result, zero-extended into `data` (R54). -/
def response32 (v : BitVec 32) : Response := ⟨.ok, v.setWidth 64, []⟩

/-- A 64-bit result (R54). -/
def response64 (v : BitVec 64) : Response := ⟨.ok, v, []⟩

/-- A byte stream: its length in `data`, its bytes in stream order (R54, R55). -/
def responseBytes (length : Nat) (bytes : List Byte) : Response := ⟨.ok, BitVec.ofNat 64 length, bytes⟩

/-- `{hi, lo}`: the first word drawn is the more significant half (R34, R85). -/
def pair64 (hi lo : Word) : BitVec 64 := hi ++ lo

/-- `BYTES_BE(v)`: the four bytes of a drawn word, most significant first (R33, R86). -/
def bytesBE (v : Word) : List Byte :=
  [v.extractLsb' 24 8, v.extractLsb' 16 8, v.extractLsb' 8 8, v.extractLsb' 0 8]

end Sys2Proof.Machine
end

