-- ==== Sys2Proof/Machine/Ops.lean ====
section
/-!
DEFINITION. The shared operations over the state: reading the array, seeding, twist, tempering and next word (spec/40_bitgen.md
R68 to R74), meeting a condition (spec/60_exceptions.md R125 to R131), the frame of every command, the reset event
(spec/70_reset_and_hazards.md R145) and the two channels (spec/30_encoding.md R45).
-/

namespace Sys2Proof.Machine

/-! ## The state array -/

/-- `x[i]`. Every index a rule forms lies in `[0, 623]` (R31), where `i % 624` is `i`; the `% 624` makes the read total
(notes/assumptions/6.md). -/
def wordAt (x : StateArray) (i : Nat) : Word := x[i % 624]'(Nat.mod_lt _ (by decide))

/-- `SEEDSTATE(s)`: every word and the cursor are overwritten, `fatal` is not touched (R68). -/
def seedState (seed : Word) (s : State) : State := { s with x := seedArray seed, index := 624 }

/-! ## The twist -/

/-- `MIX(cur, nxt, mid)` (R70). -/
def mix (cur nxt mid : Word) : Word :=
  let y := (cur &&& Const.upperMask) ||| (nxt &&& Const.lowerMask)
  let v := if y.getLsbD 0 then (y >>> 1) ^^^ Const.a else y >>> 1
  mid ^^^ v

/-- What the twist reads as word `j` while it rewrites word `i` in ascending order. `o` is the array at twist start and
`done` the words `0 … i-1` already rewritten in this pass, newest first. A word not yet rewritten reads the same in both
orders; a word already rewritten reads as `TWIST_ORDER` says (R71, R72, R151). -/
def twistRead (order : TwistOrder) (o : StateArray) (done : List Word) (i j : Nat) : Word :=
  if j < i then
    match order with
    | .sequential => done.getD (i - 1 - j) 0
    | .snapshot => wordAt o j
  else wordAt o j

/-- The new word `i`: `MIX(x[i], x[(i+1) mod 624], x[(i+397) mod 624])` (R71, R72). -/
def twistWord (order : TwistOrder) (o : StateArray) (done : List Word) (i : Nat) : Word :=
  mix (twistRead order o done i i) (twistRead order o done i ((i + 1) % Const.n))
    (twistRead order o done i ((i + Const.m) % Const.n))

/-- The `k` new words from word `i` on, in ascending order. -/
def twistFrom (order : TwistOrder) (o : StateArray) : Nat → Nat → List Word → List Word
  | 0, _, _ => []
  | k + 1, i, done =>
    twistWord order o done i :: twistFrom order o k (i + 1) (twistWord order o done i :: done)

theorem twistFrom_length (order : TwistOrder) (o : StateArray) (k i : Nat) (done : List Word) :
    (twistFrom order o k i done).length = k := by
  induction k generalizing i done with
  | zero => rfl
  | succ k ih => simp [twistFrom, ih]

/-- The array regenerated in a given order (R71, R72). -/
def twistWith (order : TwistOrder) (o : StateArray) : StateArray :=
  ⟨(twistFrom order o 624 0 []).toArray, by simp [twistFrom_length]⟩

/-- The array regenerated in the order of this block (R70, D5). -/
def twistArray (o : StateArray) : StateArray := twistWith Config.twistOrder o

/-- `TWIST()`: all 624 words regenerated, `index <- 0` (R70). -/
def twistState (s : State) : State := { s with x := twistArray s.x, index := 0 }

/-! ## Tempering and next word -/

/-- `TEMPER(y)`: four XOR-shift stages (R73). -/
def temper (y : Word) : Word :=
  let y1 := y ^^^ ((y >>> Const.u) &&& Const.d)
  let y2 := y1 ^^^ ((y1 <<< Const.s) &&& Const.b)
  let y3 := y2 ^^^ ((y2 <<< Const.t) &&& Const.c)
  y3 ^^^ (y3 >>> Const.l)

/-- MEETING A CONDITION, the block's only "trap entry" (R131): nothing is saved and control goes nowhere; for `Fatal` the
flag is set, for the two recoverable conditions the state is as it was. There is nothing to return from (R132). -/
def raise {α : Type} (c : Condition) (s : State) : Run α :=
  match c with
  | .invalidArgument => .raised .invalidArgument s
  | .resourceLimitExceeded => .raised .resourceLimitExceeded s
  | .fatal => .raised .fatal (setFatal s)

/-- Goes on with the value of `r`; a condition or a loop without end is passed on. -/
def Run.andThen {α β : Type} (r : Run α) (k : α → State → Run β) : Run β :=
  match r with
  | .value v s => k v s
  | .raised c s => .raised c s
  | .stuck => .stuck

/-- `TWIST()` if every word of the current array has been consumed (R74). -/
def twistIfDue (s : State) : State := if s.index = 624 then twistState s else s

/-- Reads and tempers `x[index]` and advances the cursor (R74). -/
def drawWord (s : State) : Run Word :=
  .value (temper (wordAt s.x s.index.toNat)) { s with index := s.index + 1 }

/-- `NEXTWORD()` (R74): the range test, the twist if due, then the draw. -/
def nextWord (s : State) : Run Word :=
  if 624 < s.index.toNat then raise .fatal s else drawWord (twistIfDue s)

/-- Two draws, most significant half first (R34). -/
def nextPair (s : State) : Run (BitVec 64) :=
  (nextWord s).andThen fun hi s => (nextWord s).andThen fun lo s => .value (pair64 hi lo) s

/-! ## Responses and the frame of every command -/

/-- Delivers one response (R45, R52). -/
def respond (r : Response) (s : State) : State := { s with responses := s.responses ++ [r] }

/-- Numbers `k` NaN draws (R96; notes/assumptions/3.md). -/
def useNaNDraws (k : Nat) (s : State) : State := { s with nanDraws := s.nanDraws + k }

/-- The end of a command: its one response (R45), or no successor. -/
def finish (r : Run Response) : Host.Outcome State Fault Refusal :=
  match r with
  | .value v s => .next (respond v s)
  | .raised c s => .next (respond (errorResponse c) s)
  | .stuck => .fault .resampleNeverEnds

/-- Every command begins with `if fatal = 1: raise Fatal` (R129, R130). -/
def command (s : State) (body : State → Run Response) : Host.Outcome State Fault Refusal :=
  finish (if s.fatal then raise .fatal s else body s)

/-! ## The host's side -/

/-- The reset event: `fatal <- 0`, then `SEEDSTATE(5489)` (R145). It has no response; the channels and the model's NaN counter
stay as they are (notes/assumptions/10.md). -/
def resetEvent (s : State) : State := seedState Const.defaultSeed (clearFatal s)

/-- Takes the oldest presented move off the input channel (R45). -/
def takeMove (s : State) : Option (HostMove × State) :=
  match s.input with
  | [] => none
  | move :: rest => some (move, { s with input := rest })

/-- The host presents a move that the engine will take next. -/
def presentNext (move : HostMove) (s : State) : State := { s with input := move :: s.input }

end Sys2Proof.Machine
end

