-- ==== Sys2Proof/Machine/BitGen.lean ====
section
/-!
DEFINITION. The commands of the Bit Generator: `SEED` and `NEXT_U32` (spec/40_bitgen.md R69, R75).
-/

namespace Sys2Proof.Machine

/-- `SEED` (R69): every seed is legal; no word is drawn. -/
def execSeed (seed : Word) (s : State) : Host.Outcome State Fault Refusal :=
  command s fun s => .value plainResponse (seedState seed s)

/-- `NEXT_U32` (R75). -/
def execNextU32 (s : State) : Host.Outcome State Fault Refusal :=
  command s fun s => (nextWord s).andThen fun v s => .value (response32 v) s

end Sys2Proof.Machine
end

