-- ==== Sys2Proof/Machine/Float.lean ====
section
/-!
DEFINITION. Binary32 and binary64 arithmetic (spec/42_uniform.md R95 to R97), written once for both formats.

A finite magnitude is an exact natural number of units, the unit being the format's smallest subnormal (`2^-149`, `2^-1074`).
An operation computes the exact result over the naturals or integers and `roundMag` narrows it once, to nearest, ties to even.
Which NaN a NaN result is, is the draw whose number the operation is given (R96, D10; notes/assumptions/3.md). What R95 and R96 say of the
formats and of exceptional cases the spec marks as general knowledge (notes/assumptions/9.md).
-/

namespace Sys2Proof.Machine

/-- A binary interchange format (R95). -/
structure FloatFormat where
  expBits : Nat
  fracBits : Nat
deriving DecidableEq, Repr

/-- A floating-point operand by what it stands for: a finite value is `(-1)^neg * mag` units. -/
inductive FloatVal where
  | nan
  | inf (neg : Bool)
  | fin (neg : Bool) (mag : Nat)
deriving DecidableEq, Repr

/-- A result before it is put into bits: some quiet NaN, or a sign and a magnitude pattern (the bits below the sign bit). -/
inductive FloatRes where
  | nan
  | num (neg : Bool) (mag : Nat)
deriving DecidableEq, Repr

/-- binary32: 8 exponent bits, 23 fraction bits (R95). -/
def binary32 : FloatFormat := ⟨8, 23⟩

/-- binary64: 11 exponent bits, 52 fraction bits (R95). -/
def binary64 : FloatFormat := ⟨11, 52⟩

/-- The unit is `2^-unitExp`: `1 - bias - (p-1)` negated, 149 in binary32 and 1074 in binary64 (R95). -/
def unitExp (f : FloatFormat) : Nat := 2 ^ (f.expBits - 1) - 2 + f.fracBits

/-- The position of the sign bit (R95). -/
def signPos (f : FloatFormat) : Nat := f.expBits + f.fracBits

/-- The magnitude pattern of infinity: exponent field all ones, fraction 0 (R95). -/
def infMag (f : FloatFormat) : Nat := (2 ^ f.expBits - 1) * 2 ^ f.fracBits

/-- The units of a finite magnitude pattern: `fraction` where the exponent field is 0, else
`(2^(p-1) + fraction) * 2^(exponent - 1)` (R95). -/
def magUnits (f : FloatFormat) (pat : Nat) : Nat :=
  if pat / 2 ^ f.fracBits = 0 then pat % 2 ^ f.fracBits
  else (2 ^ f.fracBits + pat % 2 ^ f.fracBits) * 2 ^ (pat / 2 ^ f.fracBits - 1)

/-- What a bit pattern stands for (R95). -/
def unpack (f : FloatFormat) (bits : Nat) : FloatVal :=
  let neg := decide (bits / 2 ^ signPos f % 2 = 1)
  let pat := bits % 2 ^ signPos f
  if pat < infMag f then .fin neg (magUnits f pat)
  else if pat = infMag f then .inf neg
  else .nan

/-- Round to nearest, ties to even, of the integer quotient `m / 2^sh` (R96). -/
def roundShift (m sh : Nat) : Nat :=
  let q := m / 2 ^ sh
  let twiceRem := 2 * (m % 2 ^ sh)
  if 2 ^ sh < twiceRem ∨ (twiceRem = 2 ^ sh ∧ q % 2 = 1) then q + 1 else q

/-- The magnitude pattern nearest to `m / 2^k` units, ties to even; from halfway beyond the largest finite value on it is
infinity: R96's gloss, DEDUCED against the formula R96 prints, which is the largest finite value itself (notes/assumptions/11.md). With `t` the binary exponent above the subnormal range and `q` the rounded significand, `t * 2^(p-1) + q` is
the pattern, a carry out of the significand included. -/
def roundMag (f : FloatFormat) (k m : Nat) : Nat :=
  let t := Nat.log2 (m / 2 ^ k) - f.fracBits
  min (t * 2 ^ f.fracBits + roundShift m (k + t)) (infMag f)

/-- Appends a sticky bit to a truncated quotient or root, so that it rounds as the exact value does. -/
def withSticky (exact : Bool) (m : Nat) : Nat := 2 * m + (if exact then 0 else 1)

/-- The magnitude pattern nearest to `num / den` units (R96), `den` not 0. -/
def roundRatio (f : FloatFormat) (num den : Nat) : Nat :=
  roundMag f 2 (withSticky (decide (2 * num % den = 0)) (2 * num / den))

/-- The signed number of units. -/
def signedUnits (neg : Bool) (mag : Nat) : Int := if neg then -(mag : Int) else mag

/-- `add` (R96). -/
def floatAdd (f : FloatFormat) (x y : FloatVal) : FloatRes :=
  match x, y with
  | .nan, _ => .nan
  | _, .nan => .nan
  | .inf a, .inf b => if a = b then .num a (infMag f) else .nan
  | .inf a, .fin _ _ => .num a (infMag f)
  | .fin _ _, .inf b => .num b (infMag f)
  | .fin a m, .fin b n =>
    let sum := signedUnits a m + signedUnits b n
    if sum = 0 then .num (a && b) 0
    else .num (decide (sum < 0)) (roundMag f 0 sum.natAbs)

/-- `neg`: the sign inverted (R96). -/
def floatNeg (x : FloatVal) : FloatVal :=
  match x with
  | .nan => .nan
  | .inf a => .inf (!a)
  | .fin a m => .fin (!a) m

/-- `sub(x, y) = add(x, neg(y))` (R96). -/
def floatSub (f : FloatFormat) (x y : FloatVal) : FloatRes := floatAdd f x (floatNeg y)

/-- `mul` (R96): the product of two magnitudes is in units of `2^-(2 * unitExp)`. -/
def floatMul (f : FloatFormat) (x y : FloatVal) : FloatRes :=
  match x, y with
  | .nan, _ => .nan
  | _, .nan => .nan
  | .inf a, .inf b => .num (a ^^ b) (infMag f)
  | .inf a, .fin b n => if n = 0 then .nan else .num (a ^^ b) (infMag f)
  | .fin a m, .inf b => if m = 0 then .nan else .num (a ^^ b) (infMag f)
  | .fin a m, .fin b n => .num (a ^^ b) (roundMag f (unitExp f) (m * n))

/-- `div` (R96). -/
def floatDiv (f : FloatFormat) (x y : FloatVal) : FloatRes :=
  match x, y with
  | .nan, _ => .nan
  | _, .nan => .nan
  | .inf _, .inf _ => .nan
  | .inf a, .fin b _ => .num (a ^^ b) (infMag f)
  | .fin a _, .inf b => .num (a ^^ b) 0
  | .fin a m, .fin b n =>
    if n = 0 then (if m = 0 then .nan else .num (a ^^ b) (infMag f))
    else .num (a ^^ b) (roundRatio f (m * 2 ^ unitExp f) n)

/-- The integer square root of `n`, one bit a step from bit `bits - 1` down, above the root `r` found so far. -/
def isqrtFrom : Nat → Nat → Nat → Nat
  | 0, _, r => r
  | bits + 1, n, r =>
    if (r + 2 ^ bits) * (r + 2 ^ bits) ≤ n then isqrtFrom bits n (r + 2 ^ bits) else isqrtFrom bits n r

/-- The integer square root of `n`. -/
def isqrt (n : Nat) : Nat := isqrtFrom (Nat.log2 n / 2 + 1) n 0

/-- `sqrt` (R96): the root of `mag` units is the root of `mag * 2^unitExp`, in units. -/
def floatSqrt (f : FloatFormat) (x : FloatVal) : FloatRes :=
  match x with
  | .nan => .nan
  | .inf a => if a then .nan else .num false (infMag f)
  | .fin a m =>
    if m = 0 then .num a 0
    else if a then .nan
    else
      let n := m * 2 ^ unitExp f
      .num false (roundMag f 1 (withSticky (decide (isqrt n * isqrt n = n)) (isqrt n)))

/-! ## The primitives on bit patterns -/

/-- `qNaN32()`, draw number `k`: a quiet NaN whose sign and payload are free (R6, R96, D10). -/
def qNaN32 (k : Nat) : F32 :=
  (Config.freeNaN32 k).extractLsb' 22 1 ++ 0x1FF#9 ++ (Config.freeNaN32 k).extractLsb' 0 22

/-- `qNaN64()`, draw number `k` (R6, R96, D10). -/
def qNaN64 (k : Nat) : F64 :=
  (Config.freeNaN64 k).extractLsb' 51 1 ++ 0xFFF#12 ++ (Config.freeNaN64 k).extractLsb' 0 51

/-- A binary32 result in bits. -/
def pack32 (k : Nat) (r : FloatRes) : F32 :=
  match r with
  | .nan => qNaN32 k
  | .num neg mag => BitVec.ofNat 32 ((if neg then 2 ^ 31 else 0) + mag)

/-- A binary64 result in bits. -/
def pack64 (k : Nat) (r : FloatRes) : F64 :=
  match r with
  | .nan => qNaN64 k
  | .num neg mag => BitVec.ofNat 64 ((if neg then 2 ^ 63 else 0) + mag)

/-- A binary32 operand by what it stands for (R95). -/
def unpack32 (x : F32) : FloatVal := unpack binary32 x.toNat

/-- A binary64 operand by what it stands for (R95). -/
def unpack64 (x : F64) : FloatVal := unpack binary64 x.toNat

def add32 (k : Nat) (x y : F32) : F32 := pack32 k (floatAdd binary32 (unpack32 x) (unpack32 y))
def sub32 (k : Nat) (x y : F32) : F32 := pack32 k (floatSub binary32 (unpack32 x) (unpack32 y))
def mul32f (k : Nat) (x y : F32) : F32 := pack32 k (floatMul binary32 (unpack32 x) (unpack32 y))
def div32 (k : Nat) (x y : F32) : F32 := pack32 k (floatDiv binary32 (unpack32 x) (unpack32 y))
def sqrt32 (k : Nat) (x : F32) : F32 := pack32 k (floatSqrt binary32 (unpack32 x))

def add64 (k : Nat) (x y : F64) : F64 := pack64 k (floatAdd binary64 (unpack64 x) (unpack64 y))
def sub64 (k : Nat) (x y : F64) : F64 := pack64 k (floatSub binary64 (unpack64 x) (unpack64 y))
def mul64f (k : Nat) (x y : F64) : F64 := pack64 k (floatMul binary64 (unpack64 x) (unpack64 y))
def div64 (k : Nat) (x y : F64) : F64 := pack64 k (floatDiv binary64 (unpack64 x) (unpack64 y))
def sqrt64 (k : Nat) (x : F64) : F64 := pack64 k (floatSqrt binary64 (unpack64 x))

/-- `cvt_u32_f32(u)`: the binary32 value nearest to `u`, ties to even (R97). -/
def cvtU32F32 (u : Word) : F32 := BitVec.ofNat 32 (roundMag binary32 0 (u.toNat * 2 ^ unitExp binary32))

/-- `cvt_u64_f64(u)`: the binary64 value nearest to `u`, ties to even (R97). -/
def cvtU64F64 (u : BitVec 64) : F64 := BitVec.ofNat 64 (roundMag binary64 0 (u.toNat * 2 ^ unitExp binary64))

end Sys2Proof.Machine
end

