-- ==== Sys2Proof/Machine/Uniform.lean ====
section
/-!
DEFINITION. The uniform converter and the uniform commands: `UNIFORM_F32` and `UNIFORM_F64` (spec/42_uniform.md R98, R100 to R102).
Each floating-point operation of a command is given the number of its own NaN draw (R96).
-/

namespace Sys2Proof.Machine

/-- `DIV32 = cvt_u32_f32(0xFFFFFFFF)` (R98). -/
def divisor32 : F32 := cvtU32F32 0xFFFFFFFF#32

/-- `DIV64 = cvt_u64_f64(0xFFFFFFFFFFFFFFFF)` (R98). -/
def divisor64 : F64 := cvtU64F64 0xFFFFFFFFFFFFFFFF#64

/-- `U2F32(u)` (R98). -/
def u2f32 (k : Nat) (u : Word) : F32 := div32 k (cvtU32F32 u) divisor32

/-- `U2F64(u)` (R98). -/
def u2f64 (k : Nat) (u : BitVec 64) : F64 := div64 k (cvtU64F64 u) divisor64

/-- `SCALE32(f, lo, hi)`: three roundings; NaN draws `k`, `k+1`, `k+2` (R100). -/
def scale32 (k : Nat) (f lo hi : F32) : F32 := add32 (k + 2) (mul32f (k + 1) f (sub32 k hi lo)) lo

/-- `SCALE64(f, lo, hi)` (R100). -/
def scale64 (k : Nat) (f lo hi : F64) : F64 := add64 (k + 2) (mul64f (k + 1) f (sub64 k hi lo)) lo

/-- `UNIFORM_F32` (R101): one draw whatever the operands are. -/
def execUniformF32 (lower upper : F32) (s : State) : Host.Outcome State Fault Refusal :=
  command s fun s => (nextWord s).andThen fun u s =>
    .value (response32 (scale32 (s.nanDraws + 1) (u2f32 s.nanDraws u) lower upper)) (useNaNDraws 4 s)

/-- `UNIFORM_F64` (R102): two draws, high word first. -/
def execUniformF64 (lower upper : F64) (s : State) : Host.Outcome State Fault Refusal :=
  command s fun s => (nextPair s).andThen fun u s =>
    .value (response64 (scale64 (s.nanDraws + 1) (u2f64 s.nanDraws u) lower upper)) (useNaNDraws 4 s)

end Sys2Proof.Machine
end

