-- ==== Sys2Proof/Machine/Gaussian.lean ====
section
/-!
DEFINITION. The Box-Muller sampler: `GAUSSIAN_F32` and `GAUSSIAN_F64` (spec/43_gaussian.md R110 to R116).
-/

namespace Sys2Proof.Machine

/-- After this many rejected draws in a row no draw can ever be accepted: 1248 zero words are two whole passes of the array, so
one pass that began with a twist was all zero, and the twist of an all-zero array is all zero in either order. The loop of R113 has no
bound of its own; past this point it never ends (R155, U8; notes/assumptions/4.md). -/
def resampleFuel : Nat := 1248

/-- `DRAWA32()`: resample while `A` is `+0`; rejected draws are consumed (R113). -/
def drawA32 : Nat → State → Run F32
  | 0, _ => .stuck
  | fuel + 1, s =>
    (nextWord s).andThen fun u s =>
      if u2f32 s.nanDraws u = 0 then drawA32 fuel s else .value (u2f32 s.nanDraws u) s

/-- `DRAWA64()` (R113). -/
def drawA64 : Nat → State → Run F64
  | 0, _ => .stuck
  | fuel + 1, s =>
    (nextPair s).andThen fun u s =>
      if u2f64 s.nanDraws u = 0 then drawA64 fuel s else .value (u2f64 s.nanDraws u) s

/-- `t1` to `r` of R114: one rounded primitive per operator; NaN draws `k` to `k+5`. -/
def boxMuller32 (k : Nat) (A B mean sigma : F32) : F32 :=
  let t1 := Config.ln32 A
  let t2 := mul32f k Const.neg2F32 t1
  let t3 := sqrt32 (k + 1) t2
  let t4 := mul32f (k + 2) Const.twoPiF32 B
  let t5 := Config.cos32 t4
  let X := mul32f (k + 3) t3 t5
  add32 (k + 5) (mul32f (k + 4) X sigma) mean

/-- `t1` to `r` of R115. -/
def boxMuller64 (k : Nat) (A B mean sigma : F64) : F64 :=
  let t1 := Config.ln64 A
  let t2 := mul64f k Const.neg2F64 t1
  let t3 := sqrt64 (k + 1) t2
  let t4 := mul64f (k + 2) Const.twoPiF64 B
  let t5 := Config.cos64 t4
  let X := mul64f (k + 3) t3 t5
  add64 (k + 5) (mul64f (k + 4) X sigma) mean

/-- `GAUSSIAN_F32` (R114): all of `A`'s draws, then one draw for `B`, not resampled. -/
def execGaussianF32 (mean sigma : F32) (s : State) : Host.Outcome State Fault Refusal :=
  command s fun s => (drawA32 resampleFuel s).andThen fun A s => (nextWord s).andThen fun w s =>
    .value (response32 (boxMuller32 (s.nanDraws + 1) A (u2f32 s.nanDraws w) mean sigma)) (useNaNDraws 7 s)

/-- `GAUSSIAN_F64` (R115). -/
def execGaussianF64 (mean sigma : F64) (s : State) : Host.Outcome State Fault Refusal :=
  command s fun s => (drawA64 resampleFuel s).andThen fun A s => (nextPair s).andThen fun w s =>
    .value (response64 (boxMuller64 (s.nanDraws + 1) A (u2f64 s.nanDraws w) mean sigma)) (useNaNDraws 7 s)

end Sys2Proof.Machine
end

