-- ==== Sys2Proof/Machine/IntegerBytes.lean ====
section
/-!
DEFINITION. Wide integers and byte streams: `NEXT_U64` and `NEXT_BYTES` (spec/41_integer_bytes.md R85, R87).
-/

namespace Sys2Proof.Machine

/-- `NEXT_U64` (R85): high word first. -/
def execNextU64 (s : State) : Host.Outcome State Fault Refusal :=
  command s fun s => (nextPair s).andThen fun v s => .value (response64 v) s

/-- The bytes of `q` complete words, in stream order (R87, "repeat q times"). -/
def drawBytes : Nat → State → Run (List Byte)
  | 0, s => .value [] s
  | q + 1, s =>
    (nextWord s).andThen fun v s => (drawBytes q s).andThen fun out s => .value (bytesBE v ++ out) s

/-- The last `r` bytes, `r < 4`: no draw when `r = 0`; the other bytes of the word drawn are discarded (R87). -/
def drawTail (r : Nat) (s : State) : Run (List Byte) :=
  if r = 0 then .value [] s else (nextWord s).andThen fun v s => .value ((bytesBE v).take r) s

/-- The `length` bytes of a stream (R87). -/
def drawStream (length : Nat) (s : State) : Run (List Byte) :=
  (drawBytes (length / 4) s).andThen fun out s =>
    (drawTail (length % 4) s).andThen fun tail s => .value (out ++ tail) s

/-- `NEXT_BYTES` (R87): both checks come before any draw (R130). -/
def execNextBytes (length : Int) (s : State) : Host.Outcome State Fault Refusal :=
  command s fun s =>
    if length ≤ 0 then raise .invalidArgument s
    else if (Config.maxBytes : Int) < length then raise .resourceLimitExceeded s
    else (drawStream length.toNat s).andThen fun out s => .value (responseBytes length.toNat out) s

end Sys2Proof.Machine
end

