-- ==== Sys2Proof/Machine/Dispatch.lean ====
section
/-! DEFINITION. exec: one arm per command (spec/30_encoding.md R46), each one call of its meaning. -/

namespace Sys2Proof.Machine

def exec (i : Instr) (s : State) : Host.Outcome State Fault Refusal :=
  match i with
  | .seed seed => Sys2Proof.Machine.execSeed seed s
  | .nextU32 => Sys2Proof.Machine.execNextU32 s
  | .nextU64 => Sys2Proof.Machine.execNextU64 s
  | .nextBytes length => Sys2Proof.Machine.execNextBytes length s
  | .uniformF32 lower upper => Sys2Proof.Machine.execUniformF32 lower upper s
  | .uniformF64 lower upper => Sys2Proof.Machine.execUniformF64 lower upper s
  | .gaussianF32 mean sigma => Sys2Proof.Machine.execGaussianF32 mean sigma s
  | .gaussianF64 mean sigma => Sys2Proof.Machine.execGaussianF64 mean sigma s

end Sys2Proof.Machine
end

