-- ==== Sys2Proof/Machine/Step.lean ====
section
/-!
DEFINITION. One step: the engine, idle between commands, takes the next move of the host (spec/30_encoding.md R45). A command is one
atomic transition (spec/20_memory.md R37, R40); reset arrives between commands only (spec/70_reset_and_hazards.md R146); with nothing
presented the block idles, which changes no state (spec/60_exceptions.md R138).
-/

namespace Sys2Proof.Machine

/-- One step of the block (R40, R45). -/
def step (s : State) : Host.Outcome State Fault Refusal :=
  match takeMove s with
  | none => .next s
  | some (.reset, s) => .next (resetEvent s)
  | some (.command cw, s) => exec (decode cw) s

/-- `s` with the command word of number `w` presented as the move the next step takes. A number with a bit above bit 130 is no command
word, and the host has no move that presents it (R45, R47; notes/assumptions/7.md). A program comes from the host, one command word at a time
(notes/assumptions/5.md). -/
def State.withFetchWord (s : State) (nbits w : Nat) : State :=
  if tableNumber nbits w < 2 ^ 131 then presentNext (.command (BitVec.ofNat 131 (tableNumber nbits w))) s else s

end Sys2Proof.Machine
end

