-- ==== Sys2Proof/Machine/Assembler.lean ====
section
/-!
DEFINITION. The assembler syntax (spec/30_encoding.md R56 to R58): from a line of text to the host move it stands for. It acts on no
state; it says which command word a host that writes this syntax presents. What the rules leave open of the lexical form is in
notes/assumptions/8.md.
-/

namespace Sys2Proof.Machine

/-! ## Splitting a line (R56) -/

/-- A blank between the parts of a line. -/
def isBlank (c : Char) : Bool := c == ' ' || c == '\t'

/-- A text without the blanks at its two ends. -/
def trimBlanks (text : List Char) : List Char :=
  ((text.dropWhile isBlank).reverse.dropWhile isBlank).reverse

/-- The part of a line before the optional comment (R56). -/
def stripComment (line : List Char) : List Char := line.takeWhile fun c => !(c == ';')

/-- The parts of a text between its commas. -/
def splitCommas : List Char → List (List Char)
  | [] => [[]]
  | c :: rest =>
    match splitCommas rest with
    | [] => [[c]]
    | part :: parts => if c == ',' then [] :: part :: parts else (c :: part) :: parts

/-- The operands of a command: the comma-separated parts after its mnemonic (R56). -/
def splitOperands (text : List Char) : List (List Char) :=
  if trimBlanks text = [] then [] else (splitCommas text).map trimBlanks

/-! ## Literals (R57) -/

/-- The value of a digit, decimal or hexadecimal. -/
def digitValue (c : Char) : Nat :=
  if '0' ≤ c ∧ c ≤ '9' then c.toNat - 48
  else if 'a' ≤ c ∧ c ≤ 'f' then c.toNat - 87
  else if 'A' ≤ c ∧ c ≤ 'F' then c.toNat - 55
  else 16

/-- The number a digit string continues, `acc` being the digits read so far. -/
def digitsFrom (base : Nat) : Nat → List Char → Option Nat
  | acc, [] => some acc
  | acc, c :: rest => if digitValue c < base then digitsFrom base (acc * base + digitValue c) rest else none

/-- A non-empty digit string. -/
def parseDigits (base : Nat) (text : List Char) : Option Nat :=
  if text = [] then none else digitsFrom base 0 text

/-- An unsigned integer literal, decimal or `0x` hexadecimal (R57). -/
def parseUnsigned (text : List Char) : Option Nat :=
  match text with
  | '0' :: 'x' :: digits => parseDigits 16 digits
  | _ => parseDigits 10 text

/-- A signed integer literal (R56, R57). -/
def parseSigned (text : List Char) : Option Int :=
  match text with
  | '-' :: rest => (parseUnsigned rest).map fun n => -(n : Int)
  | _ => (parseUnsigned text).map fun n => (n : Int)

/-- The magnitude pattern of the real `num * 10^exp`, rounded to nearest, ties to even (R57). -/
def decimalMag (f : FloatFormat) (num : Nat) (exp : Int) : Nat :=
  roundRatio f (num * 10 ^ exp.toNat * 2 ^ unitExp f) (10 ^ (-exp).toNat)

/-- The digits and the power of ten of a decimal real without sign or exponent. -/
def parsePoint (text : List Char) : Option (Nat × Int) :=
  let whole := text.takeWhile fun c => !(c == '.')
  match text.dropWhile fun c => !(c == '.') with
  | [] => (parseDigits 10 whole).map fun n => (n, 0)
  | _ :: fraction =>
    if whole = [] ∨ fraction = [] then none
    else (parseDigits 10 (whole ++ fraction)).map fun n => (n, -(fraction.length : Int))

/-- A signed decimal integer: the exponent of a decimal real, never hexadecimal (notes/assumptions/8.md). -/
def parseExponent (text : List Char) : Option Int :=
  match text with
  | '-' :: rest => (parseDigits 10 rest).map fun n => -(n : Int)
  | _ => (parseDigits 10 text).map fun n => (n : Int)

/-- The magnitude pattern of an unsigned decimal real (R57). The exponent form, an `e` and a decimal integer, is a DESIGN CHOICE of the
model (notes/assumptions/8.md). -/
def parseDecimal (f : FloatFormat) (text : List Char) : Option Nat :=
  (parsePoint (text.takeWhile fun c => !(c == 'e'))).bind fun parts =>
    match text.dropWhile fun c => !(c == 'e') with
    | [] => some (decimalMag f parts.1 parts.2)
    | _ :: exponent => (parseExponent exponent).map fun e => decimalMag f parts.1 (parts.2 + e)

/-- A floating-point operand: raw bits of exactly `hexDigits` digits, `inf`, `-inf`, `nan`, or a decimal real (R57). -/
def parseFloat (f : FloatFormat) (hexDigits : Nat) (text : List Char) : Option Nat :=
  match text with
  | ['i', 'n', 'f'] => some (infMag f)
  | ['-', 'i', 'n', 'f'] => some (2 ^ signPos f + infMag f)
  | ['n', 'a', 'n'] => some (infMag f + 2 ^ (f.fracBits - 1))
  | '0' :: 'x' :: digits => if digits.length = hexDigits then parseDigits 16 digits else none
  | '-' :: rest => (parseDecimal f rest).map fun mag => 2 ^ signPos f + mag
  | _ => parseDecimal f text

/-- A binary32 operand. -/
def parseF32 (text : List Char) : Option F32 := (parseFloat binary32 8 text).map (BitVec.ofNat 32)

/-- A binary64 operand. -/
def parseF64 (text : List Char) : Option F64 := (parseFloat binary64 16 text).map (BitVec.ofNat 64)

/-! ## Commands, pseudo-instructions and the directive (R56, R58) -/

/-- The mnemonics of R46 and R58, and the directive `RESET`. -/
inductive Mnemonic where
  | seed | nextU32 | nextU64 | nextBytes | uniformF32 | uniformF64 | gaussianF32 | gaussianF64
  | seedDefault
  | reset
deriving DecidableEq, Repr

/-- The spelling of a mnemonic (R46, R56, R58). -/
def mnemonicText : Mnemonic → List Char
  | .seed => ['S', 'E', 'E', 'D']
  | .nextU32 => ['N', 'E', 'X', 'T', '_', 'U', '3', '2']
  | .nextU64 => ['N', 'E', 'X', 'T', '_', 'U', '6', '4']
  | .nextBytes => ['N', 'E', 'X', 'T', '_', 'B', 'Y', 'T', 'E', 'S']
  | .uniformF32 => ['U', 'N', 'I', 'F', 'O', 'R', 'M', '_', 'F', '3', '2']
  | .uniformF64 => ['U', 'N', 'I', 'F', 'O', 'R', 'M', '_', 'F', '6', '4']
  | .gaussianF32 => ['G', 'A', 'U', 'S', 'S', 'I', 'A', 'N', '_', 'F', '3', '2']
  | .gaussianF64 => ['G', 'A', 'U', 'S', 'S', 'I', 'A', 'N', '_', 'F', '6', '4']
  | .seedDefault => ['S', 'E', 'E', 'D', '_', 'D', 'E', 'F', 'A', 'U', 'L', 'T']
  | .reset => ['R', 'E', 'S', 'E', 'T']

/-- All mnemonics. -/
def mnemonics : List Mnemonic :=
  [.seed, .nextU32, .nextU64, .nextBytes, .uniformF32, .uniformF64, .gaussianF32, .gaussianF64, .seedDefault, .reset]

/-- The move a command stands for: its command word, ignored bits zero (R56), if its operands fit (R48). -/
def presentCommand (i : Instr) : Option HostMove := if wellFormed i then some (.command (encode i)) else none

/-- A mnemonic with its operands (R56); `SEED_DEFAULT` is `SEED 5489` and the operand-free uniform commands are those of
`[0.0, 1.0]` (R58); the Gaussian mnemonics have no operand-free form (R58). -/
def assembleParts (mnemonic : Mnemonic) (operands : List (List Char)) : Option HostMove :=
  match mnemonic, operands with
  | .seed, [text] =>
    (parseUnsigned text).bind fun n => if n < 2 ^ 32 then presentCommand (.seed (BitVec.ofNat 32 n)) else none
  | .nextU32, [] => presentCommand .nextU32
  | .nextU64, [] => presentCommand .nextU64
  | .nextBytes, [text] => (parseSigned text).bind fun n => presentCommand (.nextBytes n)
  | .uniformF32, [] => presentCommand (.uniformF32 0x00000000#32 0x3F800000#32)
  | .uniformF32, [lo, hi] =>
    (parseF32 lo).bind fun lower => (parseF32 hi).bind fun upper => presentCommand (.uniformF32 lower upper)
  | .uniformF64, [] => presentCommand (.uniformF64 0#64 0x3FF0000000000000#64)
  | .uniformF64, [lo, hi] =>
    (parseF64 lo).bind fun lower => (parseF64 hi).bind fun upper => presentCommand (.uniformF64 lower upper)
  | .gaussianF32, [mu, sd] =>
    (parseF32 mu).bind fun mean => (parseF32 sd).bind fun sigma => presentCommand (.gaussianF32 mean sigma)
  | .gaussianF64, [mu, sd] =>
    (parseF64 mu).bind fun mean => (parseF64 sd).bind fun sigma => presentCommand (.gaussianF64 mean sigma)
  | .seedDefault, [] => presentCommand (.seed Const.defaultSeed)
  | .reset, [] => some .reset
  | _, _ => none

/-- The move one line stands for, or none if the line is not of the syntax (R56). -/
def assembleLine (line : List Char) : Option HostMove :=
  let body := trimBlanks (stripComment line)
  let word := body.takeWhile fun c => !(isBlank c)
  let rest := body.dropWhile fun c => !(isBlank c)
  (mnemonics.find? fun m => mnemonicText m == word).bind fun m => assembleParts m (splitOperands rest)

/-- The moves of a program, one line each (R56). -/
def assembleProgram (lines : List (List Char)) : Option (List HostMove) := lines.mapM assembleLine

end Sys2Proof.Machine
end

