-- ==== Sys2Proof/Safety.lean ====
section
/-!
DEFINITION. The terms claims use: what an operational state is, draws counted one by one, when a non-zero word lies ahead of the
cursor, and the classes of floating-point patterns. Nothing here is called by the machine.
-/

namespace Sys2Proof.Machine

/-- The state of normal operation: `fatal = 0` and `0 <= index <= 624` (spec/10_state.md R17, R18). A run is safe while every state
of it is operational; a state with `fatal = 1` is a fault state, left by reset alone (spec/60_exceptions.md R129). -/
abbrev Operational (s : State) : Prop := s.fatal = false ∧ s.index.toNat ≤ 624

/-- `k` next-word operations in a row: the words in the order drawn (spec/40_bitgen.md R74, R76). -/
def drawWords : Nat → State → Run (List Word)
  | 0, s => .value [] s
  | k + 1, s => (nextWord s).andThen fun v s => (drawWords k s).andThen fun vs s => .value (v :: vs) s

/-- `x` is the array the seeding recurrence gives for `seed`, all arithmetic modulo `2^32` (spec/40_bitgen.md R68):
`x[0] = seed`; `x[i] = f * (x[i-1] XOR (x[i-1] >> 30)) + i`. -/
def IsSeedArray (seed : Word) (x : StateArray) : Prop :=
  wordAt x 0 = seed ∧
    ∀ i, 1 ≤ i → i ≤ 623 →
      wordAt x i = Const.f * (wordAt x (i - 1) ^^^ (wordAt x (i - 1) >>> 30)) + BitVec.ofNat 32 i

/-- The command draws at least one word when it is not refused: every command but `SEED` and a `NEXT_BYTES` whose length is refused
(spec/60_exceptions.md R128, R130). -/
def DrawsAWord : Instr → Prop
  | .seed _ => False
  | .nextBytes length => 0 < length ∧ length ≤ 10485760
  | .nextU32 | .nextU64 | .uniformF32 _ _ | .uniformF64 _ _ | .gaussianF32 _ _ | .gaussianF64 _ _ => True

/-- The two commands with a resample loop (spec/43_gaussian.md R113). -/
def IsGaussian : Instr → Prop
  | .gaussianF32 _ _ | .gaussianF64 _ _ => True
  | .seed _ | .nextU32 | .nextU64 | .nextBytes _ | .uniformF32 _ _ | .uniformF64 _ _ => False

/-- A non-zero state word lies ahead: one not yet consumed, or one of the array that the next twist leaves. -/
def WordAhead (s : State) : Prop :=
  (∃ j, s.index.toNat ≤ j ∧ j < 624 ∧ wordAt s.x j ≠ 0) ∨ ∃ j, j < 624 ∧ wordAt (twistArray s.x) j ≠ 0

/-- The words `x[1..623]` and the top bit of `x[0]` are not all zero (93_implementation_defined.md U8). -/
def NotDegenerate (x : StateArray) : Prop :=
  (wordAt x 0).getLsbD 31 = true ∨ ∃ j, 1 ≤ j ∧ j < 624 ∧ wordAt x j ≠ 0

/-! ## Classes of patterns, by their fields (spec/42_uniform.md R95) -/

/-- A quiet NaN: exponent field all ones, top fraction bit 1. -/
abbrev QuietNaN32 (v : F32) : Prop := v.extractLsb' 23 8 = 0xFF#8 ∧ v.getLsbD 22 = true

/-- Any NaN: exponent field all ones, fraction not 0. -/
abbrev AnyNaN32 (v : F32) : Prop := v.extractLsb' 23 8 = 0xFF#8 ∧ v.extractLsb' 0 23 ≠ 0#23

/-- A zero, subnormal or normal number. -/
abbrev Finite32 (v : F32) : Prop := v.extractLsb' 23 8 ≠ 0xFF#8

abbrev QuietNaN64 (v : F64) : Prop := v.extractLsb' 52 11 = 0x7FF#11 ∧ v.getLsbD 51 = true
abbrev AnyNaN64 (v : F64) : Prop := v.extractLsb' 52 11 = 0x7FF#11 ∧ v.extractLsb' 0 52 ≠ 0#52
abbrev Finite64 (v : F64) : Prop := v.extractLsb' 52 11 ≠ 0x7FF#11

/-- The infinity of a sign: exponent field all ones, fraction 0. -/
def inf32 (neg : Bool) : F32 := if neg then 0xFF800000#32 else 0x7F800000#32
def inf64 (neg : Bool) : F64 := if neg then 0xFFF0000000000000#64 else 0x7FF0000000000000#64

/-- The zero of a sign: every bit but the sign bit 0. -/
def zero32 (neg : Bool) : F32 := if neg then 0x80000000#32 else 0x00000000#32
def zero64 (neg : Bool) : F64 := if neg then 0x8000000000000000#64 else 0x0000000000000000#64

/-- The value of a finite binary32 pattern in units of `2^-149`: `(-1)^sign * fraction` for exponent field 0, else
`(-1)^sign * (2^23 + fraction) * 2^(exponent - 1)` (R95). -/
def units32 (v : F32) : Int :=
  let e := (v.extractLsb' 23 8).toNat
  let frac := (v.extractLsb' 0 23).toNat
  let mag : Nat := if e = 0 then frac else (2 ^ 23 + frac) * 2 ^ (e - 1)
  if v.getLsbD 31 then -(mag : Int) else mag

/-- The value of a finite binary64 pattern in units of `2^-1074` (R95). -/
def units64 (v : F64) : Int :=
  let e := (v.extractLsb' 52 11).toNat
  let frac := (v.extractLsb' 0 52).toNat
  let mag : Nat := if e = 0 then frac else (2 ^ 52 + frac) * 2 ^ (e - 1)
  if v.getLsbD 63 then -(mag : Int) else mag

/-- `r` is a nearest finite binary32 value to `num / den` units, and where another value is as near, its last fraction bit is 0
(R96). -/
def Nearest32 (r : F32) (num : Int) (den : Nat) : Prop :=
  ∀ c : F32, Finite32 c →
    |units32 r * den - num| ≤ |units32 c * den - num| ∧
      (|units32 r * den - num| = |units32 c * den - num| → units32 c ≠ units32 r → r.getLsbD 0 = false)

/-- As `Nearest32`, in binary64. -/
def Nearest64 (r : F64) (num : Int) (den : Nat) : Prop :=
  ∀ c : F64, Finite64 c →
    |units64 r * den - num| ≤ |units64 c * den - num| ∧
      (|units64 r * den - num| = |units64 c * den - num| → units64 c ≠ units64 r → r.getLsbD 0 = false)

/-- Half a unit in the last place above the largest finite binary32 value, in units of `2^-149`: the least magnitude that rounds to
infinity, `2^128 * (1 - 2^-25)` (R96; notes/assumptions/11.md). -/
def overflow32 : Nat := (2 ^ 25 - 1) * 2 ^ 252

/-- As `overflow32`, in binary64: `2^1024 * (1 - 2^-54)` in units of `2^-1074`. -/
def overflow64 : Nat := (2 ^ 54 - 1) * 2 ^ 2044

/-- `r` is the exact value `num / den` units rounded to binary32: a finite nearest value, ties to even, below the overflow threshold, and
the infinity of its sign from the threshold on (R96). -/
def RoundsTo32 (r : F32) (num : Int) (den : Nat) : Prop :=
  (|num| < (overflow32 * den : Nat) → Finite32 r ∧ Nearest32 r num den) ∧
    ((overflow32 * den : Nat) ≤ |num| → r = inf32 (decide (num < 0)))

/-- As `RoundsTo32`, in binary64. -/
def RoundsTo64 (r : F64) (num : Int) (den : Nat) : Prop :=
  (|num| < (overflow64 * den : Nat) → Finite64 r ∧ Nearest64 r num den) ∧
    ((overflow64 * den : Nat) ≤ |num| → r = inf64 (decide (num < 0)))

end Sys2Proof.Machine
end

