-- ==== Sys2Proof/Certificates/Slice0/Obligations.lean ====
section
/-!
DEFINITION. What is claimed of the model, each statement from a numbered rule of spec/ or derived from the sections it cites
(OBLIGATIONS.json). A statement of a command's result is an equation `exec i s = .next …` whose right side is `s` with the fields the
rule changes, so it says the result, that the command completes, and its frame, in one.

The twist's order, the logarithm, the cosine and the NaN draws are opaque: a statement holds for every value of them. `nanDraws` is the
model's own counter (notes/assumptions/3.md); that a command advances it is the model's choice, not the spec's.
-/

open Sys2Proof Sys2Proof.Machine

/-! ## Encoding (30_encoding.md) -/

/-- Seven of the worked encodings of 30_encoding.md section 6, and the word with ignored bits set, decode to what they stand for. -/
def Obligations.WorkedCommandWordsDecode : Prop :=
  decode 0x000000000000000000000000000001571#131 = .seed 5489#32 ∧
  decode 0x100000000000000000000000000000000#131 = .nextU32 ∧
  decode 0x3000000000000000000000000FFFFFFFF#131 = .nextBytes (-1) ∧
  decode 0x40000000040A0000000000000C0A00000#131 = .uniformF32 0xC0A00000#32 0x40A00000#32 ∧
  decode 0x54014000000000000C014000000000000#131 = .uniformF64 0xC014000000000000#64 0x4014000000000000#64 ∧
  decode 0x6000000003F8000000000000000000000#131 = .gaussianF32 0#32 0x3F800000#32 ∧
  decode 0x740000000000000004024000000000000#131 = .gaussianF64 0x4024000000000000#64 0x4000000000000000#64 ∧
  decode 0x00123456789ABCDEFDEADBEEF00001571#131 = .seed 5489#32

/-- R47: the three fields lie at `CW[130:128]`, `CW[127:64]` and `CW[63:0]`; the rule's example. -/
def Obligations.CommandWordFieldsLieWhereTheFormatSays : Prop :=
  (∀ (op : BitVec 3) (b a : BitVec 64),
    (packWord op b a).toNat = op.toNat * 2 ^ 128 + b.toNat * 2 ^ 64 + a.toNat ∧
    fieldOp (packWord op b a) = op ∧ fieldB (packWord op b a) = b ∧ fieldA (packWord op b a) = a) ∧
  encode (.seed 5489#32) = packWord 0 0x0000000000000000#64 0x0000000000001571#64

/-- R46 to R48: decoding the encoding of any well-formed command gives the command back, with every operand at every value. -/
def Obligations.DecodeOfEncodeIsTheCommand : Prop :=
  ∀ i : Instr, WellFormed i → decode (encode i) = i

/-- R49: which operand bits a command ignores and which it uses, exactly: two words of one opcode decode to the same command if and only
if the used bits agree. -/
def Obligations.IgnoredOperandBitsAreExactlyTheListedOnes : Prop :=
  ∀ (op : BitVec 3) (b a b' a' : BitVec 64),
    decode (packWord op b a) = decode (packWord op b' a') ↔
      ((op = 0 ∨ op = 3 → a.extractLsb' 0 32 = a'.extractLsb' 0 32) ∧
       (op = 4 ∨ op = 6 → a.extractLsb' 0 32 = a'.extractLsb' 0 32 ∧ b.extractLsb' 0 32 = b'.extractLsb' 0 32) ∧
       (op = 5 ∨ op = 7 → a = a' ∧ b = b'))

/-- R50: every one of the `2^131` command words decodes to exactly one command, a well-formed one, of the opcode its `op` field holds. -/
def Obligations.EveryCommandWordIsACommand : Prop :=
  (∀ cw : CommandWord, decodeNumber cw.toNat = .ok (decode cw) ∧ WellFormed (decode cw) ∧ opcode (decode cw) = fieldOp cw) ∧
  decode 0#131 = .seed 0#32 ∧
  decode (BitVec.allOnes 131) = .gaussianF64 0xFFFFFFFFFFFFFFFF#64 0xFFFFFFFFFFFFFFFF#64

/-- R52, R53: the response word is `status` above `data`, with the four status codes 0 to 3. -/
def Obligations.ResponseWordHoldsStatusAndData : Prop :=
  (∀ r : Response, (responseWord r).extractLsb' 64 2 = statusCode r.status ∧ (responseWord r).extractLsb' 0 64 = r.data) ∧
  statusCode .ok = 0 ∧ statusCode .invalidArgument = 1 ∧ statusCode .resourceLimitExceeded = 2 ∧ statusCode .fatal = 3

/-- 30_encoding.md section 6 with R56 and R58: worked lines of assembly, the three pseudo-instructions and the directive. -/
def Obligations.WorkedLinesAssemble : Prop :=
  assembleLine "SEED 0xFFFFFFFF".toList = some (.command 0x0000000000000000000000000FFFFFFFF#131) ∧
  assembleLine "NEXT_BYTES -1 ; refused".toList = some (.command 0x3000000000000000000000000FFFFFFFF#131) ∧
  assembleLine "UNIFORM_F32 -5.0, 5.0".toList = some (.command 0x40000000040A0000000000000C0A00000#131) ∧
  assembleLine "GAUSSIAN_F64 10.0, 2.0".toList = some (.command 0x740000000000000004024000000000000#131) ∧
  assembleLine "SEED_DEFAULT".toList = some (.command 0x000000000000000000000000000001571#131) ∧
  assembleLine "UNIFORM_F32".toList = some (.command 0x4000000003F8000000000000000000000#131) ∧
  assembleLine "UNIFORM_F64".toList = some (.command 0x53FF00000000000000000000000000000#131) ∧
  assembleLine "GAUSSIAN_F32".toList = none ∧
  assembleLine "RESET".toList = some .reset

/-! ## Steps, reset and the channels (30_encoding.md R45; 70_reset_and_hazards.md) -/

/-- R40, R45: with a command word next on the channel, a step runs the decoded command on the state without it. -/
def Obligations.StepRunsTheDecodedCommand : Prop :=
  ∀ (s : State) (cw : CommandWord) (rest : List HostMove), s.input = .command cw :: rest →
    step s = exec (decode cw) { s with input := rest }

/-- A command word placed by `withFetchWord` is the one the very next step runs, on the state it was placed in. The placing is the model's
form of the command channel (notes/assumptions/5.md). -/
def Obligations.PresentedWordRunsNext : Prop :=
  ∀ (s : State) (w : Nat), w < 2 ^ 131 →
    decodeTableWord 136 w = some (decode (BitVec.ofNat 131 w)) ∧
    step (s.withFetchWord 136 w) = exec (decode (BitVec.ofNat 131 w)) s

/-- R138: with nothing presented the block idles, and idling changes no state. -/
def Obligations.IdlingChangesNothing : Prop :=
  ∀ s : State, s.input = [] → step s = .next s

/-- R145: reset, from any state: the flag cleared, the array the recurrence gives for 5489, the cursor 624; no response; the first word drawn
afterwards is 3499211612; and apart from the flag it leaves what `SEED 5489` leaves. That the moves presented behind the event, the delivered
responses and the NaN counter stay as they are is the model's deduction (notes/assumptions/10.md, 3.md). -/
def Obligations.ResetSeedsWith5489 : Prop :=
  ∀ (s : State) (rest : List HostMove), s.input = .reset :: rest →
    ∃ x', IsSeedArray 5489#32 x' ∧
      step s = .next { s with x := x', index := 624, fatal := false, input := rest } ∧
      (∃ t, nextWord { s with x := x', index := 624, fatal := false, input := rest } = .value 3499211612#32 t) ∧
      (s.fatal = false →
        exec (.seed 5489#32) s = .next { s with x := x', index := 624, responses := s.responses ++ [⟨.ok, 0, []⟩] })

/-- R24: the state after reset. -/
def Obligations.ResetStateIsTheDefaultSeedState : Prop :=
  IsSeedArray 5489#32 State.reset.x ∧ State.reset.index = 624 ∧ State.reset.fatal = false ∧
  wordAt State.reset.x 1 = 0x4D98EE96#32 ∧ wordAt State.reset.x 2 = 0xAF25F095#32 ∧
  wordAt State.reset.x 623 = 0x04C46D8C#32

/-- R75's example, SQ's known vector: `NEXT_U32` as the first command after reset responds `(OK, 0x00000000D091BB5C, [])` and leaves
`index = 1`, in either twist order. -/
def Obligations.FirstWordAfterResetIsTheKnownVector : Prop :=
  step (State.reset.withFetchWord 136 0x100000000000000000000000000000000) =
    .next { State.reset with
      x := twistArray State.reset.x, index := 1, responses := [⟨.ok, 0x00000000D091BB5C#64, []⟩] }

/-! ## The Bit Generator (40_bitgen.md) -/

/-- R65: the multiplier's result is the low 32 bits of the product; the three examples. -/
def Obligations.MultiplierKeepsTheLow32Bits : Prop :=
  (∀ p q : Word, (mul32 p q).toNat = p.toNat * q.toNat % 2 ^ 32 ∧ mul32 p q = mul32 q p) ∧
  mul32 0x6C078965#32 0x00001571#32 = 0x4D98EE95#32 ∧
  mul32 0xFFFFFFFF#32 0xFFFFFFFF#32 = 0x00000001#32 ∧
  mul32 0x00010000#32 0x00010000#32 = 0x00000000#32

/-- R68, R69: op 0 is `SEED` with `seed = a[31:0]`. It fills the array by the recurrence, sets the cursor to 624, answers `(OK, 0, [])` and
changes nothing else, whatever the cursor was; with the flag set it answers `Fatal` and writes nothing. -/
def Obligations.SeedFillsTheArrayByTheRecurrence : Prop :=
  (∀ b a : BitVec 64, decode (packWord 0 b a) = .seed (a.extractLsb' 0 32)) ∧
  ∀ (seed : Word) (s : State),
    (s.fatal = true → exec (.seed seed) s = .next { s with responses := s.responses ++ [⟨.fatal, 0, []⟩] }) ∧
    (s.fatal = false → ∃ x', IsSeedArray seed x' ∧
      exec (.seed seed) s = .next { s with x := x', index := 624, responses := s.responses ++ [⟨.ok, 0, []⟩] })

/-- R68, R38: nothing of the previous state survives seeding: from any two states the array and the cursor come out the same, and
seeding twice is seeding once. -/
def Obligations.SeedingForgetsThePreviousArray : Prop :=
  ∀ (seed : Word) (s s' t t' : State), s.fatal = false → s'.fatal = false →
    exec (.seed seed) s = .next t → exec (.seed seed) s' = .next t' → t.x = t'.x ∧ t.index = t'.index ∧
      (∀ u, exec (.seed seed) t = .next u → u.x = t.x ∧ u.index = t.index)

/-- R70: `MIX` in the form of SQ's recurrence (the oddness is bit 0 of the next word), and the twist's frame: every word by the block's
order, `index <- 0`, nothing else. -/
def Obligations.TwistMixesAndClearsTheCursor : Prop :=
  (∀ cur nxt mid : Word, mix cur nxt mid =
    mid ^^^ ((((cur &&& 0x80000000#32) ||| (nxt &&& 0x7FFFFFFF#32)) >>> 1) ^^^
      (if nxt.getLsbD 0 then 0x9908B0DF#32 else 0#32))) ∧
  (∀ s : State, twistState s = { s with x := twistWith Config.twistOrder s.x, index := 0 })

/-- R71: the sequential twist is the in-place loop: for any trace `a` of array contents that starts at `o` and in its `i`-th step rewrites word
`i` alone, from the contents at that moment, the regenerated array is the contents after 624 steps. -/
def Obligations.SequentialTwistIsTheInPlaceLoop : Prop :=
  ∀ (o : StateArray) (a : Nat → Nat → Word),
    (∀ j, j < 624 → a 0 j = wordAt o j) →
    (∀ i, i < 624 → a (i + 1) i = mix (a i i) (a i ((i + 1) % 624)) (a i ((i + 397) % 624)) ∧
      ∀ j, j < 624 → j ≠ i → a (i + 1) j = a i j) →
    ∀ j, j < 624 → wordAt (twistWith .sequential o) j = a 624 j

/-- R72: the snapshot twist reads the array as it stood at twist start; the two orders agree on the words 0 to 226, and after
`SEEDSTATE(5489)` they differ at word 227. -/
def Obligations.SnapshotTwistReadsTheOldArray : Prop :=
  (∀ (o : StateArray) (i : Nat), i < 624 →
    wordAt (twistWith .snapshot o) i = mix (wordAt o i) (wordAt o ((i + 1) % 624)) (wordAt o ((i + 397) % 624))) ∧
  (∀ (o : StateArray) (i : Nat), i < 227 → wordAt (twistWith .sequential o) i = wordAt (twistWith .snapshot o) i) ∧
  wordAt (twistWith .sequential (seedArray 5489#32)) 227 ≠ wordAt (twistWith .snapshot (seedArray 5489#32)) 227

/-- R73: tempering is the four stages in order; and the rule's remark from general knowledge, here a theorem about them: it is a bijection on
32-bit words, so a drawn word is 0 exactly when the state word was 0. -/
def Obligations.TemperingIsTheFourStagesAndABijection : Prop :=
  (∀ y : Word, temper y =
    let y1 := y ^^^ ((y >>> 11) &&& 0xFFFFFFFF#32)
    let y2 := y1 ^^^ ((y1 <<< 7) &&& 0x9D2C5680#32)
    let y3 := y2 ^^^ ((y2 <<< 15) &&& 0xEFC60000#32)
    y3 ^^^ (y3 >>> 18)) ∧
  Function.Bijective temper ∧ ∀ y : Word, temper y = 0 ↔ y = 0

/-- R74: the next-word operation by the value of the cursor, with its frame. -/
def Obligations.NextWordFollowsTheCursor : Prop :=
  ∀ s : State,
    (624 < s.index.toNat → nextWord s = .raised .fatal { s with fatal := true }) ∧
    (s.index = 624 → nextWord s =
      .value (temper (wordAt (twistArray s.x) 0)) { s with x := twistArray s.x, index := 1 }) ∧
    (s.index.toNat < 624 → nextWord s =
      .value (temper (wordAt s.x s.index.toNat)) { s with index := s.index + 1 } ∧
      (s.index + 1).toNat = s.index.toNat + 1)

/-- R75: op 1 is `NEXT_U32`; by the flag and the cursor: the drawn word zero-extended, and its frame. -/
def Obligations.NextU32RespondsTheDrawnWord : Prop :=
  (∀ b a : BitVec 64, decode (packWord 1 b a) = .nextU32) ∧
  ∀ s : State,
    (s.fatal = true → exec .nextU32 s = .next { s with responses := s.responses ++ [⟨.fatal, 0, []⟩] }) ∧
    (s.fatal = false → 624 < s.index.toNat → exec .nextU32 s =
      .next { s with fatal := true, responses := s.responses ++ [⟨.fatal, 0, []⟩] }) ∧
    (s.fatal = false → s.index = 624 → exec .nextU32 s =
      .next { s with
        x := twistArray s.x, index := 1,
        responses := s.responses ++ [⟨.ok, (temper (wordAt (twistArray s.x) 0)).setWidth 64, []⟩] }) ∧
    (s.fatal = false → s.index.toNat < 624 → exec .nextU32 s =
      .next { s with
        index := s.index + 1,
        responses := s.responses ++ [⟨.ok, (temper (wordAt s.x s.index.toNat)).setWidth 64, []⟩] })

/-- R76: draws counted from 1 after a seeding: draw `j` reads word `(j-1) mod 624` of the array after `ceil(j/624)` twists, and after draw `k`
the cursor is `((k-1) mod 624) + 1`. -/
def Obligations.DrawNumberingAfterSeeding : Prop :=
  ∀ (s : State) (k : Nat), s.index = 624 → 1 ≤ k →
    ∃ ws, drawWords k s = .value ws { s with
        x := twistArray^[(k + 623) / 624] s.x, index := BitVec.ofNat 10 ((k - 1) % 624 + 1) } ∧
      ws.length = k ∧
      ∀ j, 1 ≤ j → j ≤ k → ws[j - 1]? = some (temper (wordAt (twistArray^[(j + 623) / 624] s.x) ((j - 1) % 624)))

/-- 70_reset_and_hazards.md R155 and 93_implementation_defined.md U8: seeding never leaves the words `x[1..623]` and the top bit of `x[0]` all zero,
and the sequential twist never leads from an array where they are not all zero to one where they are. -/
def Obligations.SequentialTwistKeepsTheArrayNonDegenerate : Prop :=
  (∀ seed : Word, NotDegenerate (seedArray seed)) ∧
  (∀ x : StateArray, NotDegenerate x → NotDegenerate (twistWith .sequential x))

/-! ## Wide integers and byte streams (41_integer_bytes.md) -/

/-- R85: op 2 is `NEXT_U64`; by the flag and the cursor: two draws, the high word first. -/
def Obligations.NextU64RespondsHighWordFirst : Prop :=
  (∀ b a : BitVec 64, decode (packWord 2 b a) = .nextU64) ∧
  ∀ s : State,
    (s.fatal = true → exec .nextU64 s = .next { s with responses := s.responses ++ [⟨.fatal, 0, []⟩] }) ∧
    (s.fatal = false → 624 < s.index.toNat → exec .nextU64 s =
      .next { s with fatal := true, responses := s.responses ++ [⟨.fatal, 0, []⟩] }) ∧
    (Operational s → ∃ (hi lo : Word) (s1 s2 : State) (v : BitVec 64),
      nextWord s = .value hi s1 ∧ nextWord s1 = .value lo s2 ∧ v.toNat = hi.toNat * 2 ^ 32 + lo.toNat ∧
      exec .nextU64 s =
        .next { s with x := s2.x, index := s2.index, responses := s.responses ++ [⟨.ok, v, []⟩] })

/-- SQ's word composition property (95_test_vectors.md P3): `NEXT_U64` gives the two words that two `NEXT_U32` would have given, and leaves the
same generator. -/
def Obligations.NextU64EqualsTwoNextU32 : Prop :=
  ∀ s : State, Operational s → ∃ (t1 t2 t : State) (d1 d2 v : BitVec 64),
    exec .nextU32 s = .next t1 ∧ t1.responses = s.responses ++ [⟨.ok, d1, []⟩] ∧
    exec .nextU32 t1 = .next t2 ∧ t2.responses = t1.responses ++ [⟨.ok, d2, []⟩] ∧
    exec .nextU64 s = .next t ∧ t.responses = s.responses ++ [⟨.ok, v, []⟩] ∧
    v.toNat = d1.toNat * 2 ^ 32 + d2.toNat ∧ t.x = t2.x ∧ t.index = t2.index

/-- R126: `NEXT_BYTES` with `length <= 0` answers `InvalidArgument`, whatever the cursor, and changes nothing; the command words with such a
length are those with `a[31:0] = 0` or bit 31 set; no other command gives this status. -/
def Obligations.NonPositiveLengthIsInvalidArgument : Prop :=
  (∀ (length : Int) (s : State), s.fatal = false → length ≤ 0 →
    exec (.nextBytes length) s = .next { s with responses := s.responses ++ [⟨.invalidArgument, 0, []⟩] }) ∧
  (∀ b a : BitVec 64, (∃ length, decode (packWord 3 b a) = .nextBytes length ∧ length ≤ 0) ↔
    a.extractLsb' 0 32 = 0 ∨ a.getLsbD 31 = true) ∧
  (∀ (i : Instr) (s t : State) (r : Response), exec i s = .next t → t.responses = s.responses ++ [r] →
    r.status = .invalidArgument → ∃ length, i = .nextBytes length ∧ length ≤ 0)

/-- R127: `NEXT_BYTES` beyond 10485760 bytes answers `ResourceLimitExceeded`, whatever the cursor, and changes nothing; a length of exactly
10485760 is served. -/
def Obligations.OversizedLengthIsResourceLimitExceeded : Prop :=
  (∀ (length : Int) (s : State), s.fatal = false → 10485760 < length →
    exec (.nextBytes length) s = .next { s with responses := s.responses ++ [⟨.resourceLimitExceeded, 0, []⟩] }) ∧
  (∀ s : State, Operational s → ∃ (t : State) (bytes : List Byte), exec (.nextBytes 10485760) s = .next t ∧
    t.responses = s.responses ++ [⟨.ok, 10485760, bytes⟩] ∧ bytes.length = 10485760)

/-- R86, R87, R88: op 3 is `NEXT_BYTES` with the signed length `a[31:0]`. By the flag, the length and the cursor, in that order: a served
command draws `ceil(length / 4)` words and responds their bytes, most significant first, cut to `length`. -/
def Obligations.NextBytesRespondsTheBigEndianStream : Prop :=
  (∀ b a : BitVec 64, decode (packWord 3 b a) = .nextBytes (a.extractLsb' 0 32).toInt) ∧
  (∀ (length : Int) (s : State),
    (s.fatal = true → exec (.nextBytes length) s =
      .next { s with responses := s.responses ++ [⟨.fatal, 0, []⟩] }) ∧
    (s.fatal = false → length ≤ 0 → exec (.nextBytes length) s =
      .next { s with responses := s.responses ++ [⟨.invalidArgument, 0, []⟩] }) ∧
    (s.fatal = false → 10485760 < length → exec (.nextBytes length) s =
      .next { s with responses := s.responses ++ [⟨.resourceLimitExceeded, 0, []⟩] }) ∧
    (s.fatal = false → 0 < length → length ≤ 10485760 → 624 < s.index.toNat → exec (.nextBytes length) s =
      .next { s with fatal := true, responses := s.responses ++ [⟨.fatal, 0, []⟩] })) ∧
  ∀ (length : Nat) (s : State), 1 ≤ length → length ≤ 10485760 → Operational s →
    ∃ (ws : List Word) (t : State) (bytes : List Byte),
      drawWords ((length + 3) / 4) s = .value ws t ∧
      bytes = (ws.flatMap fun v =>
        [v.extractLsb' 24 8, v.extractLsb' 16 8, v.extractLsb' 8 8, v.extractLsb' 0 8]).take length ∧
      bytes.length = length ∧
      exec (.nextBytes length) s = .next { s with
        x := t.x, index := t.index,
        responses := s.responses ++ [⟨.ok, BitVec.ofNat 64 length, bytes⟩] }

/-- SQ's byte-stream round trip (95_test_vectors.md P4): the bytes of `NEXT_BYTES 4`, read as a big-endian number, are the word that
`NEXT_U32` would have given, and the generator is left the same. -/
def Obligations.NextBytes4IsTheNextWordBigEndian : Prop :=
  ∀ s : State, Operational s → ∃ (t t' : State) (d : BitVec 64) (b3 b2 b1 b0 : Byte),
    exec .nextU32 s = .next t ∧ t.responses = s.responses ++ [⟨.ok, d, []⟩] ∧
    exec (.nextBytes 4) s = .next t' ∧ t'.responses = s.responses ++ [⟨.ok, 4, [b3, b2, b1, b0]⟩] ∧
    d.toNat = ((b3.toNat * 256 + b2.toNat) * 256 + b1.toNat) * 256 + b0.toNat ∧
    t'.x = t.x ∧ t'.index = t.index

/-! ## Error conditions (60_exceptions.md) -/

/-- R129: with the flag set every command answers `(Fatal, 0, [])` and changes nothing; a step leaves the fatal state only by the reset event, and the
reset event leaves it. -/
def Obligations.FatalIsStickyUntilReset : Prop :=
  (∀ (i : Instr) (s : State), s.fatal = true →
    exec i s = .next { s with responses := s.responses ++ [⟨.fatal, 0, []⟩] }) ∧
  (∀ s t : State, s.fatal = true → step s = .next t → t.fatal = false → ∃ rest, s.input = .reset :: rest) ∧
  (∀ (s : State) (rest : List HostMove), s.input = .reset :: rest → ∃ t, step s = .next t ∧ t.fatal = false)

/-- R128: a cursor above 624 is found by every command that draws, at its first draw: the flag is set, the answer is `(Fatal, 0, [])`, the array and
the cursor are unchanged; `SEED` and a refused `NEXT_BYTES` do not look at the cursor. -/
def Obligations.BadCursorIsFatalAtTheFirstDraw : Prop :=
  ∀ (i : Instr) (s : State), s.fatal = false → 624 < s.index.toNat →
    (DrawsAWord i → exec i s = .next { s with fatal := true, responses := s.responses ++ [⟨.fatal, 0, []⟩] }) ∧
    (∀ seed, i = .seed seed → ∃ t, exec i s = .next t ∧ t.index = 624 ∧ t.fatal = false) ∧
    (∀ length, i = .nextBytes length → ¬ DrawsAWord i → ∃ t, exec i s = .next t ∧ t.index = s.index ∧ t.fatal = false)

/-- R125, R131, R45: every command that answers gives exactly one response; one that is not `OK` has `data = 0`, no bytes and no effect on
the array and the cursor; the two recoverable statuses come from `NEXT_BYTES` alone, and `Fatal` is reported exactly when the flag was set
or a drawing command finds the cursor out of range, and leaves it set. -/
def Obligations.ConditionsLeaveTheGeneratorAlone : Prop :=
  ∀ (i : Instr) (s t : State), exec i s = .next t →
    ∃ r, t.responses = s.responses ++ [r] ∧ t.input = s.input ∧
      (r.status ≠ .ok → r.data = 0 ∧ r.bytes = [] ∧ t.x = s.x ∧ t.index = s.index) ∧
      (r.status = .invalidArgument ↔ s.fatal = false ∧ ∃ length, i = .nextBytes length ∧ length ≤ 0) ∧
      (r.status = .resourceLimitExceeded ↔ s.fatal = false ∧ ∃ length, i = .nextBytes length ∧ 10485760 < length) ∧
      (r.status = .fatal ↔ s.fatal = true ∨ (DrawsAWord i ∧ 624 < s.index.toNat)) ∧
      (r.status = .fatal ↔ t.fatal = true)

/-- R54, R55: the data of a 32-bit result is zero-extended, and only a served `NEXT_BYTES` has bytes, `data` many. -/
def Obligations.ResponseFieldsHaveTheStatedForm : Prop :=
  ∀ (i : Instr) (s t : State) (r : Response), exec i s = .next t → t.responses = s.responses ++ [r] →
    ((∃ a, i = .seed a) → r.data = 0) ∧
    ((i = .nextU32 ∨ (∃ a b, i = .uniformF32 a b) ∨ ∃ a b, i = .gaussianF32 a b) → r.data.toNat < 2 ^ 32) ∧
    ((∃ length, i = .nextBytes length) → r.bytes.length = r.data.toNat) ∧
    ((∀ length, i ≠ .nextBytes length) → r.bytes = [])

/-- R17, R18, U2: every step of an operational state leaves an operational state: the flag stays 0 and the cursor never exceeds 624. -/
def Obligations.EveryStepKeepsTheBlockOperational : Prop :=
  ∀ s t : State, Operational s → step s = .next t → Operational t

/-- R24: the state after reset is operational. -/
def Obligations.ResetStateIsOperational : Prop := Operational State.reset

/-- R18: after a command that drew, `1 <= index <= 624`; after `SEED`, `index = 624`. -/
def Obligations.CursorAfterACommand : Prop :=
  ∀ (i : Instr) (s t : State), Operational s → exec i s = .next t →
    (DrawsAWord i → 1 ≤ t.index.toNat ∧ t.index.toNat ≤ 624) ∧ (∀ seed, i = .seed seed → t.index = 624)

/-- R4, R14, R32: a command other than `SEED` moves the array and the cursor only by whole next-word operations. -/
def Obligations.DrawCommandsMoveTheGeneratorByWholeDraws : Prop :=
  ∀ (i : Instr) (s t : State), (∀ seed, i ≠ .seed seed) → exec i s = .next t →
    ∃ (k : Nat) (ws : List Word) (u : State), drawWords k s = .value ws u ∧ t.x = u.x ∧ t.index = u.index

/-- R7: the response and the generator afterwards depend on the array, the cursor, the flag and (the model's own) the number of the next NaN draw, and
on nothing else: not on what was presented or answered before. -/
def Obligations.ResponsesDependOnTheGeneratorAlone : Prop :=
  ∀ (i : Instr) (s s' t : State), s.x = s'.x → s.index = s'.index → s.fatal = s'.fatal → s.nanDraws = s'.nanDraws →
    exec i s = .next t → ∃ (t' : State) (r : Response), exec i s' = .next t' ∧
      t.responses = s.responses ++ [r] ∧ t'.responses = s'.responses ++ [r] ∧
      t.x = t'.x ∧ t.index = t'.index ∧ t.fatal = t'.fatal ∧ t.nanDraws = t'.nanDraws

/-- R157: every command is answered, but for the resample loop of the two Gaussian commands; nothing is refused. -/
def Obligations.EveryOtherCommandIsAnswered : Prop :=
  ∀ (i : Instr) (s : State),
    (¬ IsGaussian i → ∃ t, exec i s = .next t) ∧
    (IsGaussian i → (∃ t, exec i s = .next t) ∨ exec i s = .fault .resampleNeverEnds)

/-! ## Floating point and the uniform commands (42_uniform.md) -/

/-- R96, rounding: `roundMag` gives a nearest representable magnitude, an even one on a tie, and infinity exactly from half a unit in the last place
above the largest finite value on. That is R96's gloss ("past halfway beyond the largest finite"); the formula it prints is the largest finite
value itself and is not followed (notes/assumptions/11.md). -/
def Obligations.RoundingIsToNearestEven : Prop :=
  ∀ (f : FloatFormat) (k m : Nat), f = binary32 ∨ f = binary64 →
    roundMag f k m ≤ infMag f ∧
    (roundMag f k m = infMag f ↔ (2 ^ (f.fracBits + 2) - 1) * 2 ^ (2 ^ f.expBits - 4) * 2 ^ k ≤ m) ∧
    (roundMag f k m < infMag f → ∀ c, c < infMag f →
      |((magUnits f (roundMag f k m) * 2 ^ k : Nat) : Int) - m| ≤ |((magUnits f c * 2 ^ k : Nat) : Int) - m| ∧
      (|((magUnits f (roundMag f k m) * 2 ^ k : Nat) : Int) - m| = |((magUnits f c * 2 ^ k : Nat) : Int) - m| →
        c ≠ roundMag f k m → roundMag f k m % 2 = 0))

/-- R96 in binary32: each primitive on finite operands rounds the exact real result once: below the overflow threshold the result is finite and a
nearest value, ties to even; from the threshold on it is the infinity of the exact result's sign. The threshold is halfway beyond the largest
finite value, R96's gloss and not the formula it prints (notes/assumptions/11.md). -/
def Obligations.Binary32ArithmeticIsCorrectlyRounded : Prop :=
  ∀ (k : Nat) (x y : F32), Finite32 x → Finite32 y →
    RoundsTo32 (add32 k x y) (units32 x + units32 y) 1 ∧
    RoundsTo32 (sub32 k x y) (units32 x - units32 y) 1 ∧
    RoundsTo32 (mul32f k x y) (units32 x * units32 y) (2 ^ 149) ∧
    (units32 y ≠ 0 → RoundsTo32 (div32 k x y) (units32 x * 2 ^ 149 * (units32 y).sign) (units32 y).natAbs)

/-- R96 in binary64, as in binary32 (notes/assumptions/11.md). -/
def Obligations.Binary64ArithmeticIsCorrectlyRounded : Prop :=
  ∀ (k : Nat) (x y : F64), Finite64 x → Finite64 y →
    RoundsTo64 (add64 k x y) (units64 x + units64 y) 1 ∧
    RoundsTo64 (sub64 k x y) (units64 x - units64 y) 1 ∧
    RoundsTo64 (mul64f k x y) (units64 x * units64 y) (2 ^ 1074) ∧
    (units64 y ≠ 0 → RoundsTo64 (div64 k x y) (units64 x * 2 ^ 1074 * (units64 y).sign) (units64 y).natAbs)

/-- R96, R112: the square root of a positive finite number is finite, not negative, and at least as near to the exact root as any other value `c`: the
midpoint of the two never lies strictly between the root and the result. -/
def Obligations.SquareRootIsCorrectlyRounded : Prop :=
  (∀ (k : Nat) (x c : F32), Finite32 x → 0 < units32 x → Finite32 c → 0 ≤ units32 c →
    Finite32 (sqrt32 k x) ∧ 0 < units32 (sqrt32 k x) ∧
    (units32 (sqrt32 k x) < units32 c → 4 * units32 x * 2 ^ 149 ≤ (units32 (sqrt32 k x) + units32 c) ^ 2) ∧
    (units32 c < units32 (sqrt32 k x) → (units32 (sqrt32 k x) + units32 c) ^ 2 ≤ 4 * units32 x * 2 ^ 149)) ∧
  (∀ (k : Nat) (x c : F64), Finite64 x → 0 < units64 x → Finite64 c → 0 ≤ units64 c →
    Finite64 (sqrt64 k x) ∧ 0 < units64 (sqrt64 k x) ∧
    (units64 (sqrt64 k x) < units64 c → 4 * units64 x * 2 ^ 1074 ≤ (units64 (sqrt64 k x) + units64 c) ^ 2) ∧
    (units64 c < units64 (sqrt64 k x) → (units64 (sqrt64 k x) + units64 c) ^ 2 ≤ 4 * units64 x * 2 ^ 1074))

/-- R96: a NaN operand and every invalid operation of the rule's list give some quiet NaN, whatever the draw is, in both formats, for every sign and
operand order. -/
def Obligations.InvalidOperationsGiveAQuietNaN : Prop :=
  (∀ (k : Nat) (x y : F32), AnyNaN32 x ∨ AnyNaN32 y →
    QuietNaN32 (add32 k x y) ∧ QuietNaN32 (sub32 k x y) ∧ QuietNaN32 (mul32f k x y) ∧ QuietNaN32 (div32 k x y)) ∧
  (∀ (k : Nat) (x : F32), AnyNaN32 x ∨ (x.getLsbD 31 = true ∧ x ≠ 0x80000000#32) → QuietNaN32 (sqrt32 k x)) ∧
  (∀ (k : Nat) (a b : Bool),
    QuietNaN32 (sub32 k (inf32 a) (inf32 a)) ∧ QuietNaN32 (add32 k (inf32 a) (inf32 !a)) ∧
    QuietNaN32 (mul32f k (zero32 a) (inf32 b)) ∧ QuietNaN32 (mul32f k (inf32 a) (zero32 b)) ∧
    QuietNaN32 (div32 k (zero32 a) (zero32 b)) ∧ QuietNaN32 (div32 k (inf32 a) (inf32 b))) ∧
  (∀ (k : Nat) (x y : F64), AnyNaN64 x ∨ AnyNaN64 y →
    QuietNaN64 (add64 k x y) ∧ QuietNaN64 (sub64 k x y) ∧ QuietNaN64 (mul64f k x y) ∧ QuietNaN64 (div64 k x y)) ∧
  (∀ (k : Nat) (x : F64), AnyNaN64 x ∨ (x.getLsbD 63 = true ∧ x ≠ 0x8000000000000000#64) → QuietNaN64 (sqrt64 k x)) ∧
  (∀ (k : Nat) (a b : Bool),
    QuietNaN64 (sub64 k (inf64 a) (inf64 a)) ∧ QuietNaN64 (add64 k (inf64 a) (inf64 !a)) ∧
    QuietNaN64 (mul64f k (zero64 a) (inf64 b)) ∧ QuietNaN64 (mul64f k (inf64 a) (zero64 b)) ∧
    QuietNaN64 (div64 k (zero64 a) (zero64 b)) ∧ QuietNaN64 (div64 k (inf64 a) (inf64 b)))

/-- R96, signed zeros, in both formats: `add(x, -x) = +0` for finite non-zero `x`; a sum of two zeros is `+0` unless both are `-0`, in either order, and
`sub(x, y) = add(x, neg(y))`; a product's or quotient's sign is the XOR of the operands' signs also when it is zero; `sqrt(+0) = +0`,
`sqrt(-0) = -0`. -/
def Obligations.SignedZerosFollowTheRule : Prop :=
  (∀ (k : Nat) (x : F32), Finite32 x → units32 x ≠ 0 → add32 k x (x ^^^ 0x80000000#32) = zero32 false) ∧
  (∀ (k : Nat) (x y : F32), Finite32 x → Finite32 y →
    (mul32f k x y).getLsbD 31 = (x.getLsbD 31 ^^ y.getLsbD 31) ∧
    (units32 y ≠ 0 → (div32 k x y).getLsbD 31 = (x.getLsbD 31 ^^ y.getLsbD 31))) ∧
  (∀ (k : Nat) (a b : Bool), add32 k (zero32 a) (zero32 b) = zero32 (a && b) ∧
    sub32 k (zero32 a) (zero32 b) = zero32 (a && !b) ∧ sqrt32 k (zero32 a) = zero32 a) ∧
  (∀ (k : Nat) (x : F64), Finite64 x → units64 x ≠ 0 → add64 k x (x ^^^ 0x8000000000000000#64) = zero64 false) ∧
  (∀ (k : Nat) (x y : F64), Finite64 x → Finite64 y →
    (mul64f k x y).getLsbD 63 = (x.getLsbD 63 ^^ y.getLsbD 63) ∧
    (units64 y ≠ 0 → (div64 k x y).getLsbD 63 = (x.getLsbD 63 ^^ y.getLsbD 63))) ∧
  (∀ (k : Nat) (a b : Bool), add64 k (zero64 a) (zero64 b) = zero64 (a && b) ∧
    sub64 k (zero64 a) (zero64 b) = zero64 (a && !b) ∧ sqrt64 k (zero64 a) = zero64 a)

/-- R97: the conversions agree with the rule's pseudocode: with `k` the position of the highest set bit, exact for `k <= p-1`, otherwise the `p`-bit
significand rounded to nearest, ties to even. -/
def Obligations.ConversionFollowsThePseudocode : Prop :=
  (cvtU32F32 0#32 = 0#32 ∧ ∀ u : Word, u ≠ 0 →
    Finite32 (cvtU32F32 u) ∧ units32 (cvtU32F32 u) =
      (if Nat.log2 u.toNat ≤ 23 then (u.toNat : Int)
       else
        let sh := Nat.log2 u.toNat - 23
        let q := u.toNat / 2 ^ sh
        let rem := u.toNat % 2 ^ sh
        let half := 2 ^ (sh - 1)
        (((if half < rem ∨ (rem = half ∧ q % 2 = 1) then q + 1 else q) * 2 ^ sh : Nat) : Int)) * 2 ^ 149) ∧
  (cvtU64F64 0#64 = 0#64 ∧ ∀ u : BitVec 64, u ≠ 0 →
    Finite64 (cvtU64F64 u) ∧ units64 (cvtU64F64 u) =
      (if Nat.log2 u.toNat ≤ 52 then (u.toNat : Int)
       else
        let sh := Nat.log2 u.toNat - 52
        let q := u.toNat / 2 ^ sh
        let rem := u.toNat % 2 ^ sh
        let half := 2 ^ (sh - 1)
        (((if half < rem ∨ (rem = half ∧ q % 2 = 1) then q + 1 else q) * 2 ^ sh : Nat) : Int)) * 2 ^ 1074)

/-- R98: the divisors are `2^32` and `2^64`, and the division only lowers the exponent field by 32 or 64. -/
def Obligations.ConverterDividesExactly : Prop :=
  divisor32 = 0x4F800000#32 ∧ divisor64 = 0x43F0000000000000#64 ∧
  (∀ k : Nat, u2f32 k 0 = 0 ∧ u2f64 k 0 = 0) ∧
  (∀ (k : Nat) (u : Word), u ≠ 0 → u2f32 k u = cvtU32F32 u - 0x10000000#32) ∧
  (∀ (k : Nat) (u : BitVec 64), u ≠ 0 → u2f64 k u = cvtU64F64 u - 0x0400000000000000#64)

/-- R99: the converter's range is the closed interval `[0, 1]`, with `+0`, the largest value below 1 and 1.0 at exactly the stated inputs, and it is
monotone. Patterns of numbers that are not negative are ordered as the numbers are. -/
def Obligations.ConverterRangeIsTheClosedUnitInterval : Prop :=
  (∀ (k : Nat) (u : Word),
    (u2f32 k u).toNat ≤ 0x3F800000 ∧ (u2f32 k u = 0 ↔ u = 0) ∧ (u ≠ 0 → 0x2F800000 ≤ (u2f32 k u).toNat) ∧
    u2f32 k 1 = 0x2F800000#32 ∧
    (u2f32 k u = 0x3F7FFFFF#32 ↔ 0xFFFFFE80 < u.toNat ∧ u.toNat ≤ 0xFFFFFF7F) ∧
    (u2f32 k u = 0x3F800000#32 ↔ 0xFFFFFF80 ≤ u.toNat)) ∧
  (∀ (k : Nat) (u v : Word), u.toNat ≤ v.toNat → (u2f32 k u).toNat ≤ (u2f32 k v).toNat) ∧
  (∀ (k : Nat) (u : BitVec 64),
    (u2f64 k u).toNat ≤ 0x3FF0000000000000 ∧ (u2f64 k u = 0 ↔ u = 0) ∧ (u ≠ 0 → 0x3BF0000000000000 ≤ (u2f64 k u).toNat) ∧
    u2f64 k 1 = 0x3BF0000000000000#64 ∧
    (u2f64 k u = 0x3FEFFFFFFFFFFFFF#64 ↔ 2 ^ 64 - 3072 < u.toNat ∧ u.toNat ≤ 2 ^ 64 - 1025) ∧
    (u2f64 k u = 0x3FF0000000000000#64 ↔ 2 ^ 64 - 1024 ≤ u.toNat)) ∧
  (∀ (k : Nat) (u v : BitVec 64), u.toNat ≤ v.toNat → (u2f64 k u).toNat ≤ (u2f64 k v).toNat)

/-- R100: scaling is `sub`, `mul`, `add`, each rounded, and the default range returns the converter's value unchanged. -/
def Obligations.DefaultRangeReturnsTheConvertedDraw : Prop :=
  (∀ (k : Nat) (f lo hi : F32), scale32 k f lo hi = add32 (k + 2) (mul32f (k + 1) f (sub32 k hi lo)) lo) ∧
  (∀ (k : Nat) (f lo hi : F64), scale64 k f lo hi = add64 (k + 2) (mul64f (k + 1) f (sub64 k hi lo)) lo) ∧
  (∀ (k j : Nat) (u : Word), scale32 k (u2f32 j u) 0x00000000#32 0x3F800000#32 = u2f32 j u) ∧
  (∀ (k j : Nat) (u : BitVec 64), scale64 k (u2f64 j u) 0#64 0x3FF0000000000000#64 = u2f64 j u)

/-- R103: equal finite bounds give the bound for every draw, except that `-0` gives `+0`. -/
def Obligations.EqualBoundsGiveTheBound : Prop :=
  (∀ (k j : Nat) (u : Word) (v : F32), Finite32 v →
    scale32 k (u2f32 j u) v v = if v = 0x80000000#32 then 0#32 else v) ∧
  (∀ (k j : Nat) (u : BitVec 64) (v : F64), Finite64 v →
    scale64 k (u2f64 j u) v v = if v = 0x8000000000000000#64 then 0#64 else v)

/-- R104, in both formats. (a) A zero draw gives the lower bound, where the difference of the bounds is finite; for a lower bound `-0` it gives `-0` where
the upper bound is negative and `+0` otherwise. (b) A draw of 1.0 gives the rounded sum of the difference and the lower bound. (e), (d) A NaN bound or an infinite lower bound
gives a NaN for every draw. (c), (d) Where the difference is infinite (`[0, +inf]`, the overflowing `[-3e38, 3e38]`) the result is that infinity for a
non-zero draw and a NaN for a zero draw. The printed examples. And in every case the command's status is `OK` and its draws are consumed. -/
def Obligations.OtherBoundsAreNoErrors : Prop :=
  (∀ (k : Nat) (lo hi : F32), Finite32 lo → Finite32 hi → Finite32 (sub32 k hi lo) → lo ≠ zero32 true →
    scale32 k (zero32 false) lo hi = lo) ∧
  (∀ (k : Nat) (hi : F32), Finite32 hi → scale32 k (zero32 false) (zero32 true) hi = zero32 (decide (units32 hi < 0))) ∧
  (∀ (k : Nat) (lo hi : F32), ¬ AnyNaN32 (sub32 k hi lo) → scale32 k 0x3F800000#32 lo hi = add32 (k + 2) (sub32 k hi lo) lo) ∧
  (∀ (k j : Nat) (u : Word) (lo hi : F32) (a : Bool), AnyNaN32 lo ∨ AnyNaN32 hi ∨ lo = inf32 a →
    QuietNaN32 (scale32 k (u2f32 j u) lo hi)) ∧
  (∀ (k j : Nat) (u : Word) (lo hi : F32) (a : Bool), Finite32 lo → sub32 k hi lo = inf32 a →
    (u ≠ 0 → scale32 k (u2f32 j u) lo hi = inf32 a) ∧ (u = 0 → QuietNaN32 (scale32 k (u2f32 j u) lo hi))) ∧
  (∀ (k : Nat) (lo hi : F64), Finite64 lo → Finite64 hi → Finite64 (sub64 k hi lo) → lo ≠ zero64 true →
    scale64 k (zero64 false) lo hi = lo) ∧
  (∀ (k : Nat) (hi : F64), Finite64 hi → scale64 k (zero64 false) (zero64 true) hi = zero64 (decide (units64 hi < 0))) ∧
  (∀ (k : Nat) (lo hi : F64), ¬ AnyNaN64 (sub64 k hi lo) → scale64 k 0x3FF0000000000000#64 lo hi = add64 (k + 2) (sub64 k hi lo) lo) ∧
  (∀ (k j : Nat) (u : BitVec 64) (lo hi : F64) (a : Bool), AnyNaN64 lo ∨ AnyNaN64 hi ∨ lo = inf64 a →
    QuietNaN64 (scale64 k (u2f64 j u) lo hi)) ∧
  (∀ (k j : Nat) (u : BitVec 64) (lo hi : F64) (a : Bool), Finite64 lo → sub64 k hi lo = inf64 a →
    (u ≠ 0 → scale64 k (u2f64 j u) lo hi = inf64 a) ∧ (u = 0 → QuietNaN64 (scale64 k (u2f64 j u) lo hi))) ∧
  (∀ k : Nat, sub32 k 0x7F61B1E6#32 0xFF61B1E6#32 = inf32 false ∧ sub32 k (inf32 false) (zero32 false) = inf32 false ∧
    sub64 k (inf64 false) (zero64 false) = inf64 false ∧ scale32 k 0x3F800000#32 0xC0A00000#32 0xBFCCCCCD#32 = 0xBFCCCCCC#32) ∧
  (∀ (lower upper : F32) (s : State), Operational s → ∃ (t : State) (data : BitVec 64) (u : Word) (s1 : State),
    nextWord s = .value u s1 ∧ exec (.uniformF32 lower upper) s = .next t ∧
    t.responses = s.responses ++ [⟨.ok, data, []⟩] ∧ t.x = s1.x ∧ t.index = s1.index) ∧
  (∀ (lower upper : F64) (s : State), Operational s → ∃ (t : State) (data : BitVec 64) (hi lo : Word) (s1 s2 : State),
    nextWord s = .value hi s1 ∧ nextWord s1 = .value lo s2 ∧ exec (.uniformF64 lower upper) s = .next t ∧
    t.responses = s.responses ++ [⟨.ok, data, []⟩] ∧ t.x = s2.x ∧ t.index = s2.index)

/-- R101: op 4 is `UNIFORM_F32`; by the flag and the cursor: one draw whatever the operands, and the result of the converter and three
rounded operations. Which number each operation's NaN draw has, and the counter `nanDraws`, are the model's choice (notes/assumptions/3.md).
-/
def Obligations.UniformF32RespondsTheScaledDraw : Prop :=
  (∀ b a : BitVec 64, decode (packWord 4 b a) = .uniformF32 (a.extractLsb' 0 32) (b.extractLsb' 0 32)) ∧
  ∀ (lower upper : F32) (s : State),
    (s.fatal = true → exec (.uniformF32 lower upper) s =
      .next { s with responses := s.responses ++ [⟨.fatal, 0, []⟩] }) ∧
    (s.fatal = false → 624 < s.index.toNat → exec (.uniformF32 lower upper) s =
      .next { s with fatal := true, responses := s.responses ++ [⟨.fatal, 0, []⟩] }) ∧
    (Operational s → ∃ (u : Word) (s1 : State), nextWord s = .value u s1 ∧
      let k := s.nanDraws
      let f := div32 k (cvtU32F32 u) 0x4F800000#32
      let d := sub32 (k + 1) upper lower
      let p := mul32f (k + 2) f d
      let r := add32 (k + 3) p lower
      exec (.uniformF32 lower upper) s = .next { s with
        x := s1.x, index := s1.index, nanDraws := k + 4,
        responses := s.responses ++ [⟨.ok, r.setWidth 64, []⟩] })

/-- R102: op 5 is `UNIFORM_F64`; by the flag and the cursor: two draws, high word first. The numbering of the NaN draws is the model's choice
(notes/assumptions/3.md). -/
def Obligations.UniformF64RespondsTheScaledDraw : Prop :=
  (∀ b a : BitVec 64, decode (packWord 5 b a) = .uniformF64 a b) ∧
  ∀ (lower upper : F64) (s : State),
    (s.fatal = true → exec (.uniformF64 lower upper) s =
      .next { s with responses := s.responses ++ [⟨.fatal, 0, []⟩] }) ∧
    (s.fatal = false → 624 < s.index.toNat → exec (.uniformF64 lower upper) s =
      .next { s with fatal := true, responses := s.responses ++ [⟨.fatal, 0, []⟩] }) ∧
    (Operational s → ∃ (hi lo : Word) (s1 s2 : State), nextWord s = .value hi s1 ∧ nextWord s1 = .value lo s2 ∧
      let k := s.nanDraws
      let u := BitVec.ofNat 64 (hi.toNat * 2 ^ 32 + lo.toNat)
      let f := div64 k (cvtU64F64 u) 0x43F0000000000000#64
      let d := sub64 (k + 1) upper lower
      let p := mul64f (k + 2) f d
      let r := add64 (k + 3) p lower
      exec (.uniformF64 lower upper) s = .next { s with
        x := s2.x, index := s2.index, nanDraws := k + 4,
        responses := s.responses ++ [⟨.ok, r, []⟩] })

/-! ## The Gaussian commands (43_gaussian.md) -/

/-- R111: `TWO_PI` is the exact doubling of `PI`, and a multiplication by `NEG2` of a finite number that stays finite is exact. -/
def Obligations.SamplerConstantsAreExact : Prop :=
  (∀ k : Nat, mul32f k 0x40000000#32 0x40490FDB#32 = Const.twoPiF32 ∧
    mul64f k 0x4000000000000000#64 0x400921FB54442D18#64 = Const.twoPiF64) ∧
  (∀ (k : Nat) (t : F32), Finite32 t → Finite32 (mul32f k Const.neg2F32 t) →
    units32 (mul32f k Const.neg2F32 t) = -2 * units32 t) ∧
  (∀ (k : Nat) (t : F64), Finite64 t → Finite64 (mul64f k Const.neg2F64 t) →
    units64 (mul64f k Const.neg2F64 t) = -2 * units64 t)

/-- R113, R114: op 6 is `GAUSSIAN_F32`; by the flag and the cursor: after any number `n` of rejected zero words, the first non-zero word
gives `A`, the next word gives `B`, and the result is computed in the order of the rule; every word drawn is consumed. The numbering of the
NaN draws is the model's choice (notes/assumptions/3.md). -/
def Obligations.GaussianF32RespondsTheBoxMullerSample : Prop :=
  (∀ b a : BitVec 64, decode (packWord 6 b a) = .gaussianF32 (a.extractLsb' 0 32) (b.extractLsb' 0 32)) ∧
  ∀ (mean sigma : F32) (s : State),
    (s.fatal = true → exec (.gaussianF32 mean sigma) s =
      .next { s with responses := s.responses ++ [⟨.fatal, 0, []⟩] }) ∧
    (s.fatal = false → 624 < s.index.toNat → exec (.gaussianF32 mean sigma) s =
      .next { s with fatal := true, responses := s.responses ++ [⟨.fatal, 0, []⟩] }) ∧
    (∀ (n : Nat) (u w : Word) (s0 s1 s2 : State), Operational s →
      drawWords n s = .value (List.replicate n 0#32) s0 → nextWord s0 = .value u s1 → u ≠ 0 → nextWord s1 = .value w s2 →
      let k := s.nanDraws
      let A := u2f32 k u
      let B := u2f32 k w
      let t1 := Config.ln32 A
      let t2 := mul32f (k + 1) 0xC0000000#32 t1
      let t3 := sqrt32 (k + 2) t2
      let t4 := mul32f (k + 3) 0x40C90FDB#32 B
      let t5 := Config.cos32 t4
      let X := mul32f (k + 4) t3 t5
      let r := add32 (k + 6) (mul32f (k + 5) X sigma) mean
      exec (.gaussianF32 mean sigma) s = .next { s with
        x := s2.x, index := s2.index, nanDraws := k + 7,
        responses := s.responses ++ [⟨.ok, r.setWidth 64, []⟩] })

/-- R113, R115: op 7 is `GAUSSIAN_F64`; by 64-bit draws, high word first; `n` rejected pairs of zero words. The numbering of the NaN draws is the
model's choice (notes/assumptions/3.md). -/
def Obligations.GaussianF64RespondsTheBoxMullerSample : Prop :=
  (∀ b a : BitVec 64, decode (packWord 7 b a) = .gaussianF64 a b) ∧
  ∀ (mean sigma : F64) (s : State),
    (s.fatal = true → exec (.gaussianF64 mean sigma) s =
      .next { s with responses := s.responses ++ [⟨.fatal, 0, []⟩] }) ∧
    (s.fatal = false → 624 < s.index.toNat → exec (.gaussianF64 mean sigma) s =
      .next { s with fatal := true, responses := s.responses ++ [⟨.fatal, 0, []⟩] }) ∧
    (∀ (n : Nat) (h1 l1 h2 l2 : Word) (s0 s1 s2 s3 s4 : State), Operational s →
      drawWords (2 * n) s = .value (List.replicate (2 * n) 0#32) s0 →
      nextWord s0 = .value h1 s1 → nextWord s1 = .value l1 s2 → (h1 ≠ 0 ∨ l1 ≠ 0) →
      nextWord s2 = .value h2 s3 → nextWord s3 = .value l2 s4 →
      let k := s.nanDraws
      let A := u2f64 k (BitVec.ofNat 64 (h1.toNat * 2 ^ 32 + l1.toNat))
      let B := u2f64 k (BitVec.ofNat 64 (h2.toNat * 2 ^ 32 + l2.toNat))
      let t1 := Config.ln64 A
      let t2 := mul64f (k + 1) 0xC000000000000000#64 t1
      let t3 := sqrt64 (k + 2) t2
      let t4 := mul64f (k + 3) 0x401921FB54442D18#64 B
      let t5 := Config.cos64 t4
      let X := mul64f (k + 4) t3 t5
      let r := add64 (k + 6) (mul64f (k + 5) X sigma) mean
      exec (.gaussianF64 mean sigma) s = .next { s with
        x := s4.x, index := s4.index, nanDraws := k + 7,
        responses := s.responses ++ [⟨.ok, r, []⟩] })

/-- R155, U8: from an operational state the two Gaussian commands are answered exactly when a non-zero word lies ahead; otherwise they have
no successor, and indeed every word that could ever be drawn is zero. -/
def Obligations.GaussianIsAnsweredExactlyWhenAWordLiesAhead : Prop :=
  ∀ s : State, Operational s →
    (WordAhead s → (∀ mean sigma, ∃ t, exec (.gaussianF32 mean sigma) s = .next t) ∧
      (∀ mean sigma, ∃ t, exec (.gaussianF64 mean sigma) s = .next t)) ∧
    (¬ WordAhead s → (∀ mean sigma, exec (.gaussianF32 mean sigma) s = .fault .resampleNeverEnds) ∧
      (∀ mean sigma, exec (.gaussianF64 mean sigma) s = .fault .resampleNeverEnds) ∧
      (∀ n, ∃ t, drawWords n s = .value (List.replicate n 0#32) t))

/-- R117 (c): with `sigma` a zero and a finite `X` the result is `mean`, for a finite non-zero `mean`. -/
def Obligations.ZeroSigmaGivesTheMean : Prop :=
  (∀ (k j : Nat) (X sigma mean : F32), Finite32 X → (sigma = 0#32 ∨ sigma = 0x80000000#32) → Finite32 mean →
    units32 mean ≠ 0 → add32 k (mul32f j X sigma) mean = mean) ∧
  (∀ (k j : Nat) (X sigma mean : F64), Finite64 X → (sigma = 0#64 ∨ sigma = 0x8000000000000000#64) → Finite64 mean →
    units64 mean ≠ 0 → add64 k (mul64f j X sigma) mean = mean)

/-! ## Infinities (42_uniform.md R96) -/

/-- R96, in both formats: infinities behave as limits where the operation is not invalid. `inf + finite = inf` in either order, and so for a difference;
`inf * non-zero = inf` with the product's sign, in either order; `finite / inf` is a zero and `inf / finite` an infinity, with the quotient's sign;
`finite non-zero / 0` is an infinity, with the quotient's sign; infinities of one sign add to it; `sqrt(+inf) = +inf`. -/
def Obligations.InfinitiesBehaveAsLimits : Prop :=
  (∀ (k : Nat) (a b : Bool) (y : F32), Finite32 y →
    add32 k (inf32 a) y = inf32 a ∧ add32 k y (inf32 a) = inf32 a ∧
    sub32 k (inf32 a) y = inf32 a ∧ sub32 k y (inf32 a) = inf32 !a ∧
    (units32 y ≠ 0 → mul32f k (inf32 a) y = inf32 (a ^^ y.getLsbD 31) ∧ mul32f k y (inf32 a) = inf32 (a ^^ y.getLsbD 31)) ∧
    div32 k y (inf32 a) = zero32 (y.getLsbD 31 ^^ a) ∧ div32 k (inf32 a) y = inf32 (a ^^ y.getLsbD 31) ∧
    (units32 y ≠ 0 → div32 k y (zero32 a) = inf32 (y.getLsbD 31 ^^ a)) ∧
    add32 k (inf32 a) (inf32 a) = inf32 a ∧ sub32 k (inf32 a) (inf32 !a) = inf32 a ∧
    mul32f k (inf32 a) (inf32 b) = inf32 (a ^^ b) ∧ sqrt32 k (inf32 false) = inf32 false) ∧
  (∀ (k : Nat) (a b : Bool) (y : F64), Finite64 y →
    add64 k (inf64 a) y = inf64 a ∧ add64 k y (inf64 a) = inf64 a ∧
    sub64 k (inf64 a) y = inf64 a ∧ sub64 k y (inf64 a) = inf64 !a ∧
    (units64 y ≠ 0 → mul64f k (inf64 a) y = inf64 (a ^^ y.getLsbD 63) ∧ mul64f k y (inf64 a) = inf64 (a ^^ y.getLsbD 63)) ∧
    div64 k y (inf64 a) = zero64 (y.getLsbD 63 ^^ a) ∧ div64 k (inf64 a) y = inf64 (a ^^ y.getLsbD 63) ∧
    (units64 y ≠ 0 → div64 k y (zero64 a) = inf64 (y.getLsbD 63 ^^ a)) ∧
    add64 k (inf64 a) (inf64 a) = inf64 a ∧ sub64 k (inf64 a) (inf64 !a) = inf64 a ∧
    mul64f k (inf64 a) (inf64 b) = inf64 (a ^^ b) ∧ sqrt64 k (inf64 false) = inf64 false)
end

