-- ==== Sys2Proof/Laws/State.lean ====
section
/-!
SUPPORT. One lemma per field per update of the state (all true by `rfl`), so that no later proof unfolds a record update.
-/

namespace Sys2Proof.Machine

@[simp] theorem setFatal_x (s : State) : (setFatal s).x = s.x := rfl
@[simp] theorem setFatal_index (s : State) : (setFatal s).index = s.index := rfl
@[simp] theorem setFatal_fatal (s : State) : (setFatal s).fatal = true := rfl
@[simp] theorem setFatal_input (s : State) : (setFatal s).input = s.input := rfl
@[simp] theorem setFatal_responses (s : State) : (setFatal s).responses = s.responses := rfl
@[simp] theorem setFatal_nanDraws (s : State) : (setFatal s).nanDraws = s.nanDraws := rfl

@[simp] theorem clearFatal_x (s : State) : (clearFatal s).x = s.x := rfl
@[simp] theorem clearFatal_index (s : State) : (clearFatal s).index = s.index := rfl
@[simp] theorem clearFatal_fatal (s : State) : (clearFatal s).fatal = false := rfl
@[simp] theorem clearFatal_input (s : State) : (clearFatal s).input = s.input := rfl
@[simp] theorem clearFatal_responses (s : State) : (clearFatal s).responses = s.responses := rfl
@[simp] theorem clearFatal_nanDraws (s : State) : (clearFatal s).nanDraws = s.nanDraws := rfl

@[simp] theorem seedState_x (k : Word) (s : State) : (seedState k s).x = seedArray k := rfl
@[simp] theorem seedState_index (k : Word) (s : State) : (seedState k s).index = 624 := rfl
@[simp] theorem seedState_fatal (k : Word) (s : State) : (seedState k s).fatal = s.fatal := rfl
@[simp] theorem seedState_input (k : Word) (s : State) : (seedState k s).input = s.input := rfl
@[simp] theorem seedState_responses (k : Word) (s : State) : (seedState k s).responses = s.responses := rfl
@[simp] theorem seedState_nanDraws (k : Word) (s : State) : (seedState k s).nanDraws = s.nanDraws := rfl

@[simp] theorem twistState_x (s : State) : (twistState s).x = twistArray s.x := rfl
@[simp] theorem twistState_index (s : State) : (twistState s).index = 0 := rfl
@[simp] theorem twistState_fatal (s : State) : (twistState s).fatal = s.fatal := rfl
@[simp] theorem twistState_input (s : State) : (twistState s).input = s.input := rfl
@[simp] theorem twistState_responses (s : State) : (twistState s).responses = s.responses := rfl
@[simp] theorem twistState_nanDraws (s : State) : (twistState s).nanDraws = s.nanDraws := rfl

@[simp] theorem respond_x (r : Response) (s : State) : (respond r s).x = s.x := rfl
@[simp] theorem respond_index (r : Response) (s : State) : (respond r s).index = s.index := rfl
@[simp] theorem respond_fatal (r : Response) (s : State) : (respond r s).fatal = s.fatal := rfl
@[simp] theorem respond_input (r : Response) (s : State) : (respond r s).input = s.input := rfl
@[simp] theorem respond_responses (r : Response) (s : State) : (respond r s).responses = s.responses ++ [r] := rfl
@[simp] theorem respond_nanDraws (r : Response) (s : State) : (respond r s).nanDraws = s.nanDraws := rfl

@[simp] theorem useNaNDraws_x (k : Nat) (s : State) : (useNaNDraws k s).x = s.x := rfl
@[simp] theorem useNaNDraws_index (k : Nat) (s : State) : (useNaNDraws k s).index = s.index := rfl
@[simp] theorem useNaNDraws_fatal (k : Nat) (s : State) : (useNaNDraws k s).fatal = s.fatal := rfl
@[simp] theorem useNaNDraws_input (k : Nat) (s : State) : (useNaNDraws k s).input = s.input := rfl
@[simp] theorem useNaNDraws_responses (k : Nat) (s : State) : (useNaNDraws k s).responses = s.responses := rfl
@[simp] theorem useNaNDraws_nanDraws (k : Nat) (s : State) : (useNaNDraws k s).nanDraws = s.nanDraws + k := rfl

@[simp] theorem presentNext_x (m : HostMove) (s : State) : (presentNext m s).x = s.x := rfl
@[simp] theorem presentNext_index (m : HostMove) (s : State) : (presentNext m s).index = s.index := rfl
@[simp] theorem presentNext_fatal (m : HostMove) (s : State) : (presentNext m s).fatal = s.fatal := rfl
@[simp] theorem presentNext_input (m : HostMove) (s : State) : (presentNext m s).input = m :: s.input := rfl
@[simp] theorem presentNext_responses (m : HostMove) (s : State) : (presentNext m s).responses = s.responses := rfl
@[simp] theorem presentNext_nanDraws (m : HostMove) (s : State) : (presentNext m s).nanDraws = s.nanDraws := rfl

end Sys2Proof.Machine
end

