-- ==== Sys2Proof/Laws/Ops.lean ====
section
/-!
SUPPORT. One lemma per shared operation that says what it can do; later proofs cite these instead of unfolding the operation.
-/

namespace Sys2Proof.Machine

/-! ## Runs -/

@[simp] theorem andThen_value {α β : Type} (v : α) (s : State) (k : α → State → Run β) :
    (Run.value v s).andThen k = k v s := rfl
@[simp] theorem andThen_raised {α β : Type} (c : Condition) (s : State) (k : α → State → Run β) :
    (Run.raised c s : Run α).andThen k = .raised c s := rfl
@[simp] theorem andThen_stuck {α β : Type} (k : α → State → Run β) : (Run.stuck : Run α).andThen k = .stuck := rfl

/-- A run of two parts has a value exactly when both parts have. -/
theorem andThen_eq_value {α β : Type} {r : Run α} {k : α → State → Run β} {w : β} {t : State} :
    r.andThen k = .value w t ↔ ∃ v s, r = .value v s ∧ k v s = .value w t := by
  cases r <;> simp

@[simp] theorem raise_invalidArgument {α : Type} (s : State) :
    (raise .invalidArgument s : Run α) = .raised .invalidArgument s := rfl
@[simp] theorem raise_resourceLimitExceeded {α : Type} (s : State) :
    (raise .resourceLimitExceeded s : Run α) = .raised .resourceLimitExceeded s := rfl
@[simp] theorem raise_fatal {α : Type} (s : State) : (raise .fatal s : Run α) = .raised .fatal (setFatal s) := rfl

/-! ## The frame of every command -/

@[simp] theorem finish_value (r : Response) (s : State) : finish (.value r s) = .next (respond r s) := rfl
@[simp] theorem finish_raised (c : Condition) (s : State) :
    finish (.raised c s) = .next (respond (errorResponse c) s) := rfl
@[simp] theorem finish_stuck : finish .stuck = .fault .resampleNeverEnds := rfl

theorem setFatal_of_fatal {s : State} (h : s.fatal = true) : setFatal s = s := by
  cases s; simp_all [setFatal]

/-- With the flag set a command answers `Fatal` and nothing else changes. -/
theorem command_of_fatal {s : State} (h : s.fatal = true) (body : State → Run Response) :
    command s body = .next (respond (errorResponse .fatal) s) := by
  simp [command, h, setFatal_of_fatal h]

/-- With the flag clear a command is its body. -/
theorem command_of_not_fatal {s : State} (h : s.fatal = false) (body : State → Run Response) :
    command s body = finish (body s) := by
  simp [command, h]

/-- A body that ends with a value gives a next state with that one response. -/
theorem finish_eq_next {r : Run Response} {t : State} :
    finish r = .next t ↔
      (∃ v s, r = .value v s ∧ t = respond v s) ∨ (∃ c s, r = .raised c s ∧ t = respond (errorResponse c) s) := by
  cases r <;> simp [eq_comm]

/-! ## The state array -/

theorem wordAt_of_lt (x : StateArray) {i : Nat} (h : i < 624) : wordAt x i = x[i] := by
  simp [wordAt, Nat.mod_eq_of_lt h]

/-- Two arrays with the same words are the same array. -/
theorem array_ext {x y : StateArray} (h : ∀ i, i < 624 → wordAt x i = wordAt y i) : x = y := by
  apply Vector.ext
  intro i hi
  simpa [wordAt_of_lt _ hi] using h i hi

/-! ## Next word -/

/-- The cursor after a draw from `x[index]` with `index <= 623`: the 10-bit addition does not wrap (R66). -/
theorem index_succ_toNat {i : BitVec 10} (h : i.toNat < 624) : (i + 1).toNat = i.toNat + 1 := by
  rw [BitVec.toNat_add, show (1 : BitVec 10).toNat = 1 from rfl]
  omega

/-- A twist is due exactly at cursor 624. -/
theorem twistIfDue_of_full {s : State} (h : s.index = 624) : twistIfDue s = twistState s := by simp [twistIfDue, h]

theorem twistIfDue_of_lt {s : State} (h : s.index.toNat < 624) : twistIfDue s = s := by
  have hne : s.index ≠ 624 := fun h' => absurd (h' ▸ h) (by decide)
  exact if_neg hne

/-- Out of range a next-word operation raises `Fatal`; in range it draws. -/
theorem nextWord_of_gt {s : State} (h : 624 < s.index.toNat) : nextWord s = .raised .fatal (setFatal s) := if_pos h

theorem nextWord_of_le {s : State} (h : s.index.toNat ≤ 624) : nextWord s = drawWord (twistIfDue s) :=
  if_neg (Nat.not_lt.mpr h)

/-- What a next-word operation can do: it never ends in a loop, it raises `Fatal` exactly when the cursor is out of range, and
otherwise it draws, leaving `1 <= index <= 624` and every other field but the array alone. -/
theorem nextWord_cases (s : State) :
    (624 < s.index.toNat ∧ nextWord s = .raised .fatal (setFatal s)) ∨
      ∃ v t, nextWord s = .value v t ∧ s.index.toNat ≤ 624 ∧ 1 ≤ t.index.toNat ∧ t.index.toNat ≤ 624 ∧
        t.fatal = s.fatal ∧ t.input = s.input ∧ t.responses = s.responses ∧ t.nanDraws = s.nanDraws := by
  rcases Nat.lt_or_ge 624 s.index.toNat with h | h
  · exact .inl ⟨h, nextWord_of_gt h⟩
  refine .inr ⟨_, _, nextWord_of_le h, h, ?_⟩
  by_cases hf : s.index = 624
  · rw [twistIfDue_of_full hf]
    simp
  · have hlt : s.index.toNat < 624 :=
      Nat.lt_of_le_of_ne h fun h' => hf (BitVec.eq_of_toNat_eq (by simpa using h'))
    rw [twistIfDue_of_lt hlt]
    simp only [index_succ_toNat hlt, and_true]
    omega

/-- A next-word operation in range has a value. -/
theorem nextWord_value {s : State} (h : s.index.toNat ≤ 624) :
    ∃ v t, nextWord s = .value v t ∧ 1 ≤ t.index.toNat ∧ t.index.toNat ≤ 624 ∧ t.fatal = s.fatal ∧
      t.input = s.input ∧ t.responses = s.responses ∧ t.nanDraws = s.nanDraws := by
  rcases nextWord_cases s with ⟨h', -⟩ | ⟨v, t, hv, -, h1⟩
  · omega
  · exact ⟨v, t, hv, h1⟩

/-! ## The channels -/

@[simp] theorem takeMove_nil {s : State} (h : s.input = []) : takeMove s = none := by simp [takeMove, h]

@[simp] theorem takeMove_presentNext (m : HostMove) (s : State) : takeMove (presentNext m s) = some (m, s) := rfl

end Sys2Proof.Machine
end

