-- ==== Sys2Proof/Laws/PerInstr.lean ====
section
/-!
SUPPORT. Facts stated of every instruction, one lemma per constructor (LAWS.json, per_instruction).
-/

namespace Sys2Proof.Laws.EncodedOpcode

theorem fieldOp_packWord (op : BitVec 3) (b a : BitVec 64) : fieldOp (packWord op b a) = op := by
  apply BitVec.eq_of_getLsbD_eq
  intro i hi
  have hb : (packWord op b a).getLsbD (128 + i) = (op ++ b).getLsbD (64 + i) := by
    have h := BitVec.getLsbD_append (x := op ++ b) (y := a) (i := 128 + i)
    rw [if_neg (by omega), show 128 + i - 64 = 64 + i by omega] at h
    exact h
  have ho := BitVec.getLsbD_append (x := op) (y := b) (i := 64 + i)
  rw [if_neg (by omega), show 64 + i - 64 = i by omega] at ho
  simp [fieldOp, hi, hb, ho]

/-- The opcode field of an instruction's command word is the instruction's opcode (R46, R47). -/
def Statement (i : Instr) : Prop := fieldOp (encode i) = opcode i

theorem seed (seed : Word) : Statement (.seed seed) := fieldOp_packWord _ _ _
theorem nextU32 : Statement .nextU32 := fieldOp_packWord _ _ _
theorem nextU64 : Statement .nextU64 := fieldOp_packWord _ _ _
theorem nextBytes (length : Int) : Statement (.nextBytes length) := fieldOp_packWord _ _ _
theorem uniformF32 (lower upper : F32) : Statement (.uniformF32 lower upper) := fieldOp_packWord _ _ _
theorem uniformF64 (lower upper : F64) : Statement (.uniformF64 lower upper) := fieldOp_packWord _ _ _
theorem gaussianF32 (mean sigma : F32) : Statement (.gaussianF32 mean sigma) := fieldOp_packWord _ _ _
theorem gaussianF64 (mean sigma : F64) : Statement (.gaussianF64 mean sigma) := fieldOp_packWord _ _ _

end Sys2Proof.Laws.EncodedOpcode
end

