-- ==== Sys2Proof/Tests/Slice0.lean ====
section
/-!
SUPPORT. The model's own tests: the well-formedness smoke tests, decoding of words written out from spec/30_encoding.md, values from
spec/95_test_vectors.md (hand evaluation of the rules, sections 2 to 10), and for every statement with hypotheses a concrete
state and operands that meet them.
-/

namespace Sys2Proof.Tests

open Sys2Proof Sys2Proof.Machine

/-! ## Small states -/

/-- A state with the given words at the given places and zero elsewhere. -/
def stateWith (words : List (Fin 624 × Word)) (index : BitVec 10) : State where
  x := words.foldl (fun x p => x.set p.1 p.2) (Vector.replicate 624 0#32)
  index := index
  fatal := false
  input := []
  responses := []
  nanDraws := 0

/-- The constructed state of 95_test_vectors.md section 8: `x[10] = 0`, `x[11] = 1`, `x[12] = 0x800`, from a given cursor. -/
def resampleState (index : BitVec 10) : State := stateWith [(11, 1#32), (12, 0x800#32)] index

/-- The last response of an outcome with the cursor and the flag it leaves. -/
def answer (o : Host.Outcome State Fault Refusal) : Option (Response × Nat × Bool) :=
  match o with
  | .next s => s.responses.getLast?.map fun r => (r, s.index.toNat, s.fatal)
  | .fault _ => none
  | .refused _ => none

/-! ## Well-formedness: the one check, at its two bounds -/

theorem test_length_above_s32_is_ill_formed : wellFormed (.nextBytes 2147483648) = false := by decide
theorem test_length_below_s32_is_ill_formed : wellFormed (.nextBytes (-2147483649)) = false := by decide
theorem test_length_bounds_are_well_formed :
    wellFormed (.nextBytes 2147483647) = true ∧ wellFormed (.nextBytes (-2147483648)) = true := by decide

/-! ## Decoding (30_encoding.md sections 2 and 6): one word per constructor, as 33 hexadecimal digits `op`, `b`, `a` -/

theorem test_decode_seed : decode 0x0000000000000000000000000FFFFFFFF#131 = .seed 0xFFFFFFFF#32 := by decide
theorem test_decode_seed_ignores_upper_bits : decode 0x00123456789ABCDEFDEADBEEF00001571#131 = .seed 5489#32 := by decide
theorem test_decode_nextU32 : decode 0x1FFFFFFFFFFFFFFFF0000000000000000#131 = .nextU32 := by decide
theorem test_decode_nextU64 : decode 0x200000000000000000000000000000000#131 = .nextU64 := by decide
theorem test_decode_nextBytes : decode 0x300000000000000000000000000A00001#131 = .nextBytes 10485761 := by decide
theorem test_decode_nextBytes_sign : decode 0x300000000000000000000000080000000#131 = .nextBytes (-2147483648) := by decide
theorem test_decode_uniformF32 :
    decode 0x40000000040A0000000000000C0A00000#131 = .uniformF32 0xC0A00000#32 0x40A00000#32 := by decide
theorem test_decode_uniformF64 :
    decode 0x54014000000000000C014000000000000#131 = .uniformF64 0xC014000000000000#64 0x4014000000000000#64 := by decide
theorem test_decode_gaussianF32 : decode 0x6000000003F8000000000000000000000#131 = .gaussianF32 0#32 0x3F800000#32 := by decide
theorem test_decode_gaussianF64 :
    decode 0x740000000000000004024000000000000#131 = .gaussianF64 0x4024000000000000#64 0x4000000000000000#64 := by decide
theorem test_decode_all_ones :
    decode 0x7FFFFFFFFFFFFFFFFFFFFFFFFFFFFFFFF#131 = .gaussianF64 0xFFFFFFFFFFFFFFFF#64 0xFFFFFFFFFFFFFFFF#64 := by decide
theorem test_decodeNumber_rejects_wide : (decodeNumber (2 ^ 131)).toOption = none := by decide
theorem test_decodeTableWord_rejects_wide : decodeTableWord 136 (2 ^ 131) = none := by decide
theorem test_encode_seed : encode (.seed 5489#32) = 0x000000000000000000000000000001571#131 := by decide
theorem test_encode_nextBytes : encode (.nextBytes (-1)) = 0x3000000000000000000000000FFFFFFFF#131 := by decide
theorem test_encode_uniformF64 :
    encode (.uniformF64 0xC014000000000000#64 0x4014000000000000#64) = 0x54014000000000000C014000000000000#131 := by decide

/-! ## The assembler (30_encoding.md R57; decimal literals from 42_uniform.md R104 and 95_test_vectors.md section 7) -/

theorem test_assemble_decimal_exponent :
    assembleLine "UNIFORM_F32 -3e38, 3e38".toList = some (.command 0x4000000007F61B1E600000000FF61B1E6#131) := by
  decide +kernel
theorem test_assemble_rounds_decimal :
    assembleLine "UNIFORM_F32 0.1, -1.6".toList = some (.command 0x400000000BFCCCCCD000000003DCCCCCD#131) := by
  decide +kernel
theorem test_assemble_exponent_is_decimal : assembleLine "UNIFORM_F32 1e0x5, 1e5".toList = none := by decide +kernel
theorem test_assemble_refuses_wide_length : assembleLine "NEXT_BYTES 2147483648".toList = none := by decide +kernel

/-! ## The Bit Generator (95_test_vectors.md sections 2 to 5) -/

theorem test_mul32_wraps : mul32 0xFFFFFFFF#32 0xFFFFFFFF#32 = 0x00000001#32 := by decide
theorem test_seedArray_words :
    wordAt (seedArray 0xFFFFFFFF#32) 1 = 0x4FE1DA6D#32 ∧ wordAt (seedArray 0#32) 2 = 0x6C078967#32 := by decide +kernel
theorem test_seedArray_last : wordAt (seedArray 5489#32) 623 = 0x04C46D8C#32 := by decide +kernel
theorem test_mix_masks :
    mix 0x80000000#32 0#32 0#32 = 0x40000000#32 ∧ mix 0x7FFFFFFF#32 0x80000000#32 0#32 = 0#32 ∧
      mix 0#32 1#32 0xFFFFFFFF#32 = 0x66F74F20#32 := by decide
theorem test_twist_sequential_227 :
    wordAt (twistWith .sequential (seedArray 5489#32)) 227 = 0x53E4F8A7#32 := by decide +kernel
theorem test_twist_sequential_623 :
    wordAt (twistWith .sequential (seedArray 5489#32)) 623 = 0xD1B102B7#32 := by decide +kernel
theorem test_twist_snapshot_623 :
    wordAt (twistWith .snapshot (seedArray 5489#32)) 623 = 0xCF49B795#32 := by decide +kernel
theorem test_temper_stages : temper 0xA5A5A5A5#32 = 0xB5793CCF#32 ∧ temper 0xFFFFFFFF#32 = 0x6FE01BF8#32 := by decide

/-! ## The commands (95_test_vectors.md sections 5 to 8, 10, 11) -/

theorem test_seed_from_bad_cursor :
    answer (exec (.seed 1#32) (stateWith [] 700)) = some (⟨.ok, 0, []⟩, 624, false) := by decide +kernel
theorem test_nextU32_first_word :
    answer (exec .nextU32 State.reset) = some (⟨.ok, 0x00000000D091BB5C#64, []⟩, 1, false) := by decide +kernel
theorem test_nextU32_bad_cursor :
    answer (exec .nextU32 (stateWith [] 700)) = some (⟨.fatal, 0, []⟩, 700, true) := by decide +kernel
theorem test_nextU64_high_word_first :
    answer (exec .nextU64 State.reset) = some (⟨.ok, 0xD091BB5C22AE9EF6#64, []⟩, 2, false) := by decide +kernel
theorem test_nextBytes_6 :
    answer (exec (.nextBytes 6) State.reset) =
      some (⟨.ok, 6, [0xD0#8, 0x91#8, 0xBB#8, 0x5C#8, 0x22#8, 0xAE#8]⟩, 2, false) := by decide +kernel
theorem test_nextBytes_length_before_cursor :
    answer (exec (.nextBytes 0) (stateWith [] 700)) = some (⟨.invalidArgument, 0, []⟩, 700, false) := by decide +kernel
theorem test_uniformF32_inverted :
    answer (exec (.uniformF32 0x40A00000#32 0xC0A00000#32) State.reset) =
      some (⟨.ok, 0x00000000C0496C54#64, []⟩, 1, false) := by decide +kernel
theorem test_uniformF64_scaled :
    answer (exec (.uniformF64 0x3FB999999999999A#64 0x3FE6666666666666#64) State.reset) =
      some (⟨.ok, 0x3FE2D7BADA1C337F#64, []⟩, 2, false) := by decide +kernel
theorem test_gaussianF32_resamples :
    (answer (exec (.gaussianF32 0#32 0x3F800000#32) (resampleState 10))).map (fun r => (r.1.status, r.2)) =
      some (.ok, 13, false) := by decide +kernel
theorem test_gaussianF64_four_draws :
    (answer (exec (.gaussianF64 0#64 0x3FF0000000000000#64) State.reset)).map (fun r => (r.1.status, r.2)) =
      some (.ok, 4, false) := by decide +kernel

/-! ## Floating point (95_test_vectors.md sections 7 and 8) -/

theorem test_u2f32_tie : u2f32 0 0xFFFFFE80#32 = 0x3F7FFFFE#32 ∧ u2f32 0 0xFFFFFF80#32 = 0x3F800000#32 := by decide +kernel
theorem test_u2f64_tie :
    u2f64 0 0xFFFFFFFFFFFFF400#64 = 0x3FEFFFFFFFFFFFFE#64 ∧ u2f64 0 0xFFFFFFFFFFFFFC00#64 = 0x3FF0000000000000#64 := by
  decide +kernel
theorem test_scale32_above_upper : scale32 0 0x3F800000#32 0xC0A00000#32 0xBFCCCCCD#32 = 0xBFCCCCCC#32 := by decide +kernel
theorem test_scale32_subnormal : scale32 0 0x3F5091BB#32 1#32 3#32 = 3#32 := by decide +kernel
theorem test_scale32_negative_zero : scale32 0 0x3F5091BB#32 0x80000000#32 0x80000000#32 = 0#32 := by decide +kernel
theorem test_sqrt64 : sqrt64 0 0x3FDA3A5E38861F81#64 = 0x3FE47C3D665CC119#64 := by decide +kernel
theorem test_box_muller_argument : mul32f 0 Const.twoPiF32 0x3E0ABA7C#32 = 0x3F59EA06#32 := by decide +kernel

/-! ## From a check to an existence -/

def isNext (o : Host.Outcome State Fault Refusal) : Bool :=
  match o with
  | .next _ => true
  | .fault _ => false
  | .refused _ => false

theorem exists_next {o : Host.Outcome State Fault Refusal} (h : isNext o = true) : ∃ t, o = .next t := by
  cases o with
  | next t => exact ⟨t, rfl⟩
  | fault _ => simp [isNext] at h
  | refused _ => simp [isNext] at h

def isWord (r : Run Word) (p : Word → Bool) : Bool :=
  match r with
  | .value v _ => p v
  | .raised _ _ => false
  | .stuck => false

theorem exists_word {r : Run Word} {p : Word → Bool} (h : isWord r p = true) : ∃ v s, r = .value v s ∧ p v = true := by
  cases r with
  | value v s => exact ⟨v, s, rfl, h⟩
  | raised _ _ => simp [isWord] at h
  | stuck => simp [isWord] at h

/-- One next-word operation from a state with cursor below 624. -/
theorem nextWord_at {s : State} (h : s.index.toNat < 624) :
    nextWord s = .value (temper (wordAt s.x s.index.toNat)) { s with index := s.index + 1 } := by
  rw [nextWord_of_le (Nat.le_of_lt h), twistIfDue_of_lt h, drawWord]

/-! ## Witnesses: states and operands that meet a statement's hypotheses -/

/-- DecodeOfEncodeIsTheCommand, at both bounds of the one check. -/
theorem test_witness_decode_of_encode : WellFormed (.nextBytes (-2147483648)) ∧ WellFormed (.nextBytes 2147483647) := by decide

/-- IgnoredOperandBitsAreExactlyTheListedOnes: words that agree in the used bits only, and words that differ in one. -/
theorem test_witness_ignored_bits :
    decode (packWord 0 1 (0xFFFFFFFF00000005#64)) = decode (packWord 0 2 5#64) ∧
      decode (packWord 5 1 2) ≠ decode (packWord 5 3 2) ∧ decode (packWord 6 1 0x80000000#64) ≠ decode (packWord 6 1 0) := by decide

/-- StepRunsTheDecodedCommand. -/
theorem test_witness_step :
    (presentNext (.command 0x100000000000000000000000000000000#131) (stateWith [] 0)).input =
      [.command 0x100000000000000000000000000000000#131] := rfl

/-- PresentedWordRunsNext, at the largest command word. -/
theorem test_witness_presented : 0x7FFFFFFFFFFFFFFFFFFFFFFFFFFFFFFFF < 2 ^ 131 := by decide

/-- IdlingChangesNothing. -/
theorem test_witness_idle : State.reset.input = [] := rfl

/-- ResetSeedsWith5489, both clauses. -/
theorem test_witness_reset :
    (presentNext .reset (setFatal (stateWith [] 700))).input = [.reset] ∧
      (presentNext .reset (stateWith [] 3)).fatal = false ∧ (presentNext .reset (stateWith [] 3)).input = [.reset] := by decide

/-- FatalIsStickyUntilReset and the first clause of each command's statement. -/
theorem test_witness_fatal_state : (setFatal (stateWith [] 5)).fatal = true := rfl

/-- BadCursorIsFatalAtTheFirstDraw and the second clause of each drawing command's statement, at both ends of the range. -/
theorem test_witness_bad_cursor :
    ((stateWith [] 625).fatal = false ∧ 624 < (stateWith [] 625).index.toNat) ∧
      ((stateWith [] 1023).fatal = false ∧ 624 < (stateWith [] 1023).index.toNat) ∧ DrawsAWord .nextU32 ∧
        DrawsAWord (.nextBytes 1) ∧ DrawsAWord (.nextBytes 10485760) := by
  refine ⟨by decide, by decide, trivial, ?_, ?_⟩ <;> constructor <;> decide

/-- BadCursorIsFatalAtTheFirstDraw, the clauses about `SEED` and about a refused `NEXT_BYTES`. -/
theorem test_witness_bad_cursor_seed : (stateWith [] 625).fatal = false ∧ 624 < (stateWith [] 625).index.toNat ∧
    ¬ DrawsAWord (.nextBytes 0) ∧ ¬ DrawsAWord (.nextBytes 10485761) :=
  ⟨rfl, by decide, fun h => absurd h.1 (by decide), fun h => absurd h.2 (by decide)⟩

/-- The operational states of every drawing command: cursor 0, 623 and 624. -/
theorem test_witness_operational :
    Operational (stateWith [] 0) ∧ Operational (stateWith [] 623) ∧ Operational (stateWith [] 624) := by decide

/-- NextWordFollowsTheCursor and NextU32RespondsTheDrawnWord, one state for each clause, at the bounds. -/
theorem test_witness_cursor_clauses :
    624 < (stateWith [] 625).index.toNat ∧ (stateWith [] 624).index = 624 ∧ (stateWith [] 623).index.toNat < 624 ∧
      (stateWith [] 0).index.toNat < 624 := by decide

/-- SeedFillsTheArrayByTheRecurrence. -/
theorem test_witness_seed : (stateWith [] 1023).fatal = false ∧ (setFatal (stateWith [] 0)).fatal = true := by decide

/-- SeedingForgetsThePreviousArray, with the second seeding. -/
theorem test_witness_seed_twice :
    ∃ t t' u, exec (.seed 3#32) (stateWith [] 5) = .next t ∧ exec (.seed 3#32) (stateWith [(0, 9#32)] 700) = .next t' ∧
      exec (.seed 3#32) t = .next u := ⟨_, _, _, rfl, rfl, rfl⟩

/-- The trace of the in-place loop from an array. -/
def loopTrace (o : StateArray) : Nat → Nat → Word
  | 0, j => wordAt o j
  | i + 1, j =>
    if j = i then mix (loopTrace o i i) (loopTrace o i ((i + 1) % 624)) (loopTrace o i ((i + 397) % 624))
    else loopTrace o i j

/-- SequentialTwistIsTheInPlaceLoop: such a trace exists for every array. -/
theorem test_witness_loop_trace (o : StateArray) :
    (∀ j, j < 624 → loopTrace o 0 j = wordAt o j) ∧
      ∀ i, i < 624 →
        loopTrace o (i + 1) i =
          mix (loopTrace o i i) (loopTrace o i ((i + 1) % 624)) (loopTrace o i ((i + 397) % 624)) ∧
        ∀ j, j < 624 → j ≠ i → loopTrace o (i + 1) j = loopTrace o i j :=
  ⟨fun _ _ => rfl, fun _ _ => ⟨by simp [loopTrace], fun _ _ h => by simp [loopTrace, h]⟩⟩

/-- DrawNumberingAfterSeeding. -/
theorem test_witness_draw_numbering : (stateWith [] 624).index = 624 ∧ 1 ≤ 625 := by decide

/-- SequentialTwistKeepsTheArrayNonDegenerate, by either way of not being degenerate. -/
theorem test_witness_not_degenerate :
    NotDegenerate (stateWith [(0, 0x80000000#32)] 0).x ∧ NotDegenerate (stateWith [(623, 1#32)] 0).x :=
  ⟨.inl (by decide +kernel), .inr ⟨623, by decide +kernel⟩⟩

/-- NonPositiveLengthIsInvalidArgument and OversizedLengthIsResourceLimitExceeded, at the bounds of the served lengths. -/
theorem test_witness_refused_lengths :
    (stateWith [] 700).fatal = false ∧ (0 : Int) ≤ 0 ∧ (10485760 : Int) < 10485761 := by decide

/-- NextBytesRespondsTheBigEndianStream, at both ends of the served lengths. -/
theorem test_witness_served_lengths :
    (1 ≤ 1 ∧ 1 ≤ 10485760) ∧ (1 ≤ 10485760 ∧ 10485760 ≤ 10485760) ∧ Operational (stateWith [] 623) := by decide

/-- FatalIsStickyUntilReset, the step out of the fatal state. -/
theorem test_witness_reset_clears :
    ∃ t, step (presentNext .reset (setFatal (stateWith [] 700))) = .next t ∧ t.fatal = false := ⟨_, rfl, rfl⟩

/-- NonPositiveLengthIsInvalidArgument, ConditionsLeaveTheGeneratorAlone, ResponseFieldsHaveTheStatedForm, DrawCommandsMoveTheGeneratorByWholeDraws and
ResponsesDependOnTheGeneratorAlone: a served and a refused command. -/
theorem test_witness_answered :
    (∃ t r, exec .nextU32 (stateWith [] 0) = .next t ∧ t.responses = (stateWith [] 0).responses ++ [r]) ∧
      ∃ t r, exec (.nextBytes 0) (stateWith [] 0) = .next t ∧ t.responses = (stateWith [] 0).responses ++ [r] ∧
        r.status = .invalidArgument := by
  refine ⟨⟨respond (response32 (temper (wordAt (stateWith [] 0).x 0))) { stateWith [] 0 with index := 0 + 1 }, _, ?_, rfl⟩,
    ⟨_, _, rfl, rfl, rfl⟩⟩
  simp only [exec, execNextU32]
  rw [command_of_not_fatal rfl, nextWord_at (by decide)]
  rfl

/-- ResponsesDependOnTheGeneratorAlone: two states that differ in the channels only. -/
theorem test_witness_same_generator :
    let s := stateWith [] 0
    let s' := presentNext .reset (respond plainResponse s)
    s.x = s'.x ∧ s.index = s'.index ∧ s.fatal = s'.fatal ∧ s.nanDraws = s'.nanDraws ∧ s ≠ s' :=
  ⟨rfl, rfl, rfl, rfl, fun h => absurd (congrArg (fun u => u.responses.length) h) (by decide)⟩

/-- EveryStepKeepsTheBlockOperational and CursorAfterACommand. -/
theorem test_witness_step_next :
    Operational (stateWith [] 623) ∧ (∃ t, exec .nextU32 (stateWith [] 623) = .next t) ∧
      ∃ t, step (presentNext (.command 0x100000000000000000000000000000000#131) (stateWith [] 623)) = .next t :=
  ⟨by decide, exists_next (by decide +kernel), exists_next (by decide +kernel)⟩

/-- EveryOtherCommandIsAnswered, both clauses. -/
theorem test_witness_gaussian_or_not : ¬ IsGaussian .nextU64 ∧ IsGaussian (.gaussianF32 0 0) := ⟨fun h => h, trivial⟩

/-- RoundingIsToNearestEven: a finite result and infinity. -/
theorem test_witness_rounding :
    roundMag binary32 0 3 < infMag binary32 ∧ 3 < infMag binary32 ∧
      (2 ^ (binary32.fracBits + 2) - 1) * 2 ^ (2 ^ binary32.expBits - 4) * 2 ^ 0 ≤ 2 ^ 300 := by decide +kernel

/-- The exact value `num / den` lies at or above an overflow threshold. -/
def overflows (threshold : Nat) (num : Int) (den : Nat) : Bool := decide (threshold * den ≤ num.natAbs)

/-- Binary32ArithmeticIsCorrectlyRounded, both clauses of each primitive: the largest finite value, minus or plus half a unit in its last place (the sum is the
threshold itself), times itself or 1.0, and it and 1.0 divided by 0.5. -/
theorem test_witness_arithmetic32 :
    (¬ overflows overflow32 (units32 0x7F7FFFFF#32 + units32 0x72FFFFFF#32) 1 ∧ add32 0 0x7F7FFFFF#32 0x72FFFFFF#32 = 0x7F7FFFFF#32) ∧
      (overflows overflow32 (units32 0x7F7FFFFF#32 + units32 0x73000000#32) 1 ∧ add32 0 0x7F7FFFFF#32 0x73000000#32 = inf32 false) ∧
      (¬ overflows overflow32 (units32 0x7F7FFFFF#32 - units32 0x73000000#32) 1 ∧ overflows overflow32 (units32 0x7F7FFFFF#32 - units32 (0x73000000#32 ^^^ zero32 true)) 1) ∧
      (¬ overflows overflow32 (units32 0x7F7FFFFF#32 * units32 0x3F800000#32) (2 ^ 149) ∧ overflows overflow32 (units32 0x7F7FFFFF#32 * units32 0x7F7FFFFF#32) (2 ^ 149)) ∧
      (units32 0x3F000000#32 ≠ 0 ∧ ¬ overflows overflow32 (units32 0x3F800000#32 * 2 ^ 149) (units32 0x3F000000#32).natAbs ∧
        overflows overflow32 (units32 0x7F7FFFFF#32 * 2 ^ 149) (units32 0x3F000000#32).natAbs ∧ (units32 0x3F000000#32).sign = 1) ∧
      Finite32 0x7F7FFFFF#32 ∧ Finite32 0x73000000#32 ∧ Finite32 0x72FFFFFF#32 ∧ Finite32 0x3F800000#32 ∧ Finite32 0x3F000000#32 := by
  decide +kernel

/-- Binary64ArithmeticIsCorrectlyRounded, both clauses of each primitive: the largest finite value, minus or plus half a unit in its last place (the sum is the
threshold itself), times itself or 1.0, and it and 1.0 divided by 0.5. -/
theorem test_witness_arithmetic64 :
    (¬ overflows overflow64 (units64 0x7FEFFFFFFFFFFFFF#64 + units64 0x7C8FFFFFFFFFFFFF#64) 1 ∧ add64 0 0x7FEFFFFFFFFFFFFF#64 0x7C8FFFFFFFFFFFFF#64 = 0x7FEFFFFFFFFFFFFF#64) ∧
      (overflows overflow64 (units64 0x7FEFFFFFFFFFFFFF#64 + units64 0x7C90000000000000#64) 1 ∧ add64 0 0x7FEFFFFFFFFFFFFF#64 0x7C90000000000000#64 = inf64 false) ∧
      (¬ overflows overflow64 (units64 0x7FEFFFFFFFFFFFFF#64 - units64 0x7C90000000000000#64) 1 ∧ overflows overflow64 (units64 0x7FEFFFFFFFFFFFFF#64 - units64 (0x7C90000000000000#64 ^^^ zero64 true)) 1) ∧
      (¬ overflows overflow64 (units64 0x7FEFFFFFFFFFFFFF#64 * units64 0x3FF0000000000000#64) (2 ^ 1074) ∧ overflows overflow64 (units64 0x7FEFFFFFFFFFFFFF#64 * units64 0x7FEFFFFFFFFFFFFF#64) (2 ^ 1074)) ∧
      (units64 0x3FE0000000000000#64 ≠ 0 ∧ ¬ overflows overflow64 (units64 0x3FF0000000000000#64 * 2 ^ 1074) (units64 0x3FE0000000000000#64).natAbs ∧
        overflows overflow64 (units64 0x7FEFFFFFFFFFFFFF#64 * 2 ^ 1074) (units64 0x3FE0000000000000#64).natAbs ∧ (units64 0x3FE0000000000000#64).sign = 1) ∧
      Finite64 0x7FEFFFFFFFFFFFFF#64 ∧ Finite64 0x7C90000000000000#64 ∧ Finite64 0x7C8FFFFFFFFFFFFF#64 ∧ Finite64 0x3FF0000000000000#64 ∧ Finite64 0x3FE0000000000000#64 := by
  decide +kernel

/-- SquareRootIsCorrectlyRounded: the root of 2 beside 1.0 and beside 1.5. -/
theorem test_witness_sqrt :
    Finite32 0x40000000#32 ∧ 0 < units32 0x40000000#32 ∧ units32 (sqrt32 0 0x40000000#32) < units32 0x3FC00000#32 ∧
      0 ≤ units32 0x3F800000#32 ∧ units32 0x3F800000#32 < units32 (sqrt32 0 0x40000000#32) ∧
        Finite64 0x4000000000000000#64 ∧ 0 < units64 0x4000000000000000#64 ∧
          units64 (sqrt64 0 0x4000000000000000#64) < units64 0x3FF8000000000000#64 ∧
            units64 0x3FF0000000000000#64 < units64 (sqrt64 0 0x4000000000000000#64) := by decide +kernel

/-- InvalidOperationsGiveAQuietNaN: a signalling NaN operand, and a negative operand of the root, in both formats. -/
theorem test_witness_nan :
    AnyNaN32 0x7F800001#32 ∧ (BitVec.getLsbD 0x80000001#32 31 = true ∧ 0x80000001#32 ≠ 0x80000000#32) ∧
      AnyNaN64 0xFFF0000000000001#64 ∧
        (BitVec.getLsbD 0xFFF0000000000000#64 63 = true ∧ 0xFFF0000000000000#64 ≠ 0x8000000000000000#64) := by decide

/-- SignedZerosFollowTheRule: the smallest subnormals. -/
theorem test_witness_signed_zero :
    Finite32 0x80000001#32 ∧ units32 0x80000001#32 ≠ 0 ∧ Finite64 0x8000000000000001#64 ∧ units64 0x8000000000000001#64 ≠ 0 := by
  decide +kernel

/-- ConversionFollowsThePseudocode and ConverterDividesExactly: a non-zero input on either side of the exact range. -/
theorem test_witness_conversion :
    (0x00FFFFFF#32 ≠ 0#32 ∧ Nat.log2 0x00FFFFFF ≤ 23) ∧ (0x01000001#32 ≠ 0#32 ∧ ¬ Nat.log2 0x01000001 ≤ 23) ∧
      (1#64 ≠ 0#64 ∧ Nat.log2 1 ≤ 52) ∧ ¬ Nat.log2 0x0020000000000001 ≤ 52 := by decide +kernel

/-- ConverterRangeIsTheClosedUnitInterval: ordered inputs. -/
theorem test_witness_converter_order :
    (0xFFFFFE80#32).toNat ≤ (0xFFFFFE81#32).toNat ∧ (1#64).toNat ≤ (2#64).toNat ∧ (1#32 ≠ 0) ∧ (1#64 ≠ 0) := by decide

/-- EqualBoundsGiveTheBound: 2.0 and -0, in both formats. -/
theorem test_witness_equal_bounds :
    Finite32 0x40000000#32 ∧ Finite32 0x80000000#32 ∧ Finite64 0x4000000000000000#64 ∧ Finite64 0x8000000000000000#64 := by decide

/-- OtherBoundsAreNoErrors, each clause: finite bounds with a finite spread, a difference that is no NaN, a NaN bound, an infinite difference (of an infinite
upper bound, and by overflow), in both formats; a zero and a non-zero draw. -/
theorem test_witness_other_bounds :
    (Finite32 0xC0A00000#32 ∧ Finite32 0x40A00000#32 ∧ Finite32 (sub32 0 0x40A00000#32 0xC0A00000#32) ∧
      0xC0A00000#32 ≠ zero32 true ∧ ¬ AnyNaN32 (sub32 0 0x40A00000#32 0xC0A00000#32)) ∧
      (Finite64 0xC014000000000000#64 ∧ Finite64 0x4014000000000000#64 ∧
        Finite64 (sub64 0 0x4014000000000000#64 0xC014000000000000#64) ∧ 0xC014000000000000#64 ≠ zero64 true ∧
          ¬ AnyNaN64 (sub64 0 0x4014000000000000#64 0xC014000000000000#64)) ∧
      (AnyNaN32 0x7FC00000#32 ∧ AnyNaN64 0x7FF8000000000000#64 ∧ (1#32 ≠ 0#32) ∧ (1#64 ≠ 0#64)) ∧
      (Finite32 (zero32 false) ∧ sub32 0 (inf32 true) (zero32 false) = inf32 true) ∧
      (Finite64 0xFFEFFFFFFFFFFFFF#64 ∧ sub64 0 0x7FEFFFFFFFFFFFFF#64 0xFFEFFFFFFFFFFFFF#64 = inf64 false) := by
  decide +kernel

/-- InfinitiesBehaveAsLimits: a zero, and the negative subnormal of least magnitude, in both formats. -/
theorem test_witness_limits :
    Finite32 (zero32 true) ∧ Finite32 0x80000001#32 ∧ units32 0x80000001#32 ≠ 0 ∧ Finite64 (zero64 true) ∧
      Finite64 0x8000000000000001#64 ∧ units64 0x8000000000000001#64 ≠ 0 := by decide +kernel

/-- SamplerConstantsAreExact: the doubling of a finite number that stays finite. -/
theorem test_witness_neg2 :
    Finite32 0xBE51D2F4#32 ∧ Finite32 (mul32f 0 Const.neg2F32 0xBE51D2F4#32) ∧ Finite64 0xBFCA3A5E38861F81#64 ∧
      Finite64 (mul64f 0 Const.neg2F64 0xBFCA3A5E38861F81#64) := by decide +kernel

/-- GaussianF32RespondsTheBoxMullerSample, with one rejected word and with none. -/
theorem test_witness_gaussianF32 :
    (∃ u w s0 s1 s2, Operational (resampleState 10) ∧ drawWords 1 (resampleState 10) = .value (List.replicate 1 0#32) s0 ∧
      nextWord s0 = .value u s1 ∧ u ≠ 0 ∧ nextWord s1 = .value w s2) ∧
    ∃ u w s0 s1 s2, Operational (resampleState 11) ∧ drawWords 0 (resampleState 11) = .value (List.replicate 0 0#32) s0 ∧
      nextWord s0 = .value u s1 ∧ u ≠ 0 ∧ nextWord s1 = .value w s2 := by
  have h10 : nextWord (resampleState 10) = .value 0#32 (resampleState 11) := by
    rw [nextWord_at (by decide), show temper _ = 0#32 by decide +kernel]
    rfl
  have h11 : nextWord (resampleState 11) = .value 0x00400091#32 (resampleState 12) := by
    rw [nextWord_at (by decide), show temper _ = 0x00400091#32 by decide +kernel]
    rfl
  have h12 : nextWord (resampleState 12) = .value 0x04440990#32 (resampleState 13) := by
    rw [nextWord_at (by decide), show temper _ = 0x04440990#32 by decide +kernel]
    rfl
  refine ⟨⟨_, _, resampleState 11, _, _, by decide, ?_, h11, by decide, h12⟩,
    ⟨_, _, resampleState 11, _, _, by decide, rfl, h11, by decide, h12⟩⟩
  rw [drawWords, h10]
  rfl

/-- GaussianF64RespondsTheBoxMullerSample, with one rejected pair of words. -/
theorem test_witness_gaussianF64 :
    ∃ h1 l1 h2 l2 s0 s1 s2 s3 s4, Operational (resampleState 9) ∧
      drawWords (2 * 1) (resampleState 9) = .value (List.replicate (2 * 1) 0#32) s0 ∧
      nextWord s0 = .value h1 s1 ∧ nextWord s1 = .value l1 s2 ∧ (h1 ≠ 0 ∨ l1 ≠ 0) ∧
      nextWord s2 = .value h2 s3 ∧ nextWord s3 = .value l2 s4 := by
  have h9 : nextWord (resampleState 9) = .value 0#32 (resampleState 10) := by
    rw [nextWord_at (by decide), show temper _ = 0#32 by decide +kernel]
    rfl
  have h10 : nextWord (resampleState 10) = .value 0#32 (resampleState 11) := by
    rw [nextWord_at (by decide), show temper _ = 0#32 by decide +kernel]
    rfl
  refine ⟨_, _, _, _, resampleState 11, _, _, _, _, by decide, ?_, nextWord_at (by decide), nextWord_at (by decide),
    .inl (by decide +kernel), nextWord_at (by decide), nextWord_at (by decide)⟩
  rw [drawWords, h9, andThen_value, drawWords, h10]
  rfl

/-- GaussianIsAnsweredExactlyWhenAWordLiesAhead, the first clause, by either way a word lies ahead: in this array, at the last place; and in
the twisted one, behind a cursor that has passed it. -/
theorem test_witness_word_ahead :
    (Operational (stateWith [(623, 1#32)] 623) ∧ WordAhead (stateWith [(623, 1#32)] 623)) ∧
      (Operational (stateWith [(397, 1#32)] 624) ∧ WordAhead (stateWith [(397, 1#32)] 624)) :=
  ⟨⟨by decide, .inl ⟨623, by decide +kernel⟩⟩, ⟨by decide, .inr ⟨0, by decide +kernel⟩⟩⟩

/-- The words of the all-zero array. -/
theorem wordAt_zero (j : Nat) : wordAt (stateWith [] 0).x j = 0#32 := by
  simp [wordAt, stateWith]

/-- The twist of the all-zero array is all zero, in either order. -/
theorem zero_twistFrom (order : TwistOrder) (k i : Nat) (done : List Word) (h : ∀ w ∈ done, w = 0#32) :
    ∀ w ∈ twistFrom order (stateWith [] 0).x k i done, w = 0#32 := by
  induction k generalizing i done with
  | zero => simp [twistFrom]
  | succ k ih =>
    have hd : ∀ j, done.getD j 0#32 = 0#32 := by
      intro j
      rw [List.getD_eq_getElem?_getD]
      cases hj : done[j]? with
      | none => rfl
      | some w => exact h w (List.mem_of_getElem? hj)
    have hr : ∀ j, twistRead order (stateWith [] 0).x done i j = 0#32 := by
      intro j
      unfold twistRead
      split
      · cases order
        · exact hd _
        · exact wordAt_zero _
      · exact wordAt_zero _
    have hw : twistWord order (stateWith [] 0).x done i = 0#32 := by
      simp only [twistWord, hr]
      decide
    intro w hm
    simp only [twistFrom, hw] at hm
    rcases List.mem_cons.mp hm with rfl | hm
    · rfl
    · exact ih _ _ (by simpa using h) w hm

/-- GaussianIsAnsweredExactlyWhenAWordLiesAhead, the second clause: the all-zero array. -/
theorem test_witness_no_word_ahead : Operational (stateWith [] 0) ∧ ¬ WordAhead (stateWith [] 0) := by
  refine ⟨by decide, ?_⟩
  rintro (⟨j, -, -, hj⟩ | ⟨j, hj, hne⟩)
  · exact hj (wordAt_zero j)
  · refine hne (zero_twistFrom Config.twistOrder 624 0 [] (by simp) _ ?_)
    simp [wordAt, twistArray, twistWith, List.getElem_mem]

/-- ZeroSigmaGivesTheMean: the largest finite `X`, 3.0 as the mean, in both formats. -/
theorem test_witness_zero_sigma :
    Finite32 0x7F7FFFFF#32 ∧ Finite32 0x40400000#32 ∧ units32 0x40400000#32 ≠ 0 ∧
      Finite64 0x7FEFFFFFFFFFFFFF#64 ∧ Finite64 0x4008000000000000#64 ∧ units64 0x4008000000000000#64 ≠ 0 := by decide +kernel

end Sys2Proof.Tests
end

section
/-!
PROOFS. What every command but `SEED` is made of, said once (`DrawsOnly`), and the statements about the scope of the block
(spec/00_scope.md R4 and R7) derived from it by induction.
-/

namespace Sys2Proof.Machine

/-! ## What a command body is made of -/

/-- The bodies that touch the state only by next-word operations, by meeting a condition and by the model's NaN counter
(spec/20_memory.md R32): every command but `SEED` has such a body (`exec_eq_command_of_ne_seed`). -/
inductive DrawsOnly : {α : Type} → (State → Run α) → Prop where
  | value {α : Type} (v : α) (k : Nat) : DrawsOnly fun s => .value v (useNaNDraws k s)
  | raise {α : Type} (c : Condition) : DrawsOnly fun s => (raise c s : Run α)
  | stuck {α : Type} : DrawsOnly fun _ => (.stuck : Run α)
  | nextWord : DrawsOnly nextWord
  | readNaNDraws {α : Type} {p : Nat → State → Run α} (hp : ∀ n, DrawsOnly (p n)) :
      DrawsOnly fun s => p s.nanDraws s
  | andThen {α β : Type} {p : State → Run α} {k : α → State → Run β} (hp : DrawsOnly p)
      (hk : ∀ v, DrawsOnly (k v)) : DrawsOnly fun s => (p s).andThen k

theorem DrawsOnly.pure {α : Type} (v : α) : DrawsOnly fun s => .value v s := .value v 0

/-- A result computed from the number of the next NaN draw. -/
theorem DrawsOnly.valueOfNaNDraws {α : Type} (f : Nat → α) (k : Nat) :
    DrawsOnly fun s => .value (f s.nanDraws) (useNaNDraws k s) :=
  .readNaNDraws fun n => .value (f n) k

theorem DrawsOnly.ite {α : Type} {c : Prop} [Decidable c] {p q : State → Run α} (hp : DrawsOnly p)
    (hq : DrawsOnly q) : DrawsOnly fun s => if c then p s else q s := by
  by_cases h : c
  · simpa [h] using hp
  · simpa [h] using hq

theorem drawsOnly_nextPair : DrawsOnly nextPair :=
  .andThen .nextWord fun hi => .andThen .nextWord fun lo => .pure (pair64 hi lo)

theorem drawsOnly_drawBytes (q : Nat) : DrawsOnly (drawBytes q) := by
  induction q with
  | zero => exact .pure []
  | succ q ih => exact .andThen .nextWord fun v => .andThen ih fun out => .pure (bytesBE v ++ out)

theorem drawsOnly_drawTail (r : Nat) : DrawsOnly (drawTail r) :=
  .ite (.pure []) (.andThen .nextWord fun v => .pure ((bytesBE v).take r))

theorem drawsOnly_drawStream (length : Nat) : DrawsOnly (drawStream length) :=
  .andThen (drawsOnly_drawBytes _) fun out => .andThen (drawsOnly_drawTail _) fun tail => .pure (out ++ tail)

theorem drawsOnly_drawA32 (fuel : Nat) : DrawsOnly (drawA32 fuel) := by
  induction fuel with
  | zero => exact .stuck
  | succ fuel ih =>
    exact .andThen .nextWord fun u =>
      .readNaNDraws (p := fun n s => if u2f32 n u = 0 then drawA32 fuel s else .value (u2f32 n u) s) fun n =>
        .ite ih (.pure (u2f32 n u))

theorem drawsOnly_drawA64 (fuel : Nat) : DrawsOnly (drawA64 fuel) := by
  induction fuel with
  | zero => exact .stuck
  | succ fuel ih =>
    exact .andThen drawsOnly_nextPair fun u =>
      .readNaNDraws (p := fun n s => if u2f64 n u = 0 then drawA64 fuel s else .value (u2f64 n u) s) fun n =>
        .ite ih (.pure (u2f64 n u))

/-- Every command but `SEED` is a body that only draws, under the frame of every command. -/
theorem exec_eq_command_of_ne_seed {i : Instr} (h : ∀ seed, i ≠ .seed seed) :
    ∃ body, DrawsOnly body ∧ ∀ s, exec i s = command s body := by
  cases i with
  | seed seed => exact absurd rfl (h seed)
  | nextU32 => exact ⟨_, .andThen .nextWord fun v => .pure (response32 v), fun _ => rfl⟩
  | nextU64 => exact ⟨_, .andThen drawsOnly_nextPair fun v => .pure (response64 v), fun _ => rfl⟩
  | nextBytes length =>
    exact ⟨_, .ite (.raise .invalidArgument) (.ite (.raise .resourceLimitExceeded)
      (.andThen (drawsOnly_drawStream length.toNat) fun out => .pure (responseBytes length.toNat out))), fun _ => rfl⟩
  | uniformF32 lower upper =>
    exact ⟨_, .andThen .nextWord fun u =>
      .valueOfNaNDraws (fun n => response32 (scale32 (n + 1) (u2f32 n u) lower upper)) 4, fun _ => rfl⟩
  | uniformF64 lower upper =>
    exact ⟨_, .andThen drawsOnly_nextPair fun u =>
      .valueOfNaNDraws (fun n => response64 (scale64 (n + 1) (u2f64 n u) lower upper)) 4, fun _ => rfl⟩
  | gaussianF32 mean sigma =>
    exact ⟨_, .andThen (drawsOnly_drawA32 resampleFuel) fun A => .andThen .nextWord fun w =>
      .valueOfNaNDraws (fun n => response32 (boxMuller32 (n + 1) A (u2f32 n w) mean sigma)) 7, fun _ => rfl⟩
  | gaussianF64 mean sigma =>
    exact ⟨_, .andThen (drawsOnly_drawA64 resampleFuel) fun A => .andThen drawsOnly_nextPair fun w =>
      .valueOfNaNDraws (fun n => response64 (boxMuller64 (n + 1) A (u2f64 n w) mean sigma)) 7, fun _ => rfl⟩

/-! ## Next-word operations in a row -/

/-- A next-word operation reads and writes the array and the cursor alone: from another state with the same two it gives the
same word and moves them alike. -/
theorem nextWord_value_congr {s s' t : State} {v : Word} (h : nextWord s = .value v t) (hx : s'.x = s.x)
    (hi : s'.index = s.index) : nextWord s' = .value v { s' with x := t.x, index := t.index } := by
  rcases Nat.lt_or_ge 624 s.index.toNat with hgt | hle
  · simp [nextWord_of_gt hgt] at h
  rw [nextWord_of_le hle] at h
  rw [nextWord_of_le (hi ▸ hle)]
  by_cases hf : s.index = 624
  · rw [twistIfDue_of_full hf] at h
    rw [twistIfDue_of_full (hi.trans hf)]
    cases h
    simp [drawWord, twistState, hx]
  · have hne : s'.index ≠ 624 := hi ▸ hf
    simp only [twistIfDue, if_neg hf] at h
    simp only [twistIfDue, if_neg hne]
    cases h
    simp [drawWord, hx, hi]

/-- `nextWord_value_congr` for any number of words. -/
theorem drawWords_value_congr {k : Nat} {s s' u : State} {ws : List Word} (h : drawWords k s = .value ws u)
    (hx : s'.x = s.x) (hi : s'.index = s.index) :
    drawWords k s' = .value ws { s' with x := u.x, index := u.index } := by
  induction k generalizing s s' ws with
  | zero =>
    cases h
    simp [drawWords, ← hx, ← hi]
  | succ k ih =>
    obtain ⟨v, s1, hv, hrest⟩ := andThen_eq_value.mp h
    obtain ⟨vs, s2, hvs, hend⟩ := andThen_eq_value.mp hrest
    cases hend
    have hih := ih (s' := { s' with x := s1.x, index := s1.index }) hvs rfl rfl
    simp [drawWords, nextWord_value_congr hv hx hi, hih]

/-- Words drawn in two stretches are drawn in one. -/
theorem drawWords_append {k m : Nat} {s t u : State} {ws vs : List Word} (h : drawWords k s = .value ws t)
    (h' : drawWords m t = .value vs u) : drawWords (k + m) s = .value (ws ++ vs) u := by
  induction k generalizing s ws with
  | zero =>
    cases h
    simpa using h'
  | succ k ih =>
    obtain ⟨v, s1, hv, hrest⟩ := andThen_eq_value.mp h
    obtain ⟨vs1, s2, hvs, hend⟩ := andThen_eq_value.mp hrest
    cases hend
    simp [Nat.succ_add, drawWords, hv, ih hvs]

/-! ## The generator moves by whole draws (R4, R14, R32) -/

/-- The array and the cursor of `t` are those that some number of next-word operations leaves from `s`. -/
def ReachedByDraws (s t : State) : Prop :=
  ∃ (k : Nat) (ws : List Word) (u : State), drawWords k s = .value ws u ∧ t.x = u.x ∧ t.index = u.index

theorem ReachedByDraws.of_same {s t : State} (hx : t.x = s.x) (hi : t.index = s.index) : ReachedByDraws s t :=
  ⟨0, [], s, rfl, hx, hi⟩

theorem ReachedByDraws.of_nextWord {s t : State} {v : Word} (h : nextWord s = .value v t) : ReachedByDraws s t :=
  ⟨1, [v], t, by simp [drawWords, h], rfl, rfl⟩

theorem ReachedByDraws.trans {s t w : State} (h : ReachedByDraws s t) (h' : ReachedByDraws t w) :
    ReachedByDraws s w := by
  obtain ⟨k, ws, u, hk, hx, hi⟩ := h
  obtain ⟨m, vs, u', hm, hx', hi'⟩ := h'
  exact ⟨k + m, ws ++ vs, _, drawWords_append hk (drawWords_value_congr hm hx.symm hi.symm), hx', hi'⟩

/-- If a run ends, with a value or a condition, then in a state of which `P` holds. -/
def Run.EndsIn {α : Type} (P : State → Prop) : Run α → Prop
  | .value _ t => P t
  | .raised _ t => P t
  | .stuck => True

theorem Run.EndsIn.mono {α : Type} {P Q : State → Prop} {r : Run α} (hr : r.EndsIn P) (h : ∀ t, P t → Q t) :
    r.EndsIn Q := by
  cases r with
  | value v t => exact h t hr
  | raised c t => exact h t hr
  | stuck => trivial

theorem Run.EndsIn.andThen {α β : Type} {P : State → Prop} {r : Run α} {k : α → State → Run β} (hr : r.EndsIn P)
    (hk : ∀ v t, P t → (k v t).EndsIn P) : (r.andThen k).EndsIn P := by
  cases r with
  | value v t => exact hk v t hr
  | raised c t => exact hr
  | stuck => trivial

/-- A command that answers leaves what its run left, but for the response it appends. -/
theorem Run.EndsIn.of_finish {P : State → Prop} {r : Run Response} {t : State} (hr : r.EndsIn P)
    (h : finish r = .next t) : ∃ a u, P u ∧ t = respond a u := by
  rcases finish_eq_next.mp h with ⟨a, u, rfl, rfl⟩ | ⟨c, u, rfl, rfl⟩
  · exact ⟨a, u, hr, rfl⟩
  · exact ⟨errorResponse c, u, hr, rfl⟩

theorem raise_endsIn_reachedByDraws {α : Type} (c : Condition) (s : State) :
    (raise c s : Run α).EndsIn (ReachedByDraws s) := by
  cases c <;> exact .of_same rfl rfl

theorem nextWord_endsIn_reachedByDraws (s : State) : (nextWord s).EndsIn (ReachedByDraws s) := by
  rcases nextWord_cases s with ⟨-, h⟩ | ⟨v, t, h, -⟩
  · rw [h]
    exact raise_endsIn_reachedByDraws .fatal s
  · rw [h]
    exact .of_nextWord h

theorem DrawsOnly.endsIn_reachedByDraws {α : Type} {p : State → Run α} (hp : DrawsOnly p) (s : State) :
    (p s).EndsIn (ReachedByDraws s) := by
  induction hp generalizing s with
  | value v k => exact .of_same rfl rfl
  | raise c => exact raise_endsIn_reachedByDraws c s
  | stuck => trivial
  | nextWord => exact nextWord_endsIn_reachedByDraws s
  | readNaNDraws hp ih => exact ih s.nanDraws s
  | andThen hp hk ihp ihk =>
    exact (ihp s).andThen fun v t ht => Run.EndsIn.mono (ihk v t) fun w hw => ht.trans hw

/-- The run of a command with a given body: the test of the flag, then the body (R129, R130). -/
def guardedRun (body : State → Run Response) (s : State) : Run Response := if s.fatal then raise .fatal s else body s

theorem command_eq_finish (body : State → Run Response) (s : State) : command s body = finish (guardedRun body s) := rfl

theorem guardedRun_endsIn_reachedByDraws {body : State → Run Response} (hb : DrawsOnly body) (s : State) :
    (guardedRun body s).EndsIn (ReachedByDraws s) := by
  unfold guardedRun
  split
  · exact raise_endsIn_reachedByDraws .fatal s
  · exact hb.endsIn_reachedByDraws s

/-- Settles O38: the body of such a command only draws, so whatever state its run ends in is reached by whole draws, and the
response it appends moves neither the array nor the cursor. -/
theorem drawCommandsMoveTheGeneratorByWholeDraws : Obligations.DrawCommandsMoveTheGeneratorByWholeDraws := by
  unfold Obligations.DrawCommandsMoveTheGeneratorByWholeDraws
  intro i s t hi h
  obtain ⟨body, hb, hexec⟩ := exec_eq_command_of_ne_seed hi
  rw [hexec, command_eq_finish] at h
  obtain ⟨a, u, hu, rfl⟩ := (guardedRun_endsIn_reachedByDraws hb s).of_finish h
  exact hu

/-! ## Responses depend on the generator alone (R7) -/

/-- `s` with other channels: what was presented and what was answered (R45). -/
def State.withChannels (input : List HostMove) (responses : List Response) (s : State) : State :=
  { s with input := input, responses := responses }

@[simp] theorem withChannels_x (m : List HostMove) (rs : List Response) (s : State) : (s.withChannels m rs).x = s.x := rfl
@[simp] theorem withChannels_index (m : List HostMove) (rs : List Response) (s : State) :
    (s.withChannels m rs).index = s.index := rfl
@[simp] theorem withChannels_fatal (m : List HostMove) (rs : List Response) (s : State) :
    (s.withChannels m rs).fatal = s.fatal := rfl
@[simp] theorem withChannels_input (m : List HostMove) (rs : List Response) (s : State) :
    (s.withChannels m rs).input = m := rfl
@[simp] theorem withChannels_responses (m : List HostMove) (rs : List Response) (s : State) :
    (s.withChannels m rs).responses = rs := rfl
@[simp] theorem withChannels_nanDraws (m : List HostMove) (rs : List Response) (s : State) :
    (s.withChannels m rs).nanDraws = s.nanDraws := rfl
@[simp] theorem withChannels_self (s : State) : s.withChannels s.input s.responses = s := rfl

/-- The same run with the state it ends in put through `f`. -/
def Run.mapState {α : Type} (f : State → State) : Run α → Run α
  | .value v s => .value v (f s)
  | .raised c s => .raised c (f s)
  | .stuck => .stuck

/-- A run that neither reads nor writes the channels: with other channels it is the same run, and leaves them as they are. -/
def IgnoresChannels {α : Type} (p : State → Run α) : Prop :=
  ∀ m rs s, p (s.withChannels m rs) = (p s).mapState (State.withChannels m rs)

theorem IgnoresChannels.andThen {α β : Type} {p : State → Run α} {k : α → State → Run β} (hp : IgnoresChannels p)
    (hk : ∀ v, IgnoresChannels (k v)) : IgnoresChannels fun s => (p s).andThen k := by
  intro m rs s
  simp only [hp m rs s]
  cases p s with
  | value v t => exact hk v m rs t
  | raised c t => rfl
  | stuck => rfl

theorem ignoresChannels_raise {α : Type} (c : Condition) : IgnoresChannels fun s => (raise c s : Run α) := by
  intro m rs s
  cases c <;> rfl

theorem twistIfDue_withChannels (m : List HostMove) (rs : List Response) (s : State) :
    twistIfDue (s.withChannels m rs) = (twistIfDue s).withChannels m rs :=
  (apply_ite (State.withChannels m rs) (s.index = 624) (twistState s) s).symm

theorem ignoresChannels_nextWord : IgnoresChannels nextWord := by
  intro m rs s
  rcases Nat.lt_or_ge 624 s.index.toNat with hgt | hle
  · rw [nextWord_of_gt hgt, nextWord_of_gt (s := s.withChannels m rs) hgt]
    rfl
  · rw [nextWord_of_le hle, nextWord_of_le (s := s.withChannels m rs) hle, twistIfDue_withChannels]
    rfl

theorem DrawsOnly.ignoresChannels {α : Type} {p : State → Run α} (hp : DrawsOnly p) : IgnoresChannels p := by
  induction hp with
  | value v k => exact fun _ _ _ => rfl
  | raise c => exact ignoresChannels_raise c
  | stuck => exact fun _ _ _ => rfl
  | nextWord => exact ignoresChannels_nextWord
  | readNaNDraws hp ih => exact fun m rs s => ih s.nanDraws m rs s
  | andThen hp hk ihp ihk => exact ihp.andThen ihk

/-- Every command, `SEED` included, is the frame of every command around a body that ignores the channels. -/
theorem exec_eq_command_ignoresChannels (i : Instr) :
    ∃ body, IgnoresChannels body ∧ ∀ s, exec i s = command s body := by
  by_cases hi : ∃ seed, i = .seed seed
  · obtain ⟨seed, rfl⟩ := hi
    exact ⟨fun s => .value plainResponse (seedState seed s), fun _ _ _ => rfl, fun _ => rfl⟩
  · obtain ⟨body, hb, hexec⟩ := exec_eq_command_of_ne_seed fun seed h => hi ⟨seed, h⟩
    exact ⟨body, hb.ignoresChannels, hexec⟩

theorem IgnoresChannels.guardedRun {body : State → Run Response} (hb : IgnoresChannels body) :
    IgnoresChannels (guardedRun body) := by
  intro m rs s
  unfold Machine.guardedRun
  by_cases hf : s.fatal = true
  · simpa [hf] using ignoresChannels_raise .fatal m rs s
  · simpa [hf] using hb m rs s

/-- The response that ends a command is the same whatever is done to the state the run ended in. -/
theorem finish_mapState {r : Run Response} {t : State} (h : finish r = .next t) :
    ∃ a u, t = respond a u ∧ ∀ f, finish (r.mapState f) = .next (respond a (f u)) := by
  rcases finish_eq_next.mp h with ⟨a, u, rfl, rfl⟩ | ⟨c, u, rfl, rfl⟩
  · exact ⟨a, u, rfl, fun _ => rfl⟩
  · exact ⟨errorResponse c, u, rfl, fun _ => rfl⟩

/-- A command with other channels gives the same response, at the end of those channels, and the same generator. -/
theorem exec_withChannels {i : Instr} {s t : State} (h : exec i s = .next t) :
    ∃ a u, t = respond a u ∧ ∀ m rs, exec i (s.withChannels m rs) = .next (respond a (u.withChannels m rs)) := by
  obtain ⟨body, hb, hexec⟩ := exec_eq_command_ignoresChannels i
  rw [hexec, command_eq_finish] at h
  obtain ⟨a, u, ht, hmap⟩ := finish_mapState h
  refine ⟨a, u, ht, fun m rs => ?_⟩
  rw [hexec, command_eq_finish, hb.guardedRun m rs s]
  exact hmap (State.withChannels m rs)

/-- Settles O39: the second state is the first with other channels, and the first is itself with its own channels, so both
responses stand at the end of the responses that were there. -/
theorem responsesDependOnTheGeneratorAlone : Obligations.ResponsesDependOnTheGeneratorAlone := by
  unfold Obligations.ResponsesDependOnTheGeneratorAlone
  intro i s s' t hx hi hf hn h
  obtain ⟨a, u, rfl, hchannels⟩ := exec_withChannels h
  have hs' : s.withChannels s'.input s'.responses = s' := by
    simp [State.withChannels, hx, hi, hf, hn]
  have hself : respond a u = respond a (u.withChannels s.input s.responses) :=
    Host.Outcome.next.inj (h.symm.trans (hchannels s.input s.responses))
  have hs'run := hchannels s'.input s'.responses
  rw [hs'] at hs'run
  exact ⟨_, a, hs'run, congrArg State.responses hself, rfl, rfl, rfl, rfl, rfl⟩

end Sys2Proof.Machine
end

section
/-!
PROOFS. The state after reset, and the invariant of normal operation (spec/10_state.md R17, R18, R24): what a command that draws
leaves (`Draws`), what one that does not draw leaves, and from the two what every step keeps.
-/

namespace Sys2Proof.Machine

/-! ## The array the seeding recurrence gives (R65, R68) -/

/-- The halves of `mul32` make the low 32 bits of the product (R65). -/
theorem mul32_eq_mul (p q : Word) : mul32 p q = p * q := by
  apply BitVec.eq_of_toNat_eq
  have hp := Nat.div_add_mod p.toNat 65536
  have hq := Nat.div_add_mod q.toNat 65536
  simp only [mul32, BitVec.toNat_ofNat, BitVec.toNat_mul]
  generalize p.toNat / 65536 = ph, p.toNat % 65536 = pl at *
  generalize q.toNat / 65536 = qh, q.toNat % 65536 = ql at *
  have hprod : p.toNat * q.toNat = 2 ^ 32 * (ph * qh) + ((ph * ql + pl * qh) * 65536 + pl * ql) := by
    rw [← hp, ← hq]
    ring
  rw [hprod, Nat.mul_add_mod]
  generalize ph * ql + pl * qh = cross, pl * ql = low
  omega

theorem seedNext_eq (i : Nat) (prev : Word) :
    seedNext i prev = Const.f * (prev ^^^ (prev >>> 30)) + BitVec.ofNat 32 i := by
  rw [seedNext, mul32_eq_mul]

/-- Each word that `seedFrom` lists is the recurrence's successor of the word before it. -/
theorem getElem_seedFrom (k : Nat) (prev : Word) (i j : Nat) (h : j < (seedFrom k prev i).length) :
    (seedFrom k prev i)[j] = seedNext (i + j) ((prev :: seedFrom k prev i)[j]'(Nat.lt_succ_of_lt h)) := by
  induction k generalizing prev i j with
  | zero => simp [seedFrom] at h
  | succ k ih =>
    cases j with
    | zero => simp [seedFrom]
    | succ j =>
      have hj : j < (seedFrom k (seedNext i prev) (i + 1)).length := by simpa [seedFrom] using h
      simpa [seedFrom, Nat.add_assoc, Nat.add_comm 1 j] using ih (seedNext i prev) (i + 1) j hj

theorem wordAt_seedArray {seed : Word} {i : Nat} (h : i < 624) :
    wordAt (seedArray seed) i = (seed :: seedFrom 623 seed 1)[i]'(by simpa [seedFrom_length] using h) := by
  rw [wordAt_of_lt _ h]
  simp [seedArray]

theorem isSeedArray_seedArray (seed : Word) : IsSeedArray seed (seedArray seed) := by
  refine ⟨wordAt_seedArray (by decide), fun i h1 h623 => ?_⟩
  obtain ⟨j, rfl⟩ := Nat.exists_eq_add_of_le' h1
  rw [Nat.add_sub_cancel, ← seedNext_eq, wordAt_seedArray (by omega), wordAt_seedArray (by omega),
    List.getElem_cons_succ, getElem_seedFrom, Nat.add_comm 1 j]

/-- The printed words of the array of seed 5489 (R24). -/
theorem wordAt_seedArray_default :
    wordAt (seedArray Const.defaultSeed) 1 = 0x4D98EE96#32 ∧ wordAt (seedArray Const.defaultSeed) 2 = 0xAF25F095#32 ∧
      wordAt (seedArray Const.defaultSeed) 623 = 0x04C46D8C#32 := by decide +kernel

/-- Settles O12: the recurrence holds of the array of every seed, and the printed words are computed. -/
theorem resetStateIsTheDefaultSeedState : Obligations.ResetStateIsTheDefaultSeedState :=
  ⟨isSeedArray_seedArray Const.defaultSeed, rfl, rfl, wordAt_seedArray_default⟩

/-- Settles O36, by the two fields of the reset state. -/
theorem resetStateIsOperational : Obligations.ResetStateIsOperational := ⟨rfl, Nat.le_refl 624⟩

/-! ## Bodies that draw (R18) -/

/-- The state of normal operation in which a word of the present array has been drawn: the flag clear and the cursor in 1 to 624. -/
def Drawn (s : State) : Prop := s.fatal = false ∧ 1 ≤ s.index.toNat ∧ s.index.toNat ≤ 624

theorem Drawn.operational {s : State} (h : Drawn s) : Operational s := by
  obtain ⟨hfatal, -, h624⟩ := h
  exact ⟨hfatal, h624⟩

/-- If the body ends from an operational state, then having drawn, and without `Fatal`. -/
def Draws {α : Type} (p : State → Run α) : Prop := ∀ s, Operational s → (p s).EndsIn Drawn

/-- The same for a body that follows a draw, so that it need not draw itself. -/
def KeepsDrawn {α : Type} (p : State → Run α) : Prop := ∀ s, Drawn s → (p s).EndsIn Drawn

theorem Draws.keepsDrawn {α : Type} {p : State → Run α} (hp : Draws p) : KeepsDrawn p :=
  fun s hs => hp s hs.operational

theorem Draws.andThen {α β : Type} {p : State → Run α} {k : α → State → Run β} (hp : Draws p)
    (hk : ∀ v, KeepsDrawn (k v)) : Draws fun s => (p s).andThen k :=
  fun s hs => (hp s hs).andThen hk

theorem KeepsDrawn.andThen {α β : Type} {p : State → Run α} {k : α → State → Run β} (hp : KeepsDrawn p)
    (hk : ∀ v, KeepsDrawn (k v)) : KeepsDrawn fun s => (p s).andThen k :=
  fun s hs => (hp s hs).andThen hk

/-- A result moves neither the flag nor the cursor, however many NaN draws it numbers. -/
theorem keepsDrawn_result {α : Type} (f : State → α) (k : Nat) :
    KeepsDrawn fun s => .value (f s) (useNaNDraws k s) := fun _ hs => hs

theorem keepsDrawn_value {α : Type} (v : α) : KeepsDrawn fun s => .value v s := keepsDrawn_result (fun _ => v) 0

theorem draws_nextWord : Draws nextWord := by
  intro s hs
  obtain ⟨v, t, hv, h1, h624, hfatal, -⟩ := nextWord_value hs.2
  rw [hv]
  exact ⟨hfatal.trans hs.1, h1, h624⟩

theorem draws_nextPair : Draws nextPair :=
  draws_nextWord.andThen fun hi => draws_nextWord.keepsDrawn.andThen fun lo => keepsDrawn_value (pair64 hi lo)

/-- A loop that never ends meets the claim by not ending; a rejected draw is a draw. What is drawn does not matter, so `A` stands for it
and Lean computes no quotient. -/
theorem draws_drawA32 (fuel : Nat) : Draws (drawA32 fuel) := by
  induction fuel with
  | zero => exact fun _ _ => trivial
  | succ fuel ih =>
    refine draws_nextWord.andThen fun u s hs => ?_
    generalize u2f32 s.nanDraws u = A
    split
    · exact ih s hs.operational
    · exact hs

theorem draws_drawA64 (fuel : Nat) : Draws (drawA64 fuel) := by
  induction fuel with
  | zero => exact fun _ _ => trivial
  | succ fuel ih =>
    refine draws_nextPair.andThen fun u s hs => ?_
    generalize u2f64 s.nanDraws u = A
    split
    · exact ih s hs.operational
    · exact hs

theorem keepsDrawn_drawBytes (q : Nat) : KeepsDrawn (drawBytes q) := by
  induction q with
  | zero => exact keepsDrawn_value []
  | succ q ih =>
    exact draws_nextWord.keepsDrawn.andThen fun v => ih.andThen fun out => keepsDrawn_value (bytesBE v ++ out)

theorem draws_drawBytes_succ (q : Nat) : Draws (drawBytes (q + 1)) :=
  draws_nextWord.andThen fun v => (keepsDrawn_drawBytes q).andThen fun out => keepsDrawn_value (bytesBE v ++ out)

theorem draws_drawTail {r : Nat} (h : r ≠ 0) : Draws (drawTail r) := by
  have hdraw : Draws fun s => (nextWord s).andThen fun v s => .value ((bytesBE v).take r) s :=
    draws_nextWord.andThen fun v => keepsDrawn_value ((bytesBE v).take r)
  intro s hs
  simpa only [drawTail, if_neg h] using hdraw s hs

theorem keepsDrawn_drawTail (r : Nat) : KeepsDrawn (drawTail r) := by
  by_cases h : r = 0
  · subst h
    exact keepsDrawn_value []
  · exact (draws_drawTail h).keepsDrawn

/-- A stream with a byte in it draws: a complete word if it has four, else the word of its tail. -/
theorem draws_drawStream {length : Nat} (h : 0 < length) : Draws (drawStream length) := by
  cases hq : length / 4 with
  | zero =>
    have htail : Draws fun s => (drawTail (length % 4) s).andThen fun tail s => .value ([] ++ tail) s :=
      (draws_drawTail (by omega)).andThen fun tail => keepsDrawn_value ([] ++ tail)
    intro s hs
    simpa only [drawStream, hq, drawBytes, andThen_value] using htail s hs
  | succ q =>
    have hwords := (draws_drawBytes_succ q).andThen fun out =>
      (keepsDrawn_drawTail (length % 4)).andThen fun tail => keepsDrawn_value (out ++ tail)
    intro s hs
    simpa only [drawStream, hq] using hwords s hs

/-! ## What a command leaves (R18) -/

/-- The body of a served `NEXT_BYTES` (R87, R130). -/
theorem exec_nextBytes_served {length : Int} (h : DrawsAWord (.nextBytes length)) (s : State) :
    exec (.nextBytes length) s =
      command s fun s => (drawStream length.toNat s).andThen fun out s => .value (responseBytes length.toNat out) s := by
  have hpos : ¬ length ≤ 0 := Int.not_le.mpr h.1
  have hmax : ¬ (Config.maxBytes : Int) < length := Int.not_lt.mpr h.2
  simp only [exec, execNextBytes, if_neg hpos, if_neg hmax]

/-- A refused `NEXT_BYTES` answers with the condition and leaves everything else alone (R126, R127). -/
theorem exec_nextBytes_refused {length : Int} (h : ¬ DrawsAWord (.nextBytes length)) {s : State}
    (hs : s.fatal = false) : ∃ c, exec (.nextBytes length) s = .next (respond (errorResponse c) s) := by
  simp only [exec, execNextBytes, command_of_not_fatal hs]
  by_cases hpos : length ≤ 0
  · exact ⟨.invalidArgument, by simp [hpos]⟩
  · have hmax : (Config.maxBytes : Int) < length := by
      by_contra hle
      exact h ⟨Int.not_le.mp hpos, Int.not_lt.mp hle⟩
    exact ⟨.resourceLimitExceeded, by simp [hpos, hmax]⟩

/-- With the flag clear `SEED` seeds and answers (R69). -/
theorem exec_seed_of_not_fatal (seed : Word) {s : State} (hs : s.fatal = false) :
    exec (.seed seed) s = .next (respond plainResponse (seedState seed s)) :=
  command_of_not_fatal hs fun s => .value plainResponse (seedState seed s)

/-- Every command that draws has a body that draws. -/
theorem exec_eq_command_of_drawsAWord {i : Instr} (h : DrawsAWord i) :
    ∃ body, Draws body ∧ ∀ s, exec i s = command s body := by
  cases i with
  | seed seed => exact h.elim
  | nextU32 => exact ⟨_, draws_nextWord.andThen fun v => keepsDrawn_value (response32 v), fun _ => rfl⟩
  | nextU64 => exact ⟨_, draws_nextPair.andThen fun v => keepsDrawn_value (response64 v), fun _ => rfl⟩
  | nextBytes length =>
    have hpos : 0 < length.toNat := Int.pos_iff_toNat_pos.mp h.1
    exact ⟨_, (draws_drawStream hpos).andThen fun out => keepsDrawn_value (responseBytes length.toNat out),
      exec_nextBytes_served h⟩
  | uniformF32 lower upper => exact ⟨_, draws_nextWord.andThen fun u => keepsDrawn_result _ 4, fun _ => rfl⟩
  | uniformF64 lower upper => exact ⟨_, draws_nextPair.andThen fun u => keepsDrawn_result _ 4, fun _ => rfl⟩
  | gaussianF32 mean sigma =>
    exact ⟨_, (draws_drawA32 resampleFuel).andThen fun A =>
      draws_nextWord.keepsDrawn.andThen fun w => keepsDrawn_result _ 7, fun _ => rfl⟩
  | gaussianF64 mean sigma =>
    exact ⟨_, (draws_drawA64 resampleFuel).andThen fun A =>
      draws_nextPair.keepsDrawn.andThen fun w => keepsDrawn_result _ 7, fun _ => rfl⟩

theorem drawn_of_exec {i : Instr} {s t : State} (hi : DrawsAWord i) (hs : Operational s) (h : exec i s = .next t) :
    Drawn t := by
  obtain ⟨body, hbody, hexec⟩ := exec_eq_command_of_drawsAWord hi
  rw [hexec, command_of_not_fatal hs.1] at h
  obtain ⟨a, u, hu, rfl⟩ := (hbody s hs).of_finish h
  exact hu

/-- Settles O37: a command that draws leaves a drawn state, and `SEED` leaves the cursor of `SEEDSTATE`. -/
theorem cursorAfterACommand : Obligations.CursorAfterACommand := by
  unfold Obligations.CursorAfterACommand
  intro i s t hs h
  constructor
  · intro hi
    exact (drawn_of_exec hi hs h).2
  · rintro seed rfl
    rw [exec_seed_of_not_fatal seed hs.1] at h
    cases h
    rfl

/-! ## Every step keeps the block operational (R17, R18) -/

theorem operational_seedState (seed : Word) {s : State} (hs : s.fatal = false) : Operational (seedState seed s) :=
  ⟨hs, Nat.le_refl 624⟩

/-- The reset event leaves an operational state whatever the state was (R145). -/
theorem operational_resetEvent (s : State) : Operational (resetEvent s) := operational_seedState Const.defaultSeed rfl

theorem operational_of_exec {i : Instr} {s t : State} (hs : Operational s) (h : exec i s = .next t) :
    Operational t := by
  by_cases hi : DrawsAWord i
  · exact (drawn_of_exec hi hs h).operational
  cases i with
  | seed seed =>
    rw [exec_seed_of_not_fatal seed hs.1] at h
    cases h
    exact operational_seedState seed hs.1
  | nextBytes length =>
    obtain ⟨c, hc⟩ := exec_nextBytes_refused hi hs.1
    rw [hc] at h
    cases h
    exact hs
  | nextU32 | nextU64 | uniformF32 | uniformF64 | gaussianF32 | gaussianF64 => exact absurd trivial hi

/-- What a step can do: idle, take the reset event, or run the command presented (R45, R138, R145). -/
theorem step_cases {s t : State} (h : step s = .next t) :
    (s.input = [] ∧ t = s) ∨
      (∃ rest, s.input = .reset :: rest ∧ t = resetEvent { s with input := rest }) ∨
      ∃ cw rest, s.input = .command cw :: rest ∧ exec (decode cw) { s with input := rest } = .next t := by
  cases hin : s.input with
  | nil =>
    simp only [step, takeMove, hin, Host.Outcome.next.injEq] at h
    exact .inl ⟨rfl, h.symm⟩
  | cons move rest =>
    cases move with
    | reset =>
      simp only [step, takeMove, hin, Host.Outcome.next.injEq] at h
      exact .inr (.inl ⟨rest, rfl, h.symm⟩)
    | command cw =>
      simp only [step, takeMove, hin] at h
      exact .inr (.inr ⟨cw, rest, rfl, h⟩)

/-- Settles O35, by what a step can do: idling changes nothing, reset seeds with the flag clear, and a command keeps the
invariant whether it draws or not. -/
theorem everyStepKeepsTheBlockOperational : Obligations.EveryStepKeepsTheBlockOperational := by
  unfold Obligations.EveryStepKeepsTheBlockOperational
  intro s t hs h
  rcases step_cases h with ⟨-, rfl⟩ | ⟨rest, -, rfl⟩ | ⟨cw, rest, -, hexec⟩
  · exact hs
  · exact operational_resetEvent _
  · exact operational_of_exec (s := { s with input := rest }) hs hexec

end Sys2Proof.Machine
end

section
/-!
PROOFS. What the engine makes of the command channel (spec/20_memory.md section 6): a move is taken when it is next on the channel, and a
command word taken is decoded and run (spec/30_encoding.md R45).
-/

namespace Sys2Proof.Machine

/-- The move next on the channel is the one taken, and only the channel changes by it (R40). -/
theorem takeMove_of_input_cons {s : State} {m : HostMove} {rest : List HostMove} (h : s.input = m :: rest) :
    takeMove s = some (m, { s with input := rest }) := by
  simp only [takeMove, h]

/-- A command word taken is decoded and run on the state it was taken from (R45). -/
theorem step_of_takeMove_command {s t : State} {cw : CommandWord} (h : takeMove s = some (.command cw, t)) :
    step s = exec (decode cw) t := by
  simp only [step, h]

/-- Settles O8: the command word is taken off the channel, then decoded and run. -/
theorem stepRunsTheDecodedCommand : Obligations.StepRunsTheDecodedCommand := by
  unfold Obligations.StepRunsTheDecodedCommand
  intro s cw rest hin
  exact step_of_takeMove_command (takeMove_of_input_cons hin)

end Sys2Proof.Machine
end

section
/-!
PROOFS. Command words (spec/30_encoding.md sections 2 and 3, R46 to R50): where the fields lie, one equation of the decoder for each
opcode, and the statements about decoding derived from the two.
-/

namespace Sys2Proof.Machine

open Sys2Proof.Laws

/-! ## The fields of a packed word (R47) -/

theorem toNat_append_eq_mul_add {m n : Nat} (x : BitVec m) (y : BitVec n) :
    (x ++ y).toNat = x.toNat * 2 ^ n + y.toNat := by
  rw [BitVec.toNat_append, ← Nat.shiftLeft_add_eq_or_of_lt y.isLt, Nat.shiftLeft_eq]

theorem toNat_packWord (op : BitVec 3) (b a : BitVec 64) :
    (packWord op b a).toNat = op.toNat * 2 ^ 128 + b.toNat * 2 ^ 64 + a.toNat :=
  calc (packWord op b a).toNat
    _ = (op ++ b).toNat * 2 ^ 64 + a.toNat := toNat_append_eq_mul_add (op ++ b) a
    _ = (op.toNat * 2 ^ 64 + b.toNat) * 2 ^ 64 + a.toNat := by rw [toNat_append_eq_mul_add]
    _ = op.toNat * 2 ^ 128 + b.toNat * 2 ^ 64 + a.toNat := by ring

@[simp] theorem fieldA_packWord (op : BitVec 3) (b a : BitVec 64) : fieldA (packWord op b a) = a :=
  BitVec.extractLsb'_append_eq_right (a := op ++ b)

@[simp] theorem fieldB_packWord (op : BitVec 3) (b a : BitVec 64) : fieldB (packWord op b a) = b :=
  calc fieldB (packWord op b a)
    _ = (op ++ b).extractLsb' 0 64 := BitVec.extractLsb'_append_eq_of_le (xlo := a) (Nat.le_refl 64)
    _ = b := BitVec.extractLsb'_append_eq_right

@[simp] theorem fieldA_encode (i : Instr) : fieldA (encode i) = encodeA i := fieldA_packWord _ _ _

@[simp] theorem fieldB_encode (i : Instr) : fieldB (encode i) = encodeB i := fieldB_packWord _ _ _

/-- Settles O2: the fields of a concatenation, and the rule's example by its three fields. -/
theorem commandWordFieldsLieWhereTheFormatSays : Obligations.CommandWordFieldsLieWhereTheFormatSays :=
  ⟨fun op b a =>
    ⟨toNat_packWord op b a, EncodedOpcode.fieldOp_packWord op b a, fieldB_packWord op b a, fieldA_packWord op b a⟩, rfl⟩

/-! ## The operands (R48) -/

/-- A 32-bit operand is read back from the field that carries it zero-extended. -/
@[simp] theorem operand32_setWidth (v : BitVec 32) : operand32 (v.setWidth 64) = v := by
  rw [operand32, BitVec.extractLsb'_setWidth_of_le (by decide), BitVec.extractLsb'_eq_self]

/-- A length that fits an `s32` is read back from its two's complement. -/
theorem operandLength_ofInt {length : Int} (h : WellFormed (.nextBytes length)) :
    operandLength ((BitVec.ofInt 32 length).setWidth 64) = length := by
  obtain ⟨hlow, hhigh⟩ := of_decide_eq_true h
  rw [operandLength, operand32_setWidth]
  exact BitVec.toInt_ofInt_eq_self (by decide) hlow hhigh

/-- Every length a field carries fits an `s32`. -/
theorem wellFormed_operandLength (field : BitVec 64) : WellFormed (.nextBytes (operandLength field)) :=
  decide_eq_true ⟨(operand32 field).le_toInt, (operand32 field).toInt_lt⟩

theorem operandLength_inj {field field' : BitVec 64} :
    operandLength field = operandLength field' ↔ operand32 field = operand32 field' := BitVec.toInt_inj

/-! ## The decoder, one equation for each opcode (R46) -/

/-- All eight values of the `op` field (R46, R50). -/
theorem opcode_cases (op : BitVec 3) :
    op = 0#3 ∨ op = 1#3 ∨ op = 2#3 ∨ op = 3#3 ∨ op = 4#3 ∨ op = 5#3 ∨ op = 6#3 ∨ op = 7#3 := by
  revert op
  decide

section
variable {cw : CommandWord}

theorem decode_eq_seed (h : fieldOp cw = 0#3) : decode cw = .seed (operand32 (fieldA cw)) := by simp [decode, h]
theorem decode_eq_nextU32 (h : fieldOp cw = 1#3) : decode cw = .nextU32 := by simp [decode, h]
theorem decode_eq_nextU64 (h : fieldOp cw = 2#3) : decode cw = .nextU64 := by simp [decode, h]
theorem decode_eq_nextBytes (h : fieldOp cw = 3#3) : decode cw = .nextBytes (operandLength (fieldA cw)) := by
  simp [decode, h]
theorem decode_eq_uniformF32 (h : fieldOp cw = 4#3) :
    decode cw = .uniformF32 (operand32 (fieldA cw)) (operand32 (fieldB cw)) := by simp [decode, h]
theorem decode_eq_uniformF64 (h : fieldOp cw = 5#3) : decode cw = .uniformF64 (fieldA cw) (fieldB cw) := by
  simp [decode, h]
theorem decode_eq_gaussianF32 (h : fieldOp cw = 6#3) :
    decode cw = .gaussianF32 (operand32 (fieldA cw)) (operand32 (fieldB cw)) := by simp [decode, h]
theorem decode_eq_gaussianF64 (h : fieldOp cw = 7#3) : decode cw = .gaussianF64 (fieldA cw) (fieldB cw) := by
  simp [decode, h]

end

/-! ## Decoding (R46 to R50) -/

/-- Settles O3: the encoding holds the command's opcode, and each operand is read back from the field it was put in; the length of
`NEXT_BYTES` because a well-formed one fits an `s32`. -/
theorem decodeOfEncodeIsTheCommand : Obligations.DecodeOfEncodeIsTheCommand := by
  unfold Obligations.DecodeOfEncodeIsTheCommand
  intro i hi
  cases i with
  | seed seed => simp [decode_eq_seed (EncodedOpcode.seed seed), encodeA]
  | nextU32 => exact decode_eq_nextU32 EncodedOpcode.nextU32
  | nextU64 => exact decode_eq_nextU64 EncodedOpcode.nextU64
  | nextBytes length => simp [decode_eq_nextBytes (EncodedOpcode.nextBytes length), encodeA, operandLength_ofInt hi]
  | uniformF32 lower upper => simp [decode_eq_uniformF32 (EncodedOpcode.uniformF32 lower upper), encodeA, encodeB]
  | uniformF64 lower upper => simp [decode_eq_uniformF64 (EncodedOpcode.uniformF64 lower upper), encodeA, encodeB]
  | gaussianF32 mean sigma => simp [decode_eq_gaussianF32 (EncodedOpcode.gaussianF32 mean sigma), encodeA, encodeB]
  | gaussianF64 mean sigma => simp [decode_eq_gaussianF64 (EncodedOpcode.gaussianF64 mean sigma), encodeA, encodeB]

/-- Settles O4, opcode by opcode: the operands the decoder reads are the bits listed, and it reads a length injectively. -/
theorem ignoredOperandBitsAreExactlyTheListedOnes : Obligations.IgnoredOperandBitsAreExactlyTheListedOnes := by
  unfold Obligations.IgnoredOperandBitsAreExactlyTheListedOnes
  intro op b a b' a'
  have hop : ∀ b a, fieldOp (packWord op b a) = op := EncodedOpcode.fieldOp_packWord op
  rcases opcode_cases op with rfl | rfl | rfl | rfl | rfl | rfl | rfl | rfl
  · simp [decode_eq_seed (hop _ _), operand32]
  · simp [decode_eq_nextU32 (hop _ _)]
  · simp [decode_eq_nextU64 (hop _ _)]
  · simp [decode_eq_nextBytes (hop _ _), operandLength_inj, operand32]
  · simp [decode_eq_uniformF32 (hop _ _), operand32]
  · simp [decode_eq_uniformF64 (hop _ _)]
  · simp [decode_eq_gaussianF32 (hop _ _), operand32]
  · simp [decode_eq_gaussianF64 (hop _ _)]

/-- The number of a command word is decoded as that word (R50). -/
theorem decodeNumber_toNat (cw : CommandWord) : decodeNumber cw.toNat = .ok (decode cw) := by
  rw [decodeNumber, if_pos cw.isLt, BitVec.ofNat_toNat, BitVec.setWidth_eq]

/-- What a command word decodes to is well formed and has the opcode of its `op` field. -/
theorem decode_wellFormed_and_opcode (cw : CommandWord) : WellFormed (decode cw) ∧ opcode (decode cw) = fieldOp cw := by
  rcases opcode_cases (fieldOp cw) with h | h | h | h | h | h | h | h
  · rw [decode_eq_seed h, h]
    exact ⟨rfl, rfl⟩
  · rw [decode_eq_nextU32 h, h]
    exact ⟨rfl, rfl⟩
  · rw [decode_eq_nextU64 h, h]
    exact ⟨rfl, rfl⟩
  · rw [decode_eq_nextBytes h, h]
    exact ⟨wellFormed_operandLength _, rfl⟩
  · rw [decode_eq_uniformF32 h, h]
    exact ⟨rfl, rfl⟩
  · rw [decode_eq_uniformF64 h, h]
    exact ⟨rfl, rfl⟩
  · rw [decode_eq_gaussianF32 h, h]
    exact ⟨rfl, rfl⟩
  · rw [decode_eq_gaussianF64 h, h]
    exact ⟨rfl, rfl⟩

/-- Settles O5, for every word by its opcode; the two named words are computed. -/
theorem everyCommandWordIsACommand : Obligations.EveryCommandWordIsACommand :=
  ⟨fun cw => ⟨decodeNumber_toNat cw, decode_wellFormed_and_opcode cw⟩, by decide, by decide⟩

end Sys2Proof.Machine
end

section
/-!
PROOFS. Responses and lines of assembly (spec/30_encoding.md sections 4 to 6, R52 to R58).
-/

namespace Sys2Proof.Machine

/-! ## The response word (R52, R53) -/

theorem extractStatus_responseWord (r : Response) : (responseWord r).extractLsb' 64 2 = statusCode r.status :=
  BitVec.extractLsb'_append_eq_left

theorem extractData_responseWord (r : Response) : (responseWord r).extractLsb' 0 64 = r.data :=
  BitVec.extractLsb'_append_eq_right

/-- Settles O6: the two parts of the concatenation that is the response word; the codes are those of the table. -/
theorem responseWordHoldsStatusAndData : Obligations.ResponseWordHoldsStatusAndData :=
  ⟨fun r => ⟨extractStatus_responseWord r, extractData_responseWord r⟩, rfl, rfl, rfl, rfl⟩

/-! ## Values of runs -/

/-- If a run ends with a value, then with one of which `P` holds. -/
def Run.Yields {α : Type} (P : α → Prop) : Run α → Prop
  | .value v _ => P v
  | .raised _ _ => True
  | .stuck => True

theorem Run.Yields.andThen {α β : Type} {Q : α → Prop} {P : β → Prop} {r : Run α} {k : α → State → Run β}
    (hr : r.Yields Q) (hk : ∀ v t, Q v → (k v t).Yields P) : (r.andThen k).Yields P := by
  cases r with
  | value v t => exact hk v t hr
  | raised c t => trivial
  | stuck => trivial

/-- Whatever the first part of a run is, the second decides what the run yields. -/
theorem yields_andThen {α β : Type} {P : β → Prop} (r : Run α) {k : α → State → Run β}
    (hk : ∀ v t, (k v t).Yields P) : (r.andThen k).Yields P := by
  cases r with
  | value v t => exact hk v t
  | raised c t => trivial
  | stuck => trivial

theorem yields_raise {α : Type} {P : α → Prop} (c : Condition) (s : State) : (raise c s : Run α).Yields P := by
  cases c <;> trivial

/-- A command that answers does so with what its run yields or with the response of a condition. -/
theorem Run.Yields.of_finish {P : Response → Prop} {r : Run Response} {t : State} (hr : r.Yields P)
    (herr : ∀ c, P (errorResponse c)) (h : finish r = .next t) : ∃ a u, P a ∧ t = respond a u := by
  rcases finish_eq_next.mp h with ⟨a, u, rfl, rfl⟩ | ⟨c, u, rfl, rfl⟩
  · exact ⟨a, u, hr, rfl⟩
  · exact ⟨errorResponse c, u, herr c, rfl⟩

theorem yields_guardedRun {P : Response → Prop} {body : State → Run Response} (hb : ∀ s, (body s).Yields P) (s : State) :
    (guardedRun body s).Yields P := by
  unfold guardedRun
  split
  · exact yields_raise .fatal s
  · exact hb s

/-! ## Lengths of byte streams (R86, R87) -/

@[simp] theorem length_bytesBE (v : Word) : (bytesBE v).length = 4 := rfl

theorem drawBytes_yields_length (q : Nat) (s : State) : (drawBytes q s).Yields fun out => out.length = 4 * q := by
  induction q generalizing s with
  | zero => rfl
  | succ q ih =>
    refine yields_andThen _ fun v t => (ih t).andThen fun out _ hout => ?_
    change (bytesBE v ++ out).length = 4 * (q + 1)
    rw [List.length_append, length_bytesBE, hout]
    omega

theorem drawTail_yields_length {r : Nat} (h : r < 4) (s : State) : (drawTail r s).Yields fun tail => tail.length = r := by
  unfold drawTail
  split
  · next h0 => exact h0.symm
  · exact yields_andThen _ fun v _ => List.length_take_of_le h.le

theorem drawStream_yields_length (length : Nat) (s : State) :
    (drawStream length s).Yields fun out => out.length = length := by
  refine (drawBytes_yields_length (length / 4) s).andThen fun out t hout => ?_
  refine (drawTail_yields_length (Nat.mod_lt length (by decide)) t).andThen fun tail _ htail => ?_
  change (out ++ tail).length = length
  rw [List.length_append, hout, htail, Nat.div_add_mod]

/-! ## The form of a response (R54, R55) -/

/-- The form of a response to a command: no data for `SEED`, a zero-extended 32-bit result for three commands, as many bytes as `data`
says for `NEXT_BYTES`, and no bytes for any other command. -/
def HasFormOf : Instr → Response → Prop
  | .seed _, r => r.data = 0 ∧ r.bytes = []
  | .nextU32, r | .uniformF32 _ _, r | .gaussianF32 _ _, r => r.data.toNat < 2 ^ 32 ∧ r.bytes = []
  | .nextBytes _, r => r.bytes.length = r.data.toNat
  | .nextU64, r | .uniformF64 _ _, r | .gaussianF64 _ _, r => r.bytes = []

/-- The response of a condition, with `data` 0 and no bytes, has the form of every command. -/
theorem errorResponse_hasFormOf (i : Instr) (c : Condition) : HasFormOf i (errorResponse c) := by
  cases i <;> simp [HasFormOf, errorResponse]

theorem response32_data_lt (v : BitVec 32) : (response32 v).data.toNat < 2 ^ 32 :=
  calc (response32 v).data.toNat
    _ = v.toNat := BitVec.toNat_setWidth_of_le (by decide)
    _ < 2 ^ 32 := v.isLt

/-- A served length is far below `2^64`, so `data` holds it (R127). -/
theorem responseBytes_hasFormOf {length : Int} {out : List Byte} (h : length ≤ Config.maxBytes)
    (hout : out.length = length.toNat) : HasFormOf (.nextBytes length) (responseBytes length.toNat out) := by
  have hlt : length.toNat < 2 ^ 64 := by
    rw [Config.maxBytes] at h
    omega
  change out.length = (BitVec.ofNat 64 length.toNat).toNat
  rw [hout, BitVec.toNat_ofNat, Nat.mod_eq_of_lt hlt]

/-- Every command is the frame of every command around a body that yields a response of the command's form. -/
theorem exec_eq_command_hasFormOf (i : Instr) :
    ∃ body, (∀ s, exec i s = command s body) ∧ ∀ s, (body s).Yields (HasFormOf i) := by
  cases i with
  | seed seed => exact ⟨_, fun _ => rfl, fun _ => ⟨rfl, rfl⟩⟩
  | nextU32 => exact ⟨_, fun _ => rfl, fun _ => yields_andThen _ fun _ _ => ⟨response32_data_lt _, rfl⟩⟩
  | nextU64 => exact ⟨_, fun _ => rfl, fun _ => yields_andThen _ fun _ _ => rfl⟩
  | nextBytes length =>
    refine ⟨_, fun _ => rfl, fun s => ?_⟩
    split
    · exact yields_raise .invalidArgument s
    split
    · exact yields_raise .resourceLimitExceeded s
    · next hmax =>
      exact (drawStream_yields_length length.toNat s).andThen fun _ _ => responseBytes_hasFormOf (Int.not_lt.mp hmax)
  | uniformF32 lower upper => exact ⟨_, fun _ => rfl, fun _ => yields_andThen _ fun _ _ => ⟨response32_data_lt _, rfl⟩⟩
  | uniformF64 lower upper => exact ⟨_, fun _ => rfl, fun _ => yields_andThen _ fun _ _ => rfl⟩
  | gaussianF32 mean sigma =>
    exact ⟨_, fun _ => rfl, fun _ => yields_andThen _ fun _ _ => yields_andThen _ fun _ _ => ⟨response32_data_lt _, rfl⟩⟩
  | gaussianF64 mean sigma =>
    exact ⟨_, fun _ => rfl, fun _ => yields_andThen _ fun _ _ => yields_andThen _ fun _ _ => rfl⟩

/-- The one response a command appends has the command's form. -/
theorem response_hasFormOf {i : Instr} {s t : State} {r : Response} (h : exec i s = .next t)
    (hr : t.responses = s.responses ++ [r]) : HasFormOf i r := by
  obtain ⟨body, hexec, hb⟩ := exec_eq_command_hasFormOf i
  rw [hexec, command_eq_finish] at h
  obtain ⟨a, u, ha, rfl⟩ := (yields_guardedRun hb s).of_finish (errorResponse_hasFormOf i) h
  obtain ⟨-, rfl⟩ := List.append_singleton_inj.mp hr
  exact ha

/-- Settles O34, clause by clause from the form of the command's response. -/
theorem responseFieldsHaveTheStatedForm : Obligations.ResponseFieldsHaveTheStatedForm := by
  unfold Obligations.ResponseFieldsHaveTheStatedForm
  intro i s t r h hr
  have hform := response_hasFormOf h hr
  refine ⟨?_, ?_, ?_, fun hi => ?_⟩
  · rintro ⟨seed, rfl⟩
    exact hform.1
  · rintro (rfl | ⟨lower, upper, rfl⟩ | ⟨mean, sigma, rfl⟩) <;> exact hform.1
  · rintro ⟨length, rfl⟩
    exact hform
  · cases i with
    | nextBytes length => exact absurd rfl (hi length)
    | seed | nextU32 | uniformF32 | gaussianF32 => exact hform.2
    | nextU64 | uniformF64 | gaussianF64 => exact hform

/-! ## Lines of assembly (R56, R58) -/

/-- Lines with operands: an unsigned, a signed and two pairs of decimal literals, one line with a comment (R56, R57). -/
theorem assembleLine_with_operands :
    assembleLine "SEED 0xFFFFFFFF".toList = some (.command 0x0000000000000000000000000FFFFFFFF#131) ∧
    assembleLine "NEXT_BYTES -1 ; refused".toList = some (.command 0x3000000000000000000000000FFFFFFFF#131) ∧
    assembleLine "UNIFORM_F32 -5.0, 5.0".toList = some (.command 0x40000000040A0000000000000C0A00000#131) ∧
    assembleLine "GAUSSIAN_F64 10.0, 2.0".toList = some (.command 0x740000000000000004024000000000000#131) := by
  decide +kernel

/-- The pseudo-instructions and the directive, and the mnemonic that has no operand-free form (R58). -/
theorem assembleLine_without_operands :
    assembleLine "SEED_DEFAULT".toList = some (.command 0x000000000000000000000000000001571#131) ∧
    assembleLine "UNIFORM_F32".toList = some (.command 0x4000000003F8000000000000000000000#131) ∧
    assembleLine "UNIFORM_F64".toList = some (.command 0x53FF00000000000000000000000000000#131) ∧
    assembleLine "GAUSSIAN_F32".toList = none ∧
    assembleLine "RESET".toList = some .reset := by
  decide +kernel

/-- Settles O7, by assembling the lines. -/
theorem workedLinesAssemble : Obligations.WorkedLinesAssemble := by
  obtain ⟨hseed, hbytes, huniform, hgaussian⟩ := assembleLine_with_operands
  exact ⟨hseed, hbytes, huniform, hgaussian, assembleLine_without_operands⟩

end Sys2Proof.Machine
end

section
/-!
PROOFS. The Bit Generator (spec/40_bitgen.md R65 to R75): the operands of its two commands, seeding, the twist word by word, tempering, and
the next-word operation by the value of the cursor.
-/

namespace Sys2Proof.Machine

/-! ## The multiplier and seeding (R65, R68, R69) -/

/-- Settles O14: the halves make the product of the two words, and the examples are computed. -/
theorem multiplierKeepsTheLow32Bits : Obligations.MultiplierKeepsTheLow32Bits := by
  unfold Obligations.MultiplierKeepsTheLow32Bits
  refine ⟨fun p q => ⟨?_, ?_⟩, by decide⟩
  · rw [mul32_eq_mul, BitVec.toNat_mul]
  · rw [mul32_eq_mul, mul32_eq_mul, BitVec.mul_comm]

/-- The frame of a command refused because of the flag, field by field (R129, R130). -/
theorem exec_of_fatal (i : Instr) {s : State} (hs : s.fatal = true) :
    exec i s = .next { s with responses := s.responses ++ [⟨.fatal, 0, []⟩] } := by
  obtain ⟨body, -, hexec⟩ := exec_eq_command_ignoresChannels i
  rw [hexec, command_of_fatal hs]
  rfl

/-- Settles O15: op 0 selects `SEED`, the flag refuses it, and otherwise it leaves the array of the recurrence. -/
theorem seedFillsTheArrayByTheRecurrence : Obligations.SeedFillsTheArrayByTheRecurrence := by
  unfold Obligations.SeedFillsTheArrayByTheRecurrence
  refine ⟨fun b a => ?_, fun seed s => ⟨exec_of_fatal (.seed seed), fun hs => ?_⟩⟩
  · rw [decode_eq_seed (Laws.EncodedOpcode.fieldOp_packWord 0 b a), fieldA_packWord, operand32]
  · exact ⟨seedArray seed, isSeedArray_seedArray seed, exec_seed_of_not_fatal seed hs⟩

/-- Settles O16: what `SEED` leaves in the array and the cursor is named by the seed alone, and a seeded state has the flag of the state
before, so that it can be seeded again. -/
theorem seedingForgetsThePreviousArray : Obligations.SeedingForgetsThePreviousArray := by
  unfold Obligations.SeedingForgetsThePreviousArray
  intro seed s s' t t' hs hs' h h'
  rw [exec_seed_of_not_fatal seed hs] at h
  rw [exec_seed_of_not_fatal seed hs'] at h'
  cases h
  cases h'
  refine ⟨rfl, rfl, fun u hu => ?_⟩
  rw [exec_seed_of_not_fatal seed (by simpa using hs)] at hu
  cases hu
  exact ⟨rfl, rfl⟩

/-! ## The twist, word by word (R70 to R72) -/

/-- The oddness that `MIX` tests is bit 0 of the next word: the current word gives the top bit alone (R70). -/
theorem getLsbD_zero_of_masks (cur nxt : Word) :
    ((cur &&& Const.upperMask) ||| (nxt &&& Const.lowerMask)).getLsbD 0 = nxt.getLsbD 0 := by
  have hupper : Const.upperMask.getLsbD 0 = false := rfl
  have hlower : Const.lowerMask.getLsbD 0 = true := rfl
  rw [BitVec.getLsbD_or, BitVec.getLsbD_and, BitVec.getLsbD_and, hupper, hlower, Bool.and_false, Bool.false_or,
    Bool.and_true]

theorem mix_eq (cur nxt mid : Word) : mix cur nxt mid =
    mid ^^^ ((((cur &&& Const.upperMask) ||| (nxt &&& Const.lowerMask)) >>> 1) ^^^
      (if nxt.getLsbD 0 then Const.a else 0#32)) := by
  simp only [mix, getLsbD_zero_of_masks]
  cases nxt.getLsbD 0 with
  | true => rfl
  | false => simp

/-- Settles O17: `MIX` by the oddness of the next word, the frame by the definition of `TWIST()`. -/
theorem twistMixesAndClearsTheCursor : Obligations.TwistMixesAndClearsTheCursor := by
  unfold Obligations.TwistMixesAndClearsTheCursor
  exact ⟨mix_eq, fun _ => rfl⟩

/-- Each word that `twistFrom` lists is the twist's word after the words listed before it. -/
theorem getElem_twistFrom (order : TwistOrder) (o : StateArray) (k i : Nat) (done : List Word) (j : Nat)
    (h : j < (twistFrom order o k i done).length) :
    (twistFrom order o k i done)[j] =
      twistWord order o (((twistFrom order o k i done).take j).reverse ++ done) (i + j) := by
  induction k generalizing i done j with
  | zero => simp [twistFrom] at h
  | succ k ih =>
    cases j with
    | zero => simp [twistFrom]
    | succ j =>
      have hj : j < (twistFrom order o k (i + 1) (twistWord order o done i :: done)).length := by
        simpa [twistFrom] using h
      simpa [twistFrom, Nat.add_assoc, Nat.add_comm 1 j] using ih (i + 1) (twistWord order o done i :: done) j hj

/-- The words that a twist has rewritten when it comes to word `i`, newest first. -/
def rewrittenBefore (order : TwistOrder) (o : StateArray) (i : Nat) : List Word :=
  ((twistFrom order o 624 0 []).take i).reverse

theorem wordAt_twistWith_eq_getElem (order : TwistOrder) (o : StateArray) {i : Nat} (h : i < 624) :
    wordAt (twistWith order o) i = (twistFrom order o 624 0 [])[i]'(by simpa [twistFrom_length] using h) := by
  rw [wordAt_of_lt _ h]
  simp [twistWith]

/-- The regenerated word `i` is the twist's word after those before it. -/
theorem wordAt_twistWith (order : TwistOrder) (o : StateArray) {i : Nat} (h : i < 624) :
    wordAt (twistWith order o) i = twistWord order o (rewrittenBefore order o i) i := by
  rw [wordAt_twistWith_eq_getElem order o h, getElem_twistFrom, List.append_nil, Nat.zero_add, rewrittenBefore]

/-- A word not yet rewritten reads as it stood when the twist began, in both orders (R72). -/
theorem twistRead_of_le (order : TwistOrder) (o : StateArray) (done : List Word) {i j : Nat} (h : i ≤ j) :
    twistRead order o done i j = wordAt o j := if_neg (Nat.not_lt.mpr h)

theorem twistRead_snapshot (o : StateArray) (done : List Word) (i j : Nat) :
    twistRead .snapshot o done i j = wordAt o j := ite_self _

/-- A word already rewritten reads, in the sequential order, as the regenerated word (R71). -/
theorem twistRead_sequential_of_lt (o : StateArray) {i j : Nat} (hj : j < i) (hi : i < 624) :
    twistRead .sequential o (rewrittenBefore .sequential o i) i j = wordAt (twistWith .sequential o) j := by
  have hlen : ((twistFrom .sequential o 624 0 []).take i).length = i :=
    List.length_take_of_le (by simpa [twistFrom_length] using hi.le)
  have hrev : i - 1 - (i - 1 - j) = j := by omega
  rw [wordAt_twistWith_eq_getElem _ _ (hj.trans hi), twistRead, if_pos hj, rewrittenBefore, List.getD_eq_getElem?_getD,
    List.getElem?_reverse (by omega), hlen, hrev, List.getElem?_take_of_lt hj, List.getElem?_eq_getElem, Option.getD_some]

/-- Words 0 to 226 read no word already rewritten, so that both orders give `MIX` of old words (R72). -/
theorem wordAt_twistWith_of_lt (order : TwistOrder) (o : StateArray) {i : Nat} (h : i < 227) :
    wordAt (twistWith order o) i = mix (wordAt o i) (wordAt o ((i + 1) % 624)) (wordAt o ((i + 397) % 624)) := by
  have hnext : i ≤ (i + 1) % 624 := by omega
  have hmid : i ≤ (i + 397) % 624 := by omega
  rw [wordAt_twistWith order o (by omega), twistWord, twistRead_of_le _ _ _ le_rfl, twistRead_of_le _ _ _ hnext,
    twistRead_of_le _ _ _ hmid]

/-- The array's content in a sequential twist when it comes to word `i`: the words before `i` rewritten, the others as they stood (R71). -/
def contentAt (o : StateArray) (i j : Nat) : Word :=
  if j < i then wordAt (twistWith .sequential o) j else wordAt o j

theorem twistRead_sequential (o : StateArray) {i : Nat} (hi : i < 624) (j : Nat) :
    twistRead .sequential o (rewrittenBefore .sequential o i) i j = contentAt o i j := by
  unfold contentAt
  split
  · next hj => exact twistRead_sequential_of_lt o hj hi
  · next hj => exact twistRead_of_le _ _ _ (Nat.not_lt.mp hj)

/-- The regenerated word `i` is `MIX` of the array's content at that moment (R71). -/
theorem wordAt_twistWith_sequential (o : StateArray) {i : Nat} (h : i < 624) :
    wordAt (twistWith .sequential o) i =
      mix (contentAt o i i) (contentAt o i ((i + 1) % 624)) (contentAt o i ((i + 397) % 624)) := by
  simp only [wordAt_twistWith .sequential o h, twistWord, twistRead_sequential o h]

/-- Coming to the next word rewrites word `i` and no other. -/
theorem contentAt_succ_self (o : StateArray) (i : Nat) : contentAt o (i + 1) i = wordAt (twistWith .sequential o) i :=
  if_pos (Nat.lt_succ_self i)

theorem contentAt_succ_of_ne (o : StateArray) {i j : Nat} (h : j ≠ i) : contentAt o (i + 1) j = contentAt o i j := by
  have hlt : j < i + 1 ↔ j < i := by omega
  simp only [contentAt, hlt]

/-- Settles O18, by induction on the steps of the loop: before step `i` the trace holds the content of the twist at word `i`. -/
theorem sequentialTwistIsTheInPlaceLoop : Obligations.SequentialTwistIsTheInPlaceLoop := by
  unfold Obligations.SequentialTwistIsTheInPlaceLoop
  intro o a hstart hstep
  have htrace : ∀ i, i ≤ 624 → ∀ j, j < 624 → a i j = contentAt o i j := by
    intro i
    induction i with
    | zero => exact fun _ => hstart
    | succ i ih =>
      intro hi j hj
      have hcontent := ih (Nat.le_of_succ_le hi)
      obtain ⟨hself, hother⟩ := hstep i hi
      by_cases hji : j = i
      · subst hji
        rw [hself, hcontent _ hj, hcontent _ (Nat.mod_lt _ (by decide)), hcontent _ (Nat.mod_lt _ (by decide)),
          contentAt_succ_self, wordAt_twistWith_sequential o hj]
      · rw [hother j hj hji, hcontent j hj, contentAt_succ_of_ne o hji]
  intro j hj
  rw [htrace 624 le_rfl j hj, contentAt, if_pos hj]

/-- In the snapshot order every word is `MIX` of old words (R72). -/
theorem wordAt_twistWith_snapshot (o : StateArray) {i : Nat} (h : i < 624) :
    wordAt (twistWith .snapshot o) i =
      mix (wordAt o i) (wordAt o ((i + 1) % 624)) (wordAt o ((i + 397) % 624)) := by
  simp only [wordAt_twistWith .snapshot o h, twistWord, twistRead_snapshot]

theorem mix_right_inj (cur nxt mid mid' : Word) : mix cur nxt mid = mix cur nxt mid' ↔ mid = mid' :=
  BitVec.xor_left_inj _

/-- Word 227 has word 0 as its middle word, the first one already rewritten; its other two words are old in both orders. -/
theorem twistWith_agree_at_227_iff (o : StateArray) :
    wordAt (twistWith .sequential o) 227 = wordAt (twistWith .snapshot o) 227 ↔
      wordAt (twistWith .sequential o) 0 = wordAt o 0 := by
  rw [wordAt_twistWith_snapshot o (by decide), wordAt_twistWith_sequential o (by decide)]
  exact mix_right_inj (wordAt o 227) (wordAt o 228) _ _

/-- Settles O19: the snapshot's words, the words both orders read alike, and for seed 5489 a word 0 that the twist changes. -/
theorem snapshotTwistReadsTheOldArray : Obligations.SnapshotTwistReadsTheOldArray := by
  unfold Obligations.SnapshotTwistReadsTheOldArray
  refine ⟨fun o i => wordAt_twistWith_snapshot o, fun o i hi => ?_, ?_⟩
  · rw [wordAt_twistWith_of_lt .sequential o hi, wordAt_twistWith_of_lt .snapshot o hi]
  · rw [Ne, twistWith_agree_at_227_iff, wordAt_twistWith_of_lt .sequential _ (by decide)]
    decide +kernel

/-! ## Tempering (R73) -/

/-- A right XOR-shift stage loses nothing: from the top bit down, each bit is the result's bit with a bit above it taken out. -/
theorem xorShiftRight_injective {w k : Nat} (hk : 0 < k) (mask : BitVec w) :
    Function.Injective fun y : BitVec w => y ^^^ ((y >>> k) &&& mask) := by
  intro y z h
  have hbits : ∀ d i, w ≤ i + d → y.getLsbD i = z.getLsbD i := by
    intro d
    induction d with
    | zero => exact fun i hi => by rw [BitVec.getLsbD_of_ge y i hi, BitVec.getLsbD_of_ge z i hi]
    | succ d ih =>
      intro i hi
      have hbit := congrArg (fun v : BitVec w => v.getLsbD i) h
      simp only [BitVec.getLsbD_xor, BitVec.getLsbD_and, BitVec.getLsbD_ushiftRight] at hbit
      rw [ih (k + i) (by omega)] at hbit
      exact Bool.xor_left_inj.mp hbit
  exact BitVec.eq_of_getLsbD_eq fun i _ => hbits w i (Nat.le_add_left w i)

/-- A left XOR-shift stage loses nothing: from bit 0 up, each bit is the result's bit with a bit below it taken out. -/
theorem xorShiftLeft_injective {w k : Nat} (hk : 0 < k) (mask : BitVec w) :
    Function.Injective fun y : BitVec w => y ^^^ ((y <<< k) &&& mask) := by
  intro y z h
  refine BitVec.eq_of_getLsbD_eq fun i => ?_
  induction i using Nat.strong_induction_on with
  | _ i ih =>
    intro hi
    have hbit := congrArg (fun v : BitVec w => v.getLsbD i) h
    simp only [BitVec.getLsbD_xor, BitVec.getLsbD_and, BitVec.getLsbD_shiftLeft] at hbit
    by_cases hki : i < k
    · simpa [hki] using hbit
    · rw [ih (i - k) (by omega) (by omega)] at hbit
      exact Bool.xor_left_inj.mp hbit

/-- Tempering is a composition of four XOR-shift stages, the last one with a mask of ones (R73). -/
theorem temper_eq_comp :
    temper = (fun y : Word => y ^^^ ((y >>> Const.l) &&& BitVec.allOnes 32)) ∘ (fun y : Word => y ^^^ ((y <<< Const.t) &&& Const.c)) ∘
      (fun y : Word => y ^^^ ((y <<< Const.s) &&& Const.b)) ∘ (fun y : Word => y ^^^ ((y >>> Const.u) &&& Const.d)) := by
  funext y
  simp only [temper, Function.comp_apply, BitVec.and_allOnes]

theorem temper_injective : Function.Injective temper := by
  rw [temper_eq_comp]
  exact (xorShiftRight_injective (by decide) _).comp <| (xorShiftLeft_injective (by decide) _).comp <|
    (xorShiftLeft_injective (by decide) _).comp <| xorShiftRight_injective (by decide) _

/-- An injection of the finitely many words into themselves is a bijection. -/
theorem temper_bijective : Function.Bijective temper := by
  have : Finite Word := .of_injective BitVec.toFin fun _ _ => BitVec.eq_of_toFin_eq
  exact Finite.injective_iff_bijective.mp temper_injective

theorem temper_zero : temper 0 = 0 := by decide

/-- Settles O20: the stages by definition, the bijection from each stage's injectivity. -/
theorem temperingIsTheFourStagesAndABijection : Obligations.TemperingIsTheFourStagesAndABijection := by
  unfold Obligations.TemperingIsTheFourStagesAndABijection
  refine ⟨fun _ => rfl, temper_bijective, fun y => ?_⟩
  exact ⟨fun h => temper_injective (h.trans temper_zero.symm), fun h => h ▸ temper_zero⟩

/-! ## Next word by the cursor (R74, R75) -/

/-- With every word consumed a next-word operation twists, draws word 0 and leaves the cursor at 1. -/
theorem nextWord_of_full {s : State} (h : s.index = 624) :
    nextWord s = .value (temper (wordAt (twistArray s.x) 0)) { s with x := twistArray s.x, index := 1 } := by
  rw [nextWord_of_le (by simp [h]), twistIfDue_of_full h]
  rfl

/-- With a word left a next-word operation draws the word at the cursor. -/
theorem nextWord_of_lt {s : State} (h : s.index.toNat < 624) :
    nextWord s = .value (temper (wordAt s.x s.index.toNat)) { s with index := s.index + 1 } := by
  rw [nextWord_of_le h.le, twistIfDue_of_lt h, drawWord]

/-- Settles O21, one clause of the cursor by one lemma. -/
theorem nextWordFollowsTheCursor : Obligations.NextWordFollowsTheCursor := by
  unfold Obligations.NextWordFollowsTheCursor
  exact fun s => ⟨nextWord_of_gt, nextWord_of_full, fun h => ⟨nextWord_of_lt h, index_succ_toNat h⟩⟩

/-- With the flag clear `NEXT_U32` responds what the next-word operation draws (R75). -/
theorem exec_nextU32_of_not_fatal {s : State} (hs : s.fatal = false) :
    exec .nextU32 s = finish ((nextWord s).andThen fun v t => .value (response32 v) t) :=
  command_of_not_fatal hs fun s => (nextWord s).andThen fun v t => .value (response32 v) t

/-- `NEXT_U32` with every word consumed (R75). -/
theorem exec_nextU32_of_full {s : State} (hs : s.fatal = false) (h : s.index = 624) :
    exec .nextU32 s = .next { s with
      x := twistArray s.x, index := 1,
      responses := s.responses ++ [⟨.ok, (temper (wordAt (twistArray s.x) 0)).setWidth 64, []⟩] } := by
  rw [exec_nextU32_of_not_fatal hs, nextWord_of_full h]
  rfl

/-- Settles O22, by what the next-word operation does at each value of the cursor. -/
theorem nextU32RespondsTheDrawnWord : Obligations.NextU32RespondsTheDrawnWord := by
  unfold Obligations.NextU32RespondsTheDrawnWord
  refine ⟨fun b a => decode_eq_nextU32 (Laws.EncodedOpcode.fieldOp_packWord 1 b a), fun s =>
    ⟨exec_of_fatal .nextU32, fun hs h => ?_, exec_nextU32_of_full, fun hs h => ?_⟩⟩
  · rw [exec_nextU32_of_not_fatal hs, nextWord_of_gt h]
    rfl
  · rw [exec_nextU32_of_not_fatal hs, nextWord_of_lt h]
    rfl

/-- The first word after seeding with 5489, in either order: word 0 of a twist is `MIX` of old words (R75). -/
theorem temper_wordAt_twistArray_default :
    temper (wordAt (twistArray (seedArray Const.defaultSeed)) 0) = 0xD091BB5C#32 := by
  rw [twistArray, wordAt_twistWith_of_lt _ _ (by decide)]
  decide +kernel

/-- Settles O13: the presented word is `NEXT_U32`, which finds every word of the seeded array consumed. -/
theorem firstWordAfterResetIsTheKnownVector : Obligations.FirstWordAfterResetIsTheKnownVector := by
  unfold Obligations.FirstWordAfterResetIsTheKnownVector
  have htaken : takeMove (State.reset.withFetchWord 136 0x100000000000000000000000000000000) =
      some (.command 0x100000000000000000000000000000000#131, State.reset) := takeMove_presentNext _ State.reset
  have hdecode : decode 0x100000000000000000000000000000000#131 = .nextU32 := by decide
  have hword : temper (wordAt (twistArray State.reset.x) 0) = 0xD091BB5C#32 := temper_wordAt_twistArray_default
  rw [step_of_takeMove_command htaken, hdecode, exec_nextU32_of_full rfl rfl, hword]
  rfl

end Sys2Proof.Machine
end

section
/-!
PROOFS. Draws counted from a seeding (spec/40_bitgen.md R76): the state after `k` draws in closed form, and the words drawn on the way.
-/

namespace Sys2Proof.Machine

/-- The word of draw `i + 1`: word `i mod 624` of the array after `i / 624 + 1` twists (R76). -/
def drawnWord (s : State) (i : Nat) : Word := temper (wordAt (twistArray^[i / 624 + 1] s.x) (i % 624))

/-- The state after `k` draws from `s`, whose cursor is 624. Before the first draw the cursor stands at 624, not at 0, which `k + 623`
says for every `k`. -/
def stateAfterDraws (s : State) (k : Nat) : State :=
  { s with x := twistArray^[(k + 623) / 624] s.x, index := BitVec.ofNat 10 ((k + 623) % 624 + 1) }

theorem stateAfterDraws_zero {s : State} (h : s.index = 624) : stateAfterDraws s 0 = s :=
  calc stateAfterDraws s 0
    _ = { s with index := 624 } := rfl
    _ = s := by rw [← h]

/-- Draw `k + 1` twists first exactly when `k` is a multiple of 624. -/
theorem nextWord_stateAfterDraws (s : State) (k : Nat) :
    nextWord (stateAfterDraws s k) = .value (drawnWord s k) (stateAfterDraws s (k + 1)) := by
  have htwists : (k + 1 + 623) / 624 = k / 624 + 1 := by omega
  have hcursor : (k + 1 + 623) % 624 = k % 624 := by omega
  by_cases hfull : k % 624 = 0
  · have hx : (k + 623) / 624 = k / 624 := by omega
    have hindex : (k + 623) % 624 + 1 = 624 := by omega
    have hcur : (stateAfterDraws s k).index = 624 := by
      simp only [stateAfterDraws, hindex]
      rfl
    rw [nextWord_of_full hcur]
    simp [stateAfterDraws, drawnWord, htwists, hcursor, hx, hfull, Function.iterate_succ_apply']
  · have hx : (k + 623) / 624 = k / 624 + 1 := by omega
    have hindex : (k + 623) % 624 + 1 = k % 624 := by omega
    have hlt : k % 624 < 624 := Nat.mod_lt k (by decide)
    have hcur : (stateAfterDraws s k).index.toNat = k % 624 := by
      simp only [stateAfterDraws, hindex, BitVec.toNat_ofNat]
      exact Nat.mod_eq_of_lt (by omega)
    rw [nextWord_of_lt (hcur ▸ hlt), hcur]
    simp [stateAfterDraws, drawnWord, htwists, hcursor, hx, hindex, BitVec.ofNat_add]

/-- The words of the first `k` draws in order, and the state they leave (R76). -/
theorem drawWords_of_full {s : State} (h : s.index = 624) (k : Nat) :
    drawWords k s = .value ((List.range k).map (drawnWord s)) (stateAfterDraws s k) := by
  induction k with
  | zero => simp [drawWords, stateAfterDraws_zero h]
  | succ k ih =>
    have hlast : drawWords 1 (stateAfterDraws s k) = .value [drawnWord s k] (stateAfterDraws s (k + 1)) := by
      simp [drawWords, nextWord_stateAfterDraws]
    simpa [List.range_succ] using drawWords_append ih hlast

/-- Settles O23: the closed forms of the words and of the state, with the draws counted from 1. -/
theorem drawNumberingAfterSeeding : Obligations.DrawNumberingAfterSeeding := by
  unfold Obligations.DrawNumberingAfterSeeding
  intro s k hs hk
  have hcursor : (k - 1) % 624 = (k + 623) % 624 := by omega
  refine ⟨(List.range k).map (drawnWord s), ?_, by simp, fun j h1 hjk => ?_⟩
  · rw [drawWords_of_full hs, hcursor, stateAfterDraws]
  · have htwists : (j + 623) / 624 = (j - 1) / 624 + 1 := by omega
    have hj : j - 1 < k := by omega
    simp [drawnWord, htwists, hj]

end Sys2Proof.Machine
end

section
/-!
PROOFS. Wide integers and byte streams (spec/41_integer_bytes.md R85 to R88): what next-word operations in a row give and leave, how many of
them a byte stream makes, and the two commands in terms of the words drawn.
-/

namespace Sys2Proof.Machine

/-! ## The words a command draws (R74) -/

/-- In normal operation a next-word operation draws, and normal operation goes on. -/
theorem exists_nextWord_of_operational {s : State} (hs : Operational s) :
    ∃ v t, nextWord s = .value v t ∧ Operational t := by
  obtain ⟨hfatal, hcursor⟩ := hs
  obtain ⟨v, t, hv, -, h624, hflag, -⟩ := nextWord_value hcursor
  exact ⟨v, t, hv, hflag.trans hfatal, h624⟩

/-- In normal operation any number of words can be drawn. -/
theorem exists_drawWords_of_operational (k : Nat) {s : State} (hs : Operational s) :
    ∃ ws t, drawWords k s = .value ws t := by
  induction k generalizing s with
  | zero => exact ⟨[], s, rfl⟩
  | succ k ih =>
    obtain ⟨v, s1, hv, hs1⟩ := exists_nextWord_of_operational hs
    obtain ⟨vs, t, hvs⟩ := ih hs1
    exact ⟨v :: vs, t, by simp [drawWords, hv, hvs]⟩

/-- Drawing words moves the array and the cursor and nothing else. -/
theorem drawWords_frame {k : Nat} {s t : State} {ws : List Word} (h : drawWords k s = .value ws t) :
    t = { s with x := t.x, index := t.index } :=
  (Run.value.inj (h.symm.trans (drawWords_value_congr h rfl rfl))).2

/-- The state of a response given after drawing words, field by field against the state before them. -/
theorem respond_of_drawWords {k : Nat} {s t : State} {ws : List Word} (r : Response) (h : drawWords k s = .value ws t) :
    respond r t = { s with x := t.x, index := t.index, responses := s.responses ++ [r] } :=
  (congrArg (respond r) (drawWords_frame h) :)

theorem respond_responses_of_drawWords {k : Nat} {s t : State} {ws : List Word} (r : Response)
    (h : drawWords k s = .value ws t) : (respond r t).responses = s.responses ++ [r] :=
  (congrArg State.responses (respond_of_drawWords r h) :)

theorem drawWords_one {s t : State} {v : Word} (h : nextWord s = .value v t) : drawWords 1 s = .value [v] t := by
  simp [drawWords, h]

theorem drawWords_two {s s1 s2 : State} {v w : Word} (h1 : nextWord s = .value v s1) (h2 : nextWord s1 = .value w s2) :
    drawWords 2 s = .value [v, w] s2 := drawWords_append (drawWords_one h1) (drawWords_one h2)

theorem length_of_drawWords {k : Nat} {s t : State} {ws : List Word} (h : drawWords k s = .value ws t) :
    ws.length = k := by
  induction k generalizing s ws with
  | zero =>
    cases h
    rfl
  | succ k ih =>
    obtain ⟨v, s1, -, hrest⟩ := andThen_eq_value.mp h
    obtain ⟨vs, s2, hvs, hend⟩ := andThen_eq_value.mp hrest
    cases hend
    rw [List.length_cons, ih hvs]

/-- The last of the words drawn was drawn after the others. -/
theorem exists_of_drawWords_succ {k : Nat} {s t : State} {ws : List Word} (h : drawWords (k + 1) s = .value ws t) :
    ∃ vs u v, drawWords k s = .value vs u ∧ nextWord u = .value v t ∧ ws = vs ++ [v] := by
  induction k generalizing s ws with
  | zero =>
    obtain ⟨v, s1, hv, hend⟩ := andThen_eq_value.mp h
    cases hend
    exact ⟨[], s, v, rfl, hv, rfl⟩
  | succ k ih =>
    obtain ⟨w, s1, hw, hrest⟩ := andThen_eq_value.mp h
    obtain ⟨ws1, s2, hws1, hend⟩ := andThen_eq_value.mp hrest
    cases hend
    obtain ⟨vs, u, v, hvs, hv, rfl⟩ := ih hws1
    exact ⟨w :: vs, u, v, by simp [drawWords, hw, hvs], hv, rfl⟩

/-! ## Byte streams in terms of the words drawn (R86 to R88) -/

theorem length_flatMap_bytesBE (ws : List Word) : (ws.flatMap bytesBE).length = 4 * ws.length := by
  induction ws with
  | nil => rfl
  | cons v vs ih =>
    rw [List.flatMap_cons, List.length_append, length_bytesBE, ih, List.length_cons]
    omega

/-- The four bytes of a word, read as a big-endian number, are the word. -/
theorem toNat_eq_bigEndian (v : Word) :
    v.toNat = (((v.extractLsb' 24 8).toNat * 256 + (v.extractLsb' 16 8).toNat) * 256 + (v.extractLsb' 8 8).toNat) * 256 +
      (v.extractLsb' 0 8).toNat := by
  have hv := v.isLt
  simp only [BitVec.extractLsb'_toNat, Nat.shiftRight_eq_div_pow]
  omega

theorem drawBytes_of_drawWords {q : Nat} {s t : State} {ws : List Word} (h : drawWords q s = .value ws t) :
    drawBytes q s = .value (ws.flatMap bytesBE) t := by
  induction q generalizing s ws with
  | zero =>
    cases h
    rfl
  | succ q ih =>
    obtain ⟨v, s1, hv, hrest⟩ := andThen_eq_value.mp h
    obtain ⟨vs, s2, hvs, hend⟩ := andThen_eq_value.mp hrest
    cases hend
    simp [drawBytes, hv, ih hvs]

/-- A stream is the bytes of `ceil(length / 4)` words, cut to its length: a length that is no multiple of 4 draws one word more than it has
complete words, and takes the first bytes of it (R87, R88). -/
theorem drawStream_of_drawWords {length : Nat} {s t : State} {ws : List Word}
    (h : drawWords ((length + 3) / 4) s = .value ws t) :
    drawStream length s = .value ((ws.flatMap bytesBE).take length) t := by
  by_cases hr : length % 4 = 0
  · have hwords : (length + 3) / 4 = length / 4 := by omega
    rw [hwords] at h
    have hlen : (ws.flatMap bytesBE).length = length := by
      rw [length_flatMap_bytesBE, length_of_drawWords h]
      omega
    have htake : (ws.flatMap bytesBE).take length = ws.flatMap bytesBE := List.take_of_length_le hlen.le
    simp [drawStream, drawBytes_of_drawWords h, drawTail, hr, htake]
  · have hwords : (length + 3) / 4 = length / 4 + 1 := by omega
    rw [hwords] at h
    obtain ⟨vs, u, v, hvs, hv, rfl⟩ := exists_of_drawWords_succ h
    have hlen : length = (vs.flatMap bytesBE).length + length % 4 := by
      rw [length_flatMap_bytesBE, length_of_drawWords hvs, Nat.div_add_mod]
    have htake : (vs.flatMap bytesBE ++ bytesBE v).take length = vs.flatMap bytesBE ++ (bytesBE v).take (length % 4) := by
      conv_lhs => rw [hlen]
      exact List.take_length_add_append _
    simp [drawStream, drawBytes_of_drawWords hvs, drawTail, hr, hv, htake]

/-- Out of range the first draw of a stream raises `Fatal`: that of its first complete word, or of its tail (R87). -/
theorem drawStream_of_gt {length : Nat} (hpos : 0 < length) {s : State} (h : 624 < s.index.toNat) :
    drawStream length s = .raised .fatal (setFatal s) := by
  cases hq : length / 4 with
  | zero =>
    have hr : length % 4 ≠ 0 := by omega
    simp [drawStream, hq, drawBytes, drawTail, hr, nextWord_of_gt h]
  | succ q => simp [drawStream, hq, drawBytes, nextWord_of_gt h]

/-! ## `NEXT_U32` and `NEXT_U64` in terms of the words drawn (R75, R85) -/

theorem toNat_pair64 (hi lo : Word) : (pair64 hi lo).toNat = hi.toNat * 2 ^ 32 + lo.toNat := toNat_append_eq_mul_add hi lo

theorem toNat_data_response32 (v : Word) : (response32 v).data.toNat = v.toNat := BitVec.toNat_setWidth_of_le (by decide)

theorem exec_nextU32_of_nextWord {s t : State} {v : Word} (hs : s.fatal = false) (h : nextWord s = .value v t) :
    exec .nextU32 s = .next (respond (response32 v) t) := by
  rw [exec_nextU32_of_not_fatal hs, h]
  rfl

/-- With the flag clear `NEXT_U64` responds the pair it draws (R85). -/
theorem exec_nextU64_of_not_fatal {s : State} (hs : s.fatal = false) :
    exec .nextU64 s = finish ((nextPair s).andThen fun v t => .value (response64 v) t) :=
  command_of_not_fatal hs fun s => (nextPair s).andThen fun v t => .value (response64 v) t

theorem exec_nextU64_of_gt {s : State} (hs : s.fatal = false) (h : 624 < s.index.toNat) :
    exec .nextU64 s = .next (respond (errorResponse .fatal) (setFatal s)) := by
  rw [exec_nextU64_of_not_fatal hs, nextPair, nextWord_of_gt h]
  rfl

theorem exec_nextU64_of_nextWord {s s1 s2 : State} {hi lo : Word} (hs : s.fatal = false)
    (h1 : nextWord s = .value hi s1) (h2 : nextWord s1 = .value lo s2) :
    exec .nextU64 s = .next (respond (response64 (pair64 hi lo)) s2) := by
  simp [exec_nextU64_of_not_fatal hs, nextPair, h1, h2]

/-- Settles O25: op 2 selects `NEXT_U64`, the flag or the cursor refuses it, and otherwise the pair is responded from the state that the two
draws leave. -/
theorem nextU64RespondsHighWordFirst : Obligations.NextU64RespondsHighWordFirst := by
  unfold Obligations.NextU64RespondsHighWordFirst
  refine ⟨fun b a => decode_eq_nextU64 (Laws.EncodedOpcode.fieldOp_packWord 2 b a), fun s =>
    ⟨exec_of_fatal .nextU64, exec_nextU64_of_gt, fun hs => ?_⟩⟩
  obtain ⟨hi, s1, h1, hs1⟩ := exists_nextWord_of_operational hs
  obtain ⟨lo, s2, h2, -⟩ := exists_nextWord_of_operational hs1
  refine ⟨hi, lo, s1, s2, pair64 hi lo, h1, h2, toNat_pair64 hi lo, ?_⟩
  rw [exec_nextU64_of_nextWord hs.1 h1 h2, respond_of_drawWords _ (drawWords_two h1 h2)]
  rfl

/-- Settles O26: the second `NEXT_U32` starts from the state of the first draw with a response appended, and draws there the word that
`NEXT_U64` draws second. -/
theorem nextU64EqualsTwoNextU32 : Obligations.NextU64EqualsTwoNextU32 := by
  unfold Obligations.NextU64EqualsTwoNextU32
  intro s hs
  obtain ⟨hi, s1, h1, hs1⟩ := exists_nextWord_of_operational hs
  obtain ⟨lo, s2, h2, -⟩ := exists_nextWord_of_operational hs1
  have h2' := nextWord_value_congr (s' := respond (response32 hi) s1) h2 rfl rfl
  refine ⟨_, _, _, (response32 hi).data, (response32 lo).data, pair64 hi lo, exec_nextU32_of_nextWord hs.1 h1,
    respond_responses_of_drawWords (response32 hi) (drawWords_one h1), exec_nextU32_of_nextWord hs1.1 h2', rfl,
    exec_nextU64_of_nextWord hs.1 h1 h2,
    respond_responses_of_drawWords (response64 (pair64 hi lo)) (drawWords_two h1 h2), ?_, rfl, rfl⟩
  rw [toNat_pair64, toNat_data_response32, toNat_data_response32]

/-! ## `NEXT_BYTES` by its length (R87) -/

theorem exec_nextBytes_of_nonpos {length : Int} {s : State} (hs : s.fatal = false) (h : length ≤ 0) :
    exec (.nextBytes length) s = .next (respond (errorResponse .invalidArgument) s) := by
  simp [exec, execNextBytes, command_of_not_fatal hs, h]

theorem exec_nextBytes_of_oversized {length : Int} {s : State} (hs : s.fatal = false) (h : 10485760 < length) :
    exec (.nextBytes length) s = .next (respond (errorResponse .resourceLimitExceeded) s) := by
  have hpos : ¬ length ≤ 0 := by omega
  have hmax : (Config.maxBytes : Int) < length := h
  simp [exec, execNextBytes, command_of_not_fatal hs, hpos, hmax]

theorem exec_nextBytes_of_gt {length : Int} {s : State} (hs : s.fatal = false) (hlen : DrawsAWord (.nextBytes length))
    (h : 624 < s.index.toNat) :
    exec (.nextBytes length) s = .next (respond (errorResponse .fatal) (setFatal s)) := by
  rw [exec_nextBytes_served hlen, command_of_not_fatal hs, drawStream_of_gt (Int.pos_iff_toNat_pos.mp hlen.1) h]
  rfl

/-- A served `NEXT_BYTES` responds the bytes of `ceil(length / 4)` words, cut to its length, from the state that those draws leave (R87, R88). -/
theorem exec_nextBytes_of_drawWords {length : Nat} {s t : State} {ws : List Word} (hs : s.fatal = false)
    (hlen : DrawsAWord (.nextBytes length)) (h : drawWords ((length + 3) / 4) s = .value ws t) :
    exec (.nextBytes length) s = .next (respond (responseBytes length ((ws.flatMap bytesBE).take length)) t) := by
  rw [exec_nextBytes_served hlen, command_of_not_fatal hs, Int.toNat_natCast, drawStream_of_drawWords h]
  rfl

/-- The stream of a served length has that length: its words have at least as many bytes. -/
theorem length_take_flatMap_bytesBE {length : Nat} {s t : State} {ws : List Word}
    (h : drawWords ((length + 3) / 4) s = .value ws t) : ((ws.flatMap bytesBE).take length).length = length := by
  refine List.length_take_of_le ?_
  rw [length_flatMap_bytesBE, length_of_drawWords h]
  omega

/-- Settles O29: op 3 selects `NEXT_BYTES`, each refusal is one lemma in the order of the tests, and a served length responds the bytes of
the words drawn from the state that the draws leave. -/
theorem nextBytesRespondsTheBigEndianStream : Obligations.NextBytesRespondsTheBigEndianStream := by
  unfold Obligations.NextBytesRespondsTheBigEndianStream
  refine ⟨fun b a => ?_, fun length s => ⟨exec_of_fatal (.nextBytes length), exec_nextBytes_of_nonpos,
    exec_nextBytes_of_oversized, fun hs hpos hmax => exec_nextBytes_of_gt hs ⟨hpos, hmax⟩⟩, fun length s hpos hmax hs => ?_⟩
  · rw [decode_eq_nextBytes (Laws.EncodedOpcode.fieldOp_packWord 3 b a), fieldA_packWord, operandLength, operand32]
  · obtain ⟨ws, t, hws⟩ := exists_drawWords_of_operational ((length + 3) / 4) hs
    refine ⟨ws, t, _, hws, rfl, length_take_flatMap_bytesBE hws, ?_⟩
    have hlen : DrawsAWord (.nextBytes length) := ⟨Int.natCast_pos.mpr hpos, Int.ofNat_le.mpr hmax⟩
    rw [exec_nextBytes_of_drawWords hs.1 hlen hws, respond_of_drawWords _ hws]
    rfl

/-- Settles O30: four bytes are those of one word, the word that `NEXT_U32` draws from the same state. -/
theorem nextBytes4IsTheNextWordBigEndian : Obligations.NextBytes4IsTheNextWordBigEndian := by
  unfold Obligations.NextBytes4IsTheNextWordBigEndian
  intro s hs
  obtain ⟨v, t, hv, -⟩ := exists_nextWord_of_operational hs
  have hlen : DrawsAWord (.nextBytes (4 : Nat)) := by constructor <;> decide
  refine ⟨_, _, (response32 v).data, _, _, _, _, exec_nextU32_of_nextWord hs.1 hv,
    respond_responses_of_drawWords (response32 v) (drawWords_one hv),
    exec_nextBytes_of_drawWords hs.1 hlen (drawWords_one hv),
    respond_responses_of_drawWords (responseBytes 4 (bytesBE v)) (drawWords_one hv),
    (toNat_data_response32 v).trans (toNat_eq_bigEndian v), rfl, rfl⟩

end Sys2Proof.Machine
end

section
/-!
PROOFS. Rounding of exact magnitudes (spec/42_uniform.md R96), once for every format: the values of magnitude patterns, what it is that a
pattern is a rounding of an exact value (`IsRounding`), and that `roundMag` gives it. The statements about the primitives cite these facts.
-/

namespace Sys2Proof.Machine

/-! ## Values of magnitude patterns (R95) -/

section
variable (f : FloatFormat)

/-- The next pattern stands for one unit in the last place more. -/
theorem magUnits_succ (p : Nat) : magUnits f (p + 1) = magUnits f p + 2 ^ (p / 2 ^ f.fracBits - 1) := by
  unfold magUnits
  have hpos : 0 < 2 ^ f.fracBits := Nat.two_pow_pos _
  generalize 2 ^ f.fracBits = n at hpos
  have hp := Nat.div_add_mod p n
  have hlt := Nat.mod_lt p hpos
  generalize p / n = e, p % n = r at hp hlt
  obtain hr | hr : r + 1 < n ∨ r + 1 = n := by omega
  · have hdiv : (p + 1) / n = e := by
      rw [← hp, Nat.add_assoc, Nat.mul_add_div hpos, Nat.div_eq_of_lt hr, Nat.add_zero]
    have hmod : (p + 1) % n = r + 1 := by rw [← hp, Nat.add_assoc, Nat.mul_add_mod, Nat.mod_eq_of_lt hr]
    rw [hdiv, hmod]
    cases e with
    | zero => simp
    | succ e => simp only [Nat.add_eq_zero_iff, one_ne_zero, and_false, if_false, Nat.add_sub_cancel]; ring
  · have hdiv : (p + 1) / n = e + 1 := by
      rw [← hp, Nat.add_assoc, hr, Nat.mul_add_div hpos, Nat.div_self hpos]
    have hmod : (p + 1) % n = 0 := by rw [← hp, Nat.add_assoc, hr, Nat.mul_add_mod, Nat.mod_self]
    rw [hdiv, hmod, ← hr]
    cases e with
    | zero => simp
    | succ e => simp only [Nat.add_eq_zero_iff, one_ne_zero, and_false, if_false, Nat.add_sub_cancel]; ring

/-- Patterns are ordered as their values are. -/
theorem magUnits_strictMono : StrictMono (magUnits f) :=
  strictMono_nat_of_lt_succ fun p => by
    rw [magUnits_succ]
    exact Nat.lt_add_of_pos_right (Nat.two_pow_pos _)

@[simp] theorem magUnits_zero : magUnits f 0 = 0 := by simp [magUnits]

@[simp] theorem magUnits_eq_zero_iff {p : Nat} : magUnits f p = 0 ↔ p = 0 :=
  ⟨fun h => (magUnits_strictMono f).injective (h.trans (magUnits_zero f).symm), fun h => h ▸ magUnits_zero f⟩

/-- The pattern of the significand `q` at the binary exponent `t` above the subnormal range; a carry into the next exponent included. -/
theorem magUnits_significand {t q : Nat} (hq : q ≤ 2 * 2 ^ f.fracBits) (ht : t = 0 ∨ 2 ^ f.fracBits ≤ q) :
    magUnits f (t * 2 ^ f.fracBits + q) = q * 2 ^ t := by
  unfold magUnits
  have hpos : 0 < 2 ^ f.fracBits := Nat.two_pow_pos _
  generalize 2 ^ f.fracBits = n at *
  obtain hsub | ⟨c, hc⟩ | hcarry : q < n ∨ (∃ c < n, q = n + c) ∨ q = 2 * n := by
    rcases Nat.lt_or_ge q n with h | h
    · exact .inl h
    rcases Nat.lt_or_ge q (2 * n) with h' | h'
    · exact .inr (.inl ⟨q - n, by omega, by omega⟩)
    · exact .inr (.inr (by omega))
  · obtain rfl : t = 0 := by omega
    simp [Nat.div_eq_of_lt hsub, Nat.mod_eq_of_lt hsub]
  · obtain ⟨hc, rfl⟩ := hc
    have hp : t * n + (n + c) = n * (t + 1) + c := by ring
    simp [hp, Nat.mul_add_div hpos, Nat.div_eq_of_lt hc, Nat.mod_eq_of_lt hc]
  · have hp : t * n + q = n * (t + 2) := by rw [hcarry]; ring
    rw [hp, Nat.mul_div_cancel_left _ hpos, Nat.mul_mod_right, hcarry, if_neg (by omega)]
    simp only [Nat.add_zero, show t + 2 - 1 = t + 1 by omega]
    ring

/-- From the smallest normal value on, `j` more in the exponent field is a multiplication by `2^j`. -/
theorem magUnits_add_exponent {p : Nat} (hp : 2 ^ f.fracBits ≤ p) (j : Nat) :
    magUnits f (p + j * 2 ^ f.fracBits) = magUnits f p * 2 ^ j := by
  have hpos : 0 < 2 ^ f.fracBits := Nat.two_pow_pos _
  have hsig : ∀ t, magUnits f (t * 2 ^ f.fracBits + (2 ^ f.fracBits + p % 2 ^ f.fracBits)) =
      (2 ^ f.fracBits + p % 2 ^ f.fracBits) * 2 ^ t := fun t =>
    magUnits_significand f (by have := Nat.mod_lt p hpos; omega) (.inr (Nat.le_add_right _ _))
  obtain ⟨t, ht⟩ : ∃ t, p / 2 ^ f.fracBits = t + 1 := Nat.exists_eq_add_one.mpr (Nat.div_pos hp hpos)
  have hsplit : p = t * 2 ^ f.fracBits + (2 ^ f.fracBits + p % 2 ^ f.fracBits) := by
    conv_lhs => rw [← Nat.div_add_mod p (2 ^ f.fracBits), ht]
    ring
  calc magUnits f (p + j * 2 ^ f.fracBits)
    _ = magUnits f ((t + j) * 2 ^ f.fracBits + (2 ^ f.fracBits + p % 2 ^ f.fracBits)) := by
      conv_lhs => rw [hsplit]
      congr 1
      ring
    _ = magUnits f p * 2 ^ j := by
      conv_rhs => rw [hsplit]
      rw [hsig, hsig, pow_add, Nat.mul_assoc]

/-- Every multiple of a power of two with at most `p` significand bits is a value of the format, were its exponents unbounded. -/
theorem exists_magUnits_eq {q : Nat} (hq : q < 2 ^ (f.fracBits + 1)) (j : Nat) : ∃ p, magUnits f p = q * 2 ^ j := by
  induction j generalizing q with
  | zero => exact ⟨q, by simpa using magUnits_significand f (t := 0) (by omega) (.inl rfl)⟩
  | succ j ih =>
    rcases Nat.lt_or_ge q (2 ^ f.fracBits) with h | h
    · obtain ⟨p, hp⟩ := ih (q := 2 * q) (by omega)
      exact ⟨p, hp.trans (by ring)⟩
    · exact ⟨(j + 1) * 2 ^ f.fracBits + q, magUnits_significand f (by omega) (.inr h)⟩

/-! ## Roundings of an exact value (R96) -/

/-- Twice the midpoint between the value of pattern `p` and the next one. -/
def twiceMid (p : Nat) : Nat := magUnits f p + magUnits f (p + 1)

/-- Pattern `p` is the rounding of `num / den` units to nearest, ties to even, were the exponents unbounded: the exact value lies between the
midpoints on either side of `p`, and where it lies on one of them `p` is even. -/
structure IsRounding (p num den : Nat) : Prop where
  above : 2 * num ≤ twiceMid f p * den
  above_tie : 2 * num = twiceMid f p * den → p % 2 = 0
  below : ∀ q, q + 1 = p → twiceMid f q * den ≤ 2 * num
  below_tie : ∀ q, q + 1 = p → twiceMid f q * den = 2 * num → p % 2 = 0

end

theorem twiceMid_strictMono (f : FloatFormat) : StrictMono (twiceMid f) := fun _ _ h =>
  Nat.add_lt_add (magUnits_strictMono f h) (magUnits_strictMono f (Nat.succ_lt_succ h))

theorem two_mul_magUnits_lt_twiceMid (f : FloatFormat) (p : Nat) : 2 * magUnits f p < twiceMid f p := by
  have h := magUnits_strictMono f (Nat.lt_add_one p)
  rw [twiceMid]
  omega

theorem twiceMid_lt_two_mul_magUnits (f : FloatFormat) (p : Nat) : twiceMid f p < 2 * magUnits f (p + 1) := by
  have h := magUnits_strictMono f (Nat.lt_add_one p)
  rw [twiceMid]
  omega

section
variable {f : FloatFormat} {p num den : Nat}

theorem IsRounding.le_midpoint (h : IsRounding f p num den) {c : Nat} (hc : p < c) :
    2 * num ≤ (magUnits f p + magUnits f c) * den ∧
      (2 * num = (magUnits f p + magUnits f c) * den → p % 2 = 0) := by
  have hle : twiceMid f p * den ≤ (magUnits f p + magUnits f c) * den :=
    Nat.mul_le_mul_right den (Nat.add_le_add_left ((magUnits_strictMono f).monotone hc) _)
  exact ⟨h.above.trans hle, fun heq => h.above_tie (h.above.antisymm (heq ▸ hle))⟩

theorem IsRounding.midpoint_le (h : IsRounding f p num den) {c : Nat} (hc : c < p) :
    (magUnits f c + magUnits f p) * den ≤ 2 * num ∧
      ((magUnits f c + magUnits f p) * den = 2 * num → p % 2 = 0) := by
  obtain ⟨q, rfl⟩ : ∃ q, p = q + 1 := Nat.exists_eq_add_one.mpr (Nat.zero_lt_of_lt hc)
  have hle : (magUnits f c + magUnits f (q + 1)) * den ≤ twiceMid f q * den :=
    Nat.mul_le_mul_right den (Nat.add_le_add_right ((magUnits_strictMono f).monotone (Nat.le_of_lt_succ hc)) _)
  exact ⟨hle.trans (h.below q rfl), fun heq => h.below_tie q rfl ((h.below q rfl).antisymm (heq ▸ hle))⟩

/-- A rounding lies above pattern `q` exactly when the exact value lies above the midpoint that follows `q`, or on it with `q` odd. -/
theorem IsRounding.lt_iff (h : IsRounding f p num den) (hden : 0 < den) (q : Nat) :
    q < p ↔ twiceMid f q * den < 2 * num ∨ (twiceMid f q * den = 2 * num ∧ (q + 1) % 2 = 0) := by
  have hmid : StrictMono fun r => twiceMid f r * den := fun _ _ hr =>
    Nat.mul_lt_mul_of_pos_right (twiceMid_strictMono f hr) hden
  constructor
  · intro hq
    obtain ⟨r, rfl⟩ : ∃ r, p = r + 1 := Nat.exists_eq_add_one.mpr (Nat.zero_lt_of_lt hq)
    rcases (Nat.le_of_lt_succ hq).lt_or_eq with hlt | rfl
    · exact .inl ((hmid hlt).trans_le (h.below r rfl))
    · exact (h.below q rfl).lt_or_eq.imp_right fun heq => ⟨heq, h.below_tie q rfl heq⟩
  · intro hq
    by_contra hle
    rcases (Nat.le_of_not_lt hle).lt_or_eq with hlt | rfl
    · have habove : 2 * num < twiceMid f q * den := h.above.trans_lt (hmid hlt)
      omega
    · rcases hq with hlt | ⟨heq, heven⟩
      · exact absurd h.above (Nat.not_le.mpr hlt)
      · have hp := h.above_tie heq.symm
        omega

/-- An exact value that some pattern stands for rounds to that pattern. -/
theorem IsRounding.of_exact (hden : 0 < den) (h : magUnits f p * den = num) : IsRounding f p num den := by
  have habove : 2 * num < twiceMid f p * den := by
    rw [← h, ← Nat.mul_assoc]
    exact Nat.mul_lt_mul_of_pos_right (two_mul_magUnits_lt_twiceMid f p) hden
  have hbelow : ∀ q, q + 1 = p → twiceMid f q * den < 2 * num := by
    rintro q rfl
    rw [← h, ← Nat.mul_assoc]
    exact Nat.mul_lt_mul_of_pos_right (twiceMid_lt_two_mul_magUnits f q) hden
  exact ⟨habove.le, fun heq => absurd heq habove.ne, fun q hq => (hbelow q hq).le,
    fun q hq heq => absurd heq (hbelow q hq).ne⟩

/-- A larger exact value has no smaller rounding. -/
theorem IsRounding.mono {p' num' : Nat} (h : IsRounding f p num den) (h' : IsRounding f p' num' den) (hden : 0 < den)
    (hnum : num ≤ num') : p ≤ p' := by
  refine le_of_forall_lt fun q hq => (h'.lt_iff hden q).mpr ?_
  rcases (h.lt_iff hden q).mp hq with hlt | ⟨heq, heven⟩
  · exact .inl (by omega)
  · rcases hnum.lt_or_eq with hlt | rfl
    · exact .inl (by omega)
    · exact .inr ⟨heq, heven⟩

/-- An exact value has one rounding. -/
theorem IsRounding.unique {p' : Nat} (h : IsRounding f p num den) (h' : IsRounding f p' num den) (hden : 0 < den) :
    p = p' := (h.mono h' hden le_rfl).antisymm (h'.mono h hden le_rfl)

/-- A rounding depends on the exact value alone, on which side of each multiple of half a unit it lies. -/
theorem IsRounding.congr {num' den' : Nat} (h : IsRounding f p num den)
    (hlt : ∀ c, c * den < 2 * num ↔ c * den' < 2 * num') (hgt : ∀ c, 2 * num < c * den ↔ 2 * num' < c * den') :
    IsRounding f p num' den' := by
  have hle : ∀ c, c * den ≤ 2 * num ↔ c * den' ≤ 2 * num' := fun c => by
    rw [← Nat.not_lt, hgt, Nat.not_lt]
  have hge : ∀ c, 2 * num ≤ c * den ↔ 2 * num' ≤ c * den' := fun c => by
    rw [← Nat.not_lt, hlt, Nat.not_lt]
  exact ⟨(hge _).mp h.above, fun heq => h.above_tie (h.above.antisymm ((hle _).mpr heq.ge)),
    fun q hq => (hle _).mp (h.below q hq),
    fun q hq heq => h.below_tie q hq ((h.below q hq).antisymm ((hge _).mpr heq.ge))⟩

end

/-! ## `roundMag` rounds to nearest, ties to even (R96) -/

/-- `roundShift` narrows the integer quotient to nearest, ties to even: down at most by half a divisor, or up by at most half a divisor. -/
theorem roundShift_cases (m sh : Nat) :
    (roundShift m sh = m / 2 ^ sh ∧ 2 * (m % 2 ^ sh) ≤ 2 ^ sh ∧ (2 * (m % 2 ^ sh) = 2 ^ sh → m / 2 ^ sh % 2 = 0)) ∨
      (roundShift m sh = m / 2 ^ sh + 1 ∧ 2 ^ sh ≤ 2 * (m % 2 ^ sh) ∧
        (2 * (m % 2 ^ sh) = 2 ^ sh → m / 2 ^ sh % 2 = 1)) := by
  unfold roundShift
  dsimp only
  split
  · exact .inr ⟨rfl, by omega, by omega⟩
  · exact .inl ⟨rfl, by omega, by omega⟩

/-- The binary exponent of `m / 2^k` units above the subnormal range. -/
def exponentAbove (f : FloatFormat) (k m : Nat) : Nat := Nat.log2 (m / 2 ^ k) - f.fracBits

/-- What `roundMag` gives before it is cut at infinity. -/
def unboundedMag (f : FloatFormat) (k m : Nat) : Nat :=
  exponentAbove f k m * 2 ^ f.fracBits + roundShift m (k + exponentAbove f k m)

theorem roundMag_eq_min (f : FloatFormat) (k m : Nat) : roundMag f k m = min (unboundedMag f k m) (infMag f) := rfl

/-- The significand before rounding has at most `p` bits, and above the subnormal range exactly `p`. -/
theorem significand_bounds (f : FloatFormat) (k m : Nat) :
    m / 2 ^ (k + exponentAbove f k m) < 2 * 2 ^ f.fracBits ∧
      (exponentAbove f k m = 0 ∨ 2 ^ f.fracBits ≤ m / 2 ^ (k + exponentAbove f k m)) := by
  rw [pow_add, ← Nat.div_div_eq_div_mul]
  unfold exponentAbove
  generalize m / 2 ^ k = v
  constructor
  · rw [Nat.div_lt_iff_lt_mul (Nat.two_pow_pos _), ← pow_succ', ← pow_add]
    exact Nat.lt_log2_self.trans_le (Nat.pow_le_pow_right (by decide) (by omega))
  · refine (Nat.eq_zero_or_pos _).imp_right fun hpos => ?_
    have hv : v ≠ 0 := by
      rintro rfl
      simp at hpos
    rw [Nat.le_div_iff_mul_le (Nat.two_pow_pos _), ← pow_add,
      show f.fracBits + (v.log2 - f.fracBits) = v.log2 by omega]
    exact Nat.log2_self_le hv

theorem magUnits_unboundedMag (f : FloatFormat) (k m : Nat) :
    magUnits f (unboundedMag f k m) = roundShift m (k + exponentAbove f k m) * 2 ^ exponentAbove f k m := by
  obtain ⟨hlt, hnormal⟩ := significand_bounds f k m
  have hround := roundShift_cases m (k + exponentAbove f k m)
  exact magUnits_significand f (by omega) (by omega)

/-- The midpoint that follows a significand `q` is that of `q` and `q + 1`, also where `q + 1` carries into the next exponent. -/
theorem twiceMid_significand (f : FloatFormat) {t q : Nat} (hq : q < 2 * 2 ^ f.fracBits)
    (ht : t = 0 ∨ 2 ^ f.fracBits ≤ q) : twiceMid f (t * 2 ^ f.fracBits + q) = (2 * q + 1) * 2 ^ t := by
  have hnext : t = 0 ∨ 2 ^ f.fracBits ≤ q + 1 := ht.imp_right fun h => h.trans (Nat.le_add_right q 1)
  rw [twiceMid, magUnits_significand f hq.le ht, Nat.add_assoc, magUnits_significand f (q := q + 1) hq hnext]
  ring

/-- The significand rounded down has the exact value at or above it and the midpoint that follows it on the other side; rounded up, the reverse. -/
theorem isRounding_unboundedMag {f : FloatFormat} (hf : 0 < f.fracBits) (k m : Nat) :
    IsRounding f (unboundedMag f k m) m (2 ^ k) := by
  obtain ⟨hlt, hnormal⟩ := significand_bounds f k m
  have hround := roundShift_cases m (k + exponentAbove f k m)
  have hm := Nat.div_add_mod m (2 ^ (k + exponentAbove f k m))
  have hrem := Nat.mod_lt m (Nat.two_pow_pos (k + exponentAbove f k m))
  have heven : exponentAbove f k m * 2 ^ f.fracBits % 2 = 0 :=
    Nat.mod_eq_zero_of_dvd (Dvd.dvd.mul_left (dvd_pow_self 2 hf.ne') _)
  unfold unboundedMag
  generalize exponentAbove f k m = t at *
  generalize m / 2 ^ (k + t) = q, m % 2 ^ (k + t) = r at *
  have hvalue : ∀ c, c * 2 ^ t * 2 ^ k = 2 ^ (k + t) * c := fun c => by ring
  have hmid : twiceMid f (t * 2 ^ f.fracBits + q) * 2 ^ k = 2 * (2 ^ (k + t) * q) + 2 ^ (k + t) := by
    rw [twiceMid_significand f hlt hnormal]
    ring
  rcases hround with ⟨hq, hhalf, htie⟩ | ⟨hq, hhalf, htie⟩
  · have hbelow : ∀ p, p + 1 = t * 2 ^ f.fracBits + q → twiceMid f p * 2 ^ k < 2 * m := fun p hp =>
      calc twiceMid f p * 2 ^ k
        _ < 2 * magUnits f (p + 1) * 2 ^ k :=
          Nat.mul_lt_mul_of_pos_right (twiceMid_lt_two_mul_magUnits f p) (Nat.two_pow_pos k)
        _ = 2 * (2 ^ (k + t) * q) := by rw [hp, magUnits_significand f hlt.le hnormal, Nat.mul_assoc, hvalue]
        _ ≤ 2 * m := by omega
    rw [hq]
    exact ⟨by omega, fun heq => by have := htie (by omega); omega, fun p hp => (hbelow p hp).le,
      fun p hp heq => absurd heq (hbelow p hp).ne⟩
  · have habove : 2 * m < twiceMid f (t * 2 ^ f.fracBits + (q + 1)) * 2 ^ k :=
      calc 2 * m
        _ < 2 * (2 ^ (k + t) * (q + 1)) := by rw [Nat.mul_add_one]; omega
        _ = 2 * magUnits f (t * 2 ^ f.fracBits + (q + 1)) * 2 ^ k := by
          rw [magUnits_significand f hlt (hnormal.imp_right fun h => h.trans (Nat.le_add_right q 1)), Nat.mul_assoc, hvalue]
        _ < twiceMid f (t * 2 ^ f.fracBits + (q + 1)) * 2 ^ k :=
          Nat.mul_lt_mul_of_pos_right (two_mul_magUnits_lt_twiceMid f _) (Nat.two_pow_pos k)
    rw [hq]
    refine ⟨habove.le, fun heq => absurd heq habove.ne, fun p hp => ?_, fun p hp heq => ?_⟩
    · obtain rfl : p = t * 2 ^ f.fracBits + q := by omega
      omega
    · obtain rfl : p = t * 2 ^ f.fracBits + q := by omega
      have := htie (by omega)
      omega

/-! ## Nearest values (R96) -/

/-- Of two integers, the one on the near side of the midpoint is nearer, strictly unless the midpoint is met. -/
theorem abs_sub_le_of_midpoint {n x y : Int} (h : (x < y ∧ 2 * n ≤ x + y) ∨ (y < x ∧ x + y ≤ 2 * n)) :
    |x - n| ≤ |y - n| ∧ (|x - n| = |y - n| → 2 * n = x + y) := by
  rcases abs_cases (x - n) with ⟨hx, hx'⟩ | ⟨hx, hx'⟩ <;> rcases abs_cases (y - n) with ⟨hy, hy'⟩ | ⟨hy, hy'⟩ <;> omega

/-- No magnitude is nearer to the exact value than its rounding, and where another is as near the rounding is even. -/
theorem IsRounding.nearest {f : FloatFormat} {p num den : Nat} (h : IsRounding f p num den) (hden : 0 < den) (c : Nat) :
    |((magUnits f p * den : Nat) : Int) - num| ≤ |((magUnits f c * den : Nat) : Int) - num| ∧
      (|((magUnits f p * den : Nat) : Int) - num| = |((magUnits f c * den : Nat) : Int) - num| → c ≠ p → p % 2 = 0) := by
  have hvalue : ∀ {x y}, x < y → magUnits f x * den < magUnits f y * den := fun hxy =>
    Nat.mul_lt_mul_of_pos_right (magUnits_strictMono f hxy) hden
  rcases Nat.lt_trichotomy p c with hlt | rfl | hgt
  · obtain ⟨hmid, htie⟩ := h.le_midpoint hlt
    rw [Nat.add_mul] at hmid htie
    have hpc := hvalue hlt
    obtain ⟨hle, heq⟩ := abs_sub_le_of_midpoint (n := num) (x := (magUnits f p * den : Nat))
      (y := (magUnits f c * den : Nat)) (.inl (by omega))
    exact ⟨hle, fun habs _ => htie (by have := heq habs; omega)⟩
  · exact ⟨le_rfl, fun _ hne => absurd rfl hne⟩
  · obtain ⟨hmid, htie⟩ := h.midpoint_le hgt
    rw [Nat.add_mul] at hmid htie
    have hcp := hvalue hgt
    obtain ⟨hle, heq⟩ := abs_sub_le_of_midpoint (n := num) (x := (magUnits f p * den : Nat))
      (y := (magUnits f c * den : Nat)) (.inr (by omega))
    exact ⟨hle, fun habs _ => htie (by have := heq habs; omega)⟩

/-! ## The overflow threshold (R96) -/

/-- What the proofs use of binary32 and binary64: a fraction to round in, and an exponent range with room for the square roots and the drawn
integers of the format's width on either side of 1.0. -/
structure StandardFormat (f : FloatFormat) : Prop where
  two_le_fracBits : 2 ≤ f.fracBits
  room : f.expBits + f.fracBits + 6 ≤ 2 ^ (f.expBits - 1)

theorem standardFormat_binary32 : StandardFormat binary32 := ⟨by decide, by decide⟩

theorem standardFormat_binary64 : StandardFormat binary64 := ⟨by decide, by decide⟩

section
variable {f : FloatFormat} (hf : StandardFormat f)
include hf

theorem StandardFormat.fracBits_pos : 0 < f.fracBits := Nat.lt_of_lt_of_le (by decide) hf.two_le_fracBits

/-- The exponent range is twice the bias range. -/
theorem StandardFormat.two_pow_expBits : 2 ^ f.expBits = 2 * 2 ^ (f.expBits - 1) := by
  have hroom := hf.room
  have hpos : f.expBits ≠ 0 := by
    intro h
    rw [h] at hroom
    simp at hroom
  rw [← pow_succ', Nat.sub_add_cancel (Nat.one_le_iff_ne_zero.mpr hpos)]

theorem StandardFormat.infMag_eq : infMag f = (2 ^ f.expBits - 2) * 2 ^ f.fracBits + 2 ^ f.fracBits := by
  have hroom := hf.room
  have hexp := hf.two_pow_expBits
  rw [infMag, show 2 ^ f.expBits - 1 = 2 ^ f.expBits - 2 + 1 by omega, Nat.add_one_mul]

theorem StandardFormat.infMag_even : infMag f % 2 = 0 :=
  Nat.mod_eq_zero_of_dvd (Dvd.dvd.mul_left (dvd_pow_self 2 hf.fracBits_pos.ne') _)

theorem StandardFormat.infMag_pos : 0 < infMag f := by
  rw [hf.infMag_eq]
  exact Nat.lt_add_left _ (Nat.two_pow_pos _)

end

/-- Half a unit in the last place above the largest finite value, in units: `2^(emax+1) * (1 - 2^-(p+1))` (notes/assumptions/11.md). -/
def overflowUnits (f : FloatFormat) : Nat := (2 ^ (f.fracBits + 2) - 1) * 2 ^ (2 ^ f.expBits - 4)

/-- It is the midpoint between the largest finite value and the value that the pattern of infinity would have. -/
theorem twiceMid_of_succ_eq_infMag {f : FloatFormat} (hf : StandardFormat f) {p : Nat} (hp : p + 1 = infMag f) :
    twiceMid f p = 2 * overflowUnits f := by
  have hroom := hf.room
  have hexp := hf.two_pow_expBits
  have hfrac := Nat.two_pow_pos f.fracBits
  obtain ⟨t, ht⟩ : ∃ t, 2 ^ f.expBits = t + 4 := ⟨2 ^ f.expBits - 4, by omega⟩
  have hsplit : p = (t + 1) * 2 ^ f.fracBits + (2 * 2 ^ f.fracBits - 1) := by
    rw [hf.infMag_eq, ht, show t + 4 - 2 = t + 1 + 1 by omega, Nat.add_one_mul] at hp
    omega
  rw [hsplit, twiceMid_significand f (by omega) (.inr (by omega)), overflowUnits, ht, Nat.add_sub_cancel,
    show 2 * (2 * 2 ^ f.fracBits - 1) + 1 = 2 ^ (f.fracBits + 2) - 1 by rw [pow_add]; omega]
  ring

/-- A rounding reaches the pattern of infinity exactly from the overflow threshold on. -/
theorem IsRounding.infMag_le_iff {f : FloatFormat} {p num den : Nat} (h : IsRounding f p num den)
    (hf : StandardFormat f) (hden : 0 < den) : infMag f ≤ p ↔ overflowUnits f * den ≤ num := by
  obtain ⟨q, hq⟩ : ∃ q, q + 1 = infMag f := ⟨infMag f - 1, Nat.sub_add_cancel hf.infMag_pos⟩
  have heven := hf.infMag_even
  rw [← hq] at heven ⊢
  rw [Nat.succ_le_iff, h.lt_iff hden, twiceMid_of_succ_eq_infMag hf hq, Nat.mul_assoc]
  omega

/-- Settles O41: `roundMag` is a rounding cut at the pattern of infinity, and a rounding is nearest, ties to even. -/
theorem roundingIsToNearestEven : Obligations.RoundingIsToNearestEven := by
  unfold Obligations.RoundingIsToNearestEven
  intro f k m hcase
  have hf : StandardFormat f := by
    rcases hcase with rfl | rfl
    · exact standardFormat_binary32
    · exact standardFormat_binary64
  have hround := isRounding_unboundedMag hf.fracBits_pos k m
  rw [roundMag_eq_min]
  refine ⟨Nat.min_le_right _ _, ?_, fun hfin c _ => ?_⟩
  · rw [min_eq_right_iff]
    exact hround.infMag_le_iff hf (Nat.two_pow_pos k)
  · rw [Nat.min_eq_left (by omega)]
    exact hround.nearest (Nat.two_pow_pos k) c

end Sys2Proof.Machine
end

section
/-!
PROOFS. Bit patterns of any interchange format (spec/42_uniform.md R95): the patterns with their sign and magnitude, what they stand for, and
the primitives on them. `add32` and `add64` are one operation at two formats, so that what is said of a primitive is proved once; the last part
ties binary32 and binary64 to it.
-/

namespace Sys2Proof.Machine

/-! ## Patterns by sign and magnitude -/

/-- The pattern of a sign and a magnitude pattern. -/
def signedPattern (f : FloatFormat) (w : Nat) (neg : Bool) (mag : Nat) : BitVec w :=
  BitVec.ofNat w ((if neg then 2 ^ signPos f else 0) + mag)

/-- What a pattern stands for. -/
def valueOf (f : FloatFormat) {w : Nat} (v : BitVec w) : FloatVal := unpack f v.toNat

/-- The bits below the sign bit. -/
def magOf (f : FloatFormat) {w : Nat} (v : BitVec w) : Nat := v.toNat % 2 ^ signPos f

/-- A zero, subnormal or normal number. -/
def IsFinite (f : FloatFormat) {w : Nat} (v : BitVec w) : Prop := magOf f v < infMag f

/-- Any NaN. -/
def IsNaN (f : FloatFormat) {w : Nat} (v : BitVec w) : Prop := infMag f < magOf f v

/-- The signed value in units. -/
def unitsOf (f : FloatFormat) {w : Nat} (v : BitVec w) : Int :=
  signedUnits (v.getLsbD (signPos f)) (magUnits f (magOf f v))

theorem infMag_lt (f : FloatFormat) : infMag f < 2 ^ signPos f := by
  rw [infMag, signPos, pow_add]
  exact Nat.mul_lt_mul_of_pos_right (Nat.sub_one_lt (Nat.two_pow_pos _).ne') (Nat.two_pow_pos _)

theorem valueOf_of_isNaN {f : FloatFormat} {w : Nat} {v : BitVec w} (h : IsNaN f v) : valueOf f v = .nan := by
  unfold IsNaN magOf at h
  simp only [valueOf, unpack]
  rw [if_neg (by omega), if_neg (by omega)]

/-- A finite number stands for its signed value in units. -/
theorem valueOf_of_isFinite {f : FloatFormat} {w : Nat} {v : BitVec w} (h : IsFinite f v) :
    valueOf f v = .fin (v.getLsbD (signPos f)) (magUnits f (magOf f v)) := by
  rw [BitVec.getLsbD, Nat.testBit_eq_decide_div_mod_eq]
  exact if_pos h

section
variable {f : FloatFormat} {w : Nat} {mag : Nat} (hw : w = signPos f + 1) (neg : Bool) (hmag : mag < 2 ^ signPos f)
include hw hmag

theorem toNat_signedPattern : (signedPattern f w neg mag).toNat = (if neg then 2 ^ signPos f else 0) + mag := by
  rw [signedPattern, BitVec.toNat_ofNat, hw, pow_succ, Nat.mod_eq_of_lt]
  split <;> omega

theorem magOf_signedPattern : magOf f (signedPattern f w neg mag) = mag := by
  rw [magOf, toNat_signedPattern hw neg hmag]
  cases neg <;> simp [Nat.mod_eq_of_lt hmag]

theorem getLsbD_sign_signedPattern : (signedPattern f w neg mag).getLsbD (signPos f) = neg := by
  rw [BitVec.getLsbD, toNat_signedPattern hw neg hmag, Nat.testBit_eq_decide_div_mod_eq]
  cases neg with
  | false => simp [Nat.div_eq_of_lt hmag]
  | true => simp [Nat.add_div_left _ (Nat.two_pow_pos _), Nat.div_eq_of_lt hmag]

theorem unitsOf_signedPattern : unitsOf f (signedPattern f w neg mag) = signedUnits neg (magUnits f mag) := by
  rw [unitsOf, getLsbD_sign_signedPattern hw neg hmag, magOf_signedPattern hw neg hmag]

theorem valueOf_signedPattern : valueOf f (signedPattern f w neg mag) =
    if mag < infMag f then .fin neg (magUnits f mag) else if mag = infMag f then .inf neg else .nan := by
  have hsign := getLsbD_sign_signedPattern hw neg hmag
  have hmod := magOf_signedPattern hw neg hmag
  rw [BitVec.getLsbD, Nat.testBit_eq_decide_div_mod_eq] at hsign
  rw [magOf] at hmod
  simp only [valueOf, unpack, hsign, hmod]

end

section
variable {f : FloatFormat} {w : Nat} (hw : w = signPos f + 1)
include hw

theorem valueOf_signedPattern_of_lt {mag : Nat} (neg : Bool) (h : mag < infMag f) :
    valueOf f (signedPattern f w neg mag) = .fin neg (magUnits f mag) := by
  rw [valueOf_signedPattern hw neg (h.trans (infMag_lt f)), if_pos h]

theorem valueOf_infinity (neg : Bool) : valueOf f (signedPattern f w neg (infMag f)) = .inf neg := by
  rw [valueOf_signedPattern hw neg (infMag_lt f), if_neg (Nat.lt_irrefl _), if_pos rfl]

theorem valueOf_zero (hf : StandardFormat f) (neg : Bool) : valueOf f (signedPattern f w neg 0) = .fin neg 0 := by
  rw [valueOf_signedPattern_of_lt hw neg hf.infMag_pos, magUnits_zero]

theorem isFinite_signedPattern {mag : Nat} (neg : Bool) (h : mag < infMag f) : IsFinite f (signedPattern f w neg mag) := by
  rw [IsFinite, magOf_signedPattern hw neg (h.trans (infMag_lt f))]
  exact h

end

/-- Every pattern is that of its sign and its magnitude. -/
theorem signedPattern_magOf {f : FloatFormat} {w : Nat} (hw : w = signPos f + 1) (v : BitVec w) :
    signedPattern f w (v.getLsbD (signPos f)) (magOf f v) = v := by
  have hv : v.toNat < 2 ^ w := v.isLt
  have hdiv : v.toNat / 2 ^ signPos f < 2 := by
    rw [Nat.div_lt_iff_lt_mul (Nat.two_pow_pos _), ← pow_succ', ← hw]
    exact hv
  apply BitVec.eq_of_toNat_eq
  have hmag : magOf f v < 2 ^ signPos f := Nat.mod_lt _ (Nat.two_pow_pos _)
  rw [toNat_signedPattern hw _ hmag, magOf, BitVec.getLsbD, Nat.testBit_eq_decide_div_mod_eq]
  have hsplit := Nat.div_add_mod v.toNat (2 ^ signPos f)
  obtain h | h := Nat.le_one_iff_eq_zero_or_eq_one.mp (Nat.le_of_lt_succ hdiv)
  · rw [h, Nat.mul_zero, Nat.zero_add] at hsplit
    simp [h, hsplit]
  · rw [h, Nat.mul_one] at hsplit
    simp [h, hsplit]

/-- A finite number is the pattern of a sign and a magnitude below that of infinity. -/
theorem exists_of_isFinite {f : FloatFormat} {w : Nat} (hw : w = signPos f + 1) {v : BitVec w} (h : IsFinite f v) :
    ∃ neg mag, mag < infMag f ∧ v = signedPattern f w neg mag :=
  ⟨_, _, h, (signedPattern_magOf hw v).symm⟩

/-- The last fraction bit is the parity of the magnitude. -/
theorem getLsbD_zero_signedPattern {f : FloatFormat} {w mag : Nat} (hf : StandardFormat f) (hw : w = signPos f + 1) (neg : Bool)
    (hmag : mag < 2 ^ signPos f) : (signedPattern f w neg mag).getLsbD 0 = decide (mag % 2 = 1) := by
  have hpos : signPos f ≠ 0 := by
    have := hf.fracBits_pos
    unfold signPos
    omega
  have heven : 2 ^ signPos f % 2 = 0 := Nat.mod_eq_zero_of_dvd (dvd_pow_self 2 hpos)
  rw [BitVec.getLsbD, toNat_signedPattern hw neg hmag, Nat.testBit_zero]
  cases neg <;> simp [Nat.add_mod, heven]

/-! ## The primitives at any format -/

section
variable (f : FloatFormat) {w : Nat} (nan : BitVec w)

/-- A result in bits; `nan` is the pattern that a NaN result has. -/
def packBits (r : FloatRes) : BitVec w :=
  match r with
  | .nan => nan
  | .num neg mag => signedPattern f w neg mag

@[simp] theorem packBits_nan : packBits f nan .nan = nan := rfl
@[simp] theorem packBits_num (neg : Bool) (mag : Nat) : packBits f nan (.num neg mag) = signedPattern f w neg mag := rfl

def addBits (x y : BitVec w) : BitVec w := packBits f nan (floatAdd f (valueOf f x) (valueOf f y))
def subBits (x y : BitVec w) : BitVec w := packBits f nan (floatSub f (valueOf f x) (valueOf f y))
def mulBits (x y : BitVec w) : BitVec w := packBits f nan (floatMul f (valueOf f x) (valueOf f y))
def divBits (x y : BitVec w) : BitVec w := packBits f nan (floatDiv f (valueOf f x) (valueOf f y))
def sqrtBits (x : BitVec w) : BitVec w := packBits f nan (floatSqrt f (valueOf f x))

end

/-! ## binary32 and binary64 -/

theorem width_binary32 : 32 = signPos binary32 + 1 := rfl
theorem width_binary64 : 64 = signPos binary64 + 1 := rfl

theorem pack32_eq (k : Nat) (r : FloatRes) : pack32 k r = packBits binary32 (qNaN32 k) r := by cases r <;> rfl
theorem pack64_eq (k : Nat) (r : FloatRes) : pack64 k r = packBits binary64 (qNaN64 k) r := by cases r <;> rfl

theorem add32_eq (k : Nat) (x y : F32) : add32 k x y = addBits binary32 (qNaN32 k) x y := pack32_eq k _
theorem sub32_eq (k : Nat) (x y : F32) : sub32 k x y = subBits binary32 (qNaN32 k) x y := pack32_eq k _
theorem mul32f_eq (k : Nat) (x y : F32) : mul32f k x y = mulBits binary32 (qNaN32 k) x y := pack32_eq k _
theorem div32_eq (k : Nat) (x y : F32) : div32 k x y = divBits binary32 (qNaN32 k) x y := pack32_eq k _
theorem sqrt32_eq (k : Nat) (x : F32) : sqrt32 k x = sqrtBits binary32 (qNaN32 k) x := pack32_eq k _

theorem add64_eq (k : Nat) (x y : F64) : add64 k x y = addBits binary64 (qNaN64 k) x y := pack64_eq k _
theorem sub64_eq (k : Nat) (x y : F64) : sub64 k x y = subBits binary64 (qNaN64 k) x y := pack64_eq k _
theorem mul64f_eq (k : Nat) (x y : F64) : mul64f k x y = mulBits binary64 (qNaN64 k) x y := pack64_eq k _
theorem div64_eq (k : Nat) (x y : F64) : div64 k x y = divBits binary64 (qNaN64 k) x y := pack64_eq k _
theorem sqrt64_eq (k : Nat) (x : F64) : sqrt64 k x = sqrtBits binary64 (qNaN64 k) x := pack64_eq k _

theorem inf32_eq (neg : Bool) : inf32 neg = signedPattern binary32 32 neg (infMag binary32) := by cases neg <;> rfl
theorem inf64_eq (neg : Bool) : inf64 neg = signedPattern binary64 64 neg (infMag binary64) := by cases neg <;> rfl
theorem zero32_eq (neg : Bool) : zero32 neg = signedPattern binary32 32 neg 0 := by cases neg <;> rfl
theorem zero64_eq (neg : Bool) : zero64 neg = signedPattern binary64 64 neg 0 := by cases neg <;> rfl

section
variable (f : FloatFormat) {w : Nat} (v : BitVec w)

theorem toNat_exponentField : (v.extractLsb' f.fracBits f.expBits).toNat = magOf f v / 2 ^ f.fracBits := by
  rw [BitVec.extractLsb'_toNat, Nat.shiftRight_eq_div_pow, magOf, signPos, pow_add, Nat.mul_comm (2 ^ f.expBits),
    Nat.mod_mul_right_div_self]

theorem toNat_fractionField : (v.extractLsb' 0 f.fracBits).toNat = magOf f v % 2 ^ f.fracBits := by
  rw [BitVec.extractLsb'_toNat, Nat.shiftRight_zero, magOf, signPos,
    Nat.mod_mod_of_dvd _ (pow_dvd_pow 2 (Nat.le_add_left _ _))]

/-- The exponent field of a finite number is not all ones. -/
theorem exponentField_ne_iff : v.extractLsb' f.fracBits f.expBits ≠ BitVec.allOnes f.expBits ↔ IsFinite f v := by
  have hlt := (v.extractLsb' f.fracBits f.expBits).isLt
  rw [Ne, BitVec.toNat_eq, BitVec.toNat_allOnes, IsFinite, infMag, ← Nat.div_lt_iff_lt_mul (Nat.two_pow_pos _),
    ← toNat_exponentField]
  omega

/-- The exponent field of a NaN is all ones, its fraction not 0. -/
theorem nanFields_iff : (v.extractLsb' f.fracBits f.expBits = BitVec.allOnes f.expBits ∧
    v.extractLsb' 0 f.fracBits ≠ 0#f.fracBits) ↔ IsNaN f v := by
  have hlt := (v.extractLsb' f.fracBits f.expBits).isLt
  have hsplit := Nat.div_add_mod (magOf f v) (2 ^ f.fracBits)
  rw [Ne, BitVec.toNat_eq, BitVec.toNat_eq, BitVec.toNat_allOnes, BitVec.toNat_zero, toNat_fractionField]
  rw [toNat_exponentField] at hlt ⊢
  rw [IsNaN, infMag, Nat.mul_comm]
  constructor
  · rintro ⟨hexp, hfrac⟩
    rw [hexp] at hsplit
    omega
  · intro h
    have hexp : 2 ^ f.expBits - 1 ≤ magOf f v / 2 ^ f.fracBits := by
      rw [Nat.le_div_iff_mul_le (Nat.two_pow_pos _), Nat.mul_comm]
      exact h.le
    have heq : magOf f v / 2 ^ f.fracBits = 2 ^ f.expBits - 1 := by omega
    refine ⟨heq, fun hfrac => ?_⟩
    rw [heq] at hsplit
    omega

end

theorem finite32_iff (v : F32) : Finite32 v ↔ IsFinite binary32 v := exponentField_ne_iff binary32 v
theorem finite64_iff (v : F64) : Finite64 v ↔ IsFinite binary64 v := exponentField_ne_iff binary64 v
theorem anyNaN32_iff (v : F32) : AnyNaN32 v ↔ IsNaN binary32 v := nanFields_iff binary32 v
theorem anyNaN64_iff (v : F64) : AnyNaN64 v ↔ IsNaN binary64 v := nanFields_iff binary64 v

theorem units32_eq (v : F32) : units32 v = unitsOf binary32 v := by
  unfold units32 unitsOf signedUnits magUnits
  rw [← toNat_exponentField binary32 v, ← toNat_fractionField binary32 v]
  rfl

theorem units64_eq (v : F64) : units64 v = unitsOf binary64 v := by
  unfold units64 unitsOf signedUnits magUnits
  rw [← toNat_exponentField binary64 v, ← toNat_fractionField binary64 v]
  rfl

end Sys2Proof.Machine
end

section
/-!
PROOFS. Correct rounding of the primitives (spec/42_uniform.md R96): each gives a rounding of its exact result (`RoundsExact`), and the pattern
of a rounding is a nearest one, or the infinity of its sign from the overflow threshold on.
-/

namespace Sys2Proof.Machine

/-! ## Signed values -/

@[simp] theorem signedUnits_zero (neg : Bool) : signedUnits neg 0 = 0 := by cases neg <;> rfl

@[simp] theorem natAbs_signedUnits (neg : Bool) (m : Nat) : (signedUnits neg m).natAbs = m := by
  cases neg <;> simp [signedUnits]

theorem abs_signedUnits (neg : Bool) (m : Nat) : |signedUnits neg m| = m := by
  rw [Int.abs_eq_natAbs, natAbs_signedUnits]

@[simp] theorem signedUnits_eq_zero_iff {neg : Bool} {m : Nat} : signedUnits neg m = 0 ↔ m = 0 := by
  cases neg <;> simp [signedUnits]

theorem signedUnits_not (neg : Bool) (m : Nat) : signedUnits (!neg) m = -signedUnits neg m := by
  cases neg <;> simp [signedUnits]

theorem signedUnits_mul (a b : Bool) (m n : Nat) : signedUnits a m * signedUnits b n = signedUnits (a ^^ b) (m * n) := by
  cases a <;> cases b <;> simp [signedUnits]

theorem sign_signedUnits (neg : Bool) {m : Nat} (h : m ≠ 0) : (signedUnits neg m).sign = signedUnits neg 1 := by
  have hsign : (m : Int).sign = 1 := Int.sign_eq_one_of_pos (by omega)
  cases neg <;> simp [signedUnits, hsign]

theorem signedUnits_natAbs (n : Int) : signedUnits (decide (n < 0)) n.natAbs = n := by
  unfold signedUnits
  by_cases h : n < 0
  · simp [h, abs_of_neg h]
  · simp [h, abs_of_nonneg (Int.not_lt.mp h)]

theorem signedUnits_neg_iff {neg : Bool} {m : Nat} (h : m ≠ 0) : signedUnits neg m < 0 ↔ neg = true := by
  have hpos : 0 < m := Nat.pos_of_ne_zero h
  cases neg <;> simp [signedUnits, hpos]

/-- Values of one sign are as far apart as their magnitudes. -/
theorem abs_sub_same_sign (neg : Bool) (m n den : Nat) :
    |signedUnits neg m * den - signedUnits neg n| = |((m * den : Nat) : Int) - n| := by
  cases neg with
  | false => simp [signedUnits]
  | true =>
    rw [← abs_neg]
    simp only [signedUnits, if_true]
    congr 1
    push_cast
    ring

/-- Values of opposite signs are as far apart as their magnitudes make together. -/
theorem abs_sub_opposite_sign (neg : Bool) (m n den : Nat) :
    |signedUnits (!neg) m * den - signedUnits neg n| = ((m * den : Nat) : Int) + n := by
  have hsum : signedUnits (!neg) m * den - signedUnits neg n = signedUnits (!neg) (m * den + n) := by
    cases neg with
    | false =>
      simp [signedUnits]
      ring
    | true => simp [signedUnits]
  rw [hsum, abs_signedUnits, Nat.cast_add]

/-! ## The pattern of a rounding is nearest, or infinity (R96) -/

section
variable (f : FloatFormat) {w : Nat} (r : BitVec w) (num : Int) (den : Nat)

/-- `r` is a nearest finite value to `num / den` units, with last fraction bit 0 on a tie. -/
def Nearest : Prop :=
  ∀ c : BitVec w, IsFinite f c →
    |unitsOf f r * den - num| ≤ |unitsOf f c * den - num| ∧
      (|unitsOf f r * den - num| = |unitsOf f c * den - num| → unitsOf f c ≠ unitsOf f r → r.getLsbD 0 = false)

/-- `r` is `num / den` units rounded once, overflow included. -/
def RoundsTo : Prop :=
  (|num| < (overflowUnits f * den : Nat) → IsFinite f r ∧ Nearest f r num den) ∧
    ((overflowUnits f * den : Nat) ≤ |num| → r = signedPattern f w (decide (num < 0)) (infMag f))

end

theorem overflow32_eq : overflow32 = overflowUnits binary32 := rfl
theorem overflow64_eq : overflow64 = overflowUnits binary64 := by
  rw [overflow64, overflowUnits, show binary64.fracBits + 2 = 54 from rfl, show 2 ^ binary64.expBits - 4 = 2044 from rfl]

theorem roundsTo32_iff (r : F32) (num : Int) (den : Nat) : RoundsTo32 r num den ↔ RoundsTo binary32 r num den := by
  simp only [RoundsTo32, RoundsTo, Nearest32, Nearest, finite32_iff, units32_eq, inf32_eq, overflow32_eq]

theorem roundsTo64_iff (r : F64) (num : Int) (den : Nat) : RoundsTo64 r num den ↔ RoundsTo binary64 r num den := by
  simp only [RoundsTo64, RoundsTo, Nearest64, Nearest, finite64_iff, units64_eq, inf64_eq, overflow64_eq]

/-- Where the rounding of a magnitude is nearest among the magnitudes, its signed value is nearest among all values: a value of the other sign
is no nearer than zero. -/
theorem IsRounding.signed_nearest {f : FloatFormat} {p n den : Nat} (h : IsRounding f p n den) (hden : 0 < den)
    (neg b : Bool) (c : Nat) :
    |signedUnits neg (magUnits f p) * den - signedUnits neg n| ≤ |signedUnits b (magUnits f c) * den - signedUnits neg n| ∧
      (|signedUnits neg (magUnits f p) * den - signedUnits neg n| = |signedUnits b (magUnits f c) * den - signedUnits neg n| →
        signedUnits b (magUnits f c) ≠ signedUnits neg (magUnits f p) → p % 2 = 0) := by
  rw [abs_sub_same_sign]
  obtain rfl | rfl : b = neg ∨ b = !neg := by cases b <;> cases neg <;> simp
  · rw [abs_sub_same_sign]
    obtain ⟨hle, htie⟩ := h.nearest hden c
    exact ⟨hle, fun heq hne => htie heq fun hcp => hne (by rw [hcp])⟩
  · rw [abs_sub_opposite_sign]
    obtain ⟨hle, htie⟩ := h.nearest hden 0
    simp only [magUnits_zero, Nat.zero_mul, Nat.cast_zero, Int.zero_sub, abs_neg, Nat.abs_cast] at hle htie
    refine ⟨by omega, fun heq hne => htie (by omega) ?_⟩
    rintro rfl
    have hc : magUnits f c * den = 0 := by omega
    rcases Nat.mul_eq_zero.mp hc with hc | hc
    · simp [hc] at hne
    · omega

section
variable {f : FloatFormat} {w : Nat} (hf : StandardFormat f) (hw : w = signPos f + 1)
include hf hw

/-- The pattern of a rounding, cut at infinity, under the sign of the exact value. -/
theorem IsRounding.roundsTo {p n den : Nat} (h : IsRounding f p n den) (hden : 0 < den) (neg : Bool) :
    RoundsTo f (signedPattern f w neg (min p (infMag f))) (signedUnits neg n) den := by
  have hoverflow := h.infMag_le_iff hf hden
  rw [RoundsTo, abs_signedUnits]
  constructor
  · intro hlt
    have hp : p < infMag f := by omega
    rw [Nat.min_eq_left hp.le]
    refine ⟨isFinite_signedPattern hw neg hp, fun c hc => ?_⟩
    obtain ⟨b, q, hq, rfl⟩ := exists_of_isFinite hw hc
    rw [unitsOf_signedPattern hw neg (hp.trans (infMag_lt f)), unitsOf_signedPattern hw b (hq.trans (infMag_lt f)),
      getLsbD_zero_signedPattern hf hw neg (hp.trans (infMag_lt f))]
    obtain ⟨hle, htie⟩ := h.signed_nearest hden neg b q
    exact ⟨hle, fun heq hne => by simp [htie heq hne]⟩
  · intro hle
    have hp : infMag f ≤ p := by omega
    have hn : n ≠ 0 := by
      have hpos : 0 < overflowUnits f * den := Nat.mul_pos (Nat.mul_pos (by
        have := Nat.one_lt_two_pow (n := f.fracBits + 2) (by omega)
        omega) (Nat.two_pow_pos _)) hden
      omega
    have hsign : decide (signedUnits neg n < 0) = neg := by simp [signedUnits_neg_iff hn]
    rw [Nat.min_eq_right hp, hsign]

end

/-! ## Each primitive gives a rounding of its exact result (R96) -/

/-- `r` is a sign and a rounding, cut at infinity, of the magnitude of `num / den` units. -/
def RoundsExact (f : FloatFormat) (r : FloatRes) (num : Int) (den : Nat) : Prop :=
  ∃ neg p n, IsRounding f p n den ∧ num = signedUnits neg n ∧ r = .num neg (min p (infMag f))

theorem RoundsExact.roundsTo {f : FloatFormat} {w : Nat} {r : FloatRes} {num : Int} {den : Nat} (h : RoundsExact f r num den)
    (hf : StandardFormat f) (hw : w = signPos f + 1) (hden : 0 < den) (nan : BitVec w) :
    RoundsTo f (packBits f nan r) num den := by
  obtain ⟨neg, p, n, hround, rfl, rfl⟩ := h
  exact hround.roundsTo hf hw hden neg

/-- A quotient with a sticky bit lies on the same side of every multiple of half a unit as the exact quotient. -/
theorem withSticky_div_iff (num : Nat) {den : Nat} (hden : 0 < den) (c : Nat) :
    (c * 2 ^ 2 < 2 * withSticky (decide (2 * num % den = 0)) (2 * num / den) ↔ c * den < 2 * num) ∧
      (2 * withSticky (decide (2 * num % den = 0)) (2 * num / den) < c * 2 ^ 2 ↔ 2 * num < c * den) := by
  have hlt : 2 * num < c * den ↔ 2 * num / den < c := (Nat.div_lt_iff_lt_mul hden).symm
  have hle : c * den ≤ 2 * num ↔ c ≤ 2 * num / den := (Nat.le_div_iff_mul_le hden).symm
  by_cases hexact : 2 * num % den = 0
  · have hvalue : 2 * num = 2 * num / den * den := (Nat.div_mul_cancel (Nat.dvd_of_mod_eq_zero hexact)).symm
    have hlt' : c * den < 2 * num ↔ c < 2 * num / den := by
      conv_lhs => rw [hvalue]
      exact Nat.mul_lt_mul_right hden
    rw [hlt, hlt']
    simp only [withSticky, hexact, decide_true, if_true]
    omega
  · have hne : c * den ≠ 2 * num := fun heq => hexact (by rw [← heq, Nat.mul_mod_left])
    rw [hlt, ← hne.le_iff_lt, hle]
    simp only [withSticky, hexact, decide_false, Bool.false_eq_true, if_false]
    omega

section
variable {f : FloatFormat} (hf : StandardFormat f)
include hf

theorem roundMag_roundsExact (neg : Bool) (k m : Nat) : RoundsExact f (.num neg (roundMag f k m)) (signedUnits neg m) (2 ^ k) :=
  ⟨neg, _, m, isRounding_unboundedMag hf.fracBits_pos k m, rfl, rfl⟩

theorem floatAdd_roundsExact (a b : Bool) (m n : Nat) :
    RoundsExact f (floatAdd f (.fin a m) (.fin b n)) (signedUnits a m + signedUnits b n) 1 := by
  simp only [floatAdd]
  split
  · next hzero =>
    exact ⟨a && b, 0, 0, .of_exact Nat.one_pos (by simp), by simpa using hzero, by simp⟩
  · simpa [signedUnits_natAbs] using
      roundMag_roundsExact hf (decide (signedUnits a m + signedUnits b n < 0)) 0 (signedUnits a m + signedUnits b n).natAbs

theorem floatSub_roundsExact (a b : Bool) (m n : Nat) :
    RoundsExact f (floatSub f (.fin a m) (.fin b n)) (signedUnits a m - signedUnits b n) 1 := by
  have h := floatAdd_roundsExact hf a (!b) m n
  rwa [signedUnits_not, ← sub_eq_add_neg] at h

theorem floatMul_roundsExact (a b : Bool) (m n : Nat) :
    RoundsExact f (floatMul f (.fin a m) (.fin b n)) (signedUnits a m * signedUnits b n) (2 ^ unitExp f) := by
  rw [signedUnits_mul]
  exact roundMag_roundsExact hf (a ^^ b) (unitExp f) (m * n)

theorem roundRatio_isRounding (num : Nat) {den : Nat} (hden : 0 < den) :
    ∃ p, IsRounding f p num den ∧ roundRatio f num den = min p (infMag f) :=
  ⟨_, (isRounding_unboundedMag hf.fracBits_pos 2 _).congr (fun c => (withSticky_div_iff num hden c).1)
    (fun c => (withSticky_div_iff num hden c).2), rfl⟩

theorem floatDiv_roundsExact (a b : Bool) (m : Nat) {n : Nat} (hn : n ≠ 0) :
    RoundsExact f (floatDiv f (.fin a m) (.fin b n))
      (signedUnits a m * 2 ^ unitExp f * (signedUnits b n).sign) (signedUnits b n).natAbs := by
  obtain ⟨p, hp, heq⟩ := roundRatio_isRounding hf (m * 2 ^ unitExp f) (Nat.pos_of_ne_zero hn)
  rw [natAbs_signedUnits]
  refine ⟨a ^^ b, p, m * 2 ^ unitExp f, hp, ?_, ?_⟩
  · rw [sign_signedUnits b hn, mul_right_comm, signedUnits_mul, Nat.mul_one]
    cases a ^^ b <;> simp [signedUnits]
  · simp only [floatDiv, if_neg hn, heq]

end

/-! ## The four operations on finite patterns -/

section
variable {f : FloatFormat} {w : Nat} (hf : StandardFormat f) (hw : w = signPos f + 1) (nan : BitVec w) {x y : BitVec w}
  (hx : IsFinite f x) (hy : IsFinite f y)
include hf hw hx hy

theorem addBits_roundsTo : RoundsTo f (addBits f nan x y) (unitsOf f x + unitsOf f y) 1 := by
  rw [addBits, valueOf_of_isFinite hx, valueOf_of_isFinite hy]
  exact (floatAdd_roundsExact hf _ _ _ _).roundsTo hf hw Nat.one_pos nan

theorem subBits_roundsTo : RoundsTo f (subBits f nan x y) (unitsOf f x - unitsOf f y) 1 := by
  rw [subBits, valueOf_of_isFinite hx, valueOf_of_isFinite hy]
  exact (floatSub_roundsExact hf _ _ _ _).roundsTo hf hw Nat.one_pos nan

theorem mulBits_roundsTo : RoundsTo f (mulBits f nan x y) (unitsOf f x * unitsOf f y) (2 ^ unitExp f) := by
  rw [mulBits, valueOf_of_isFinite hx, valueOf_of_isFinite hy]
  exact (floatMul_roundsExact hf _ _ _ _).roundsTo hf hw (Nat.two_pow_pos _) nan

theorem divBits_roundsTo (h : unitsOf f y ≠ 0) :
    RoundsTo f (divBits f nan x y) (unitsOf f x * 2 ^ unitExp f * (unitsOf f y).sign) (unitsOf f y).natAbs := by
  have hmag : magUnits f (magOf f y) ≠ 0 := fun hzero => h (by rw [unitsOf, hzero, signedUnits_zero])
  rw [divBits, valueOf_of_isFinite hx, valueOf_of_isFinite hy]
  exact (floatDiv_roundsExact hf _ _ _ hmag).roundsTo hf hw (Int.natAbs_pos.mpr h) nan

end

/-- The unit of binary64 is `2^-1074` (R95). -/
theorem unitExp_binary64 : unitExp binary64 = 1074 := rfl
theorem unitExp_binary32 : unitExp binary32 = 149 := rfl

/-- Settles O42: each primitive at binary32. -/
theorem binary32ArithmeticIsCorrectlyRounded : Obligations.Binary32ArithmeticIsCorrectlyRounded := by
  unfold Obligations.Binary32ArithmeticIsCorrectlyRounded
  intro k x y hx hy
  rw [finite32_iff] at hx hy
  simp only [roundsTo32_iff, units32_eq, add32_eq, sub32_eq, mul32f_eq, div32_eq, ← unitExp_binary32]
  have hf := standardFormat_binary32
  exact ⟨addBits_roundsTo hf width_binary32 _ hx hy, subBits_roundsTo hf width_binary32 _ hx hy, mulBits_roundsTo hf width_binary32 _ hx hy,
    divBits_roundsTo hf width_binary32 _ hx hy⟩

/-- Settles O43: each primitive at binary64. -/
theorem binary64ArithmeticIsCorrectlyRounded : Obligations.Binary64ArithmeticIsCorrectlyRounded := by
  unfold Obligations.Binary64ArithmeticIsCorrectlyRounded
  intro k x y hx hy
  rw [finite64_iff] at hx hy
  simp only [roundsTo64_iff, units64_eq, add64_eq, sub64_eq, mul64f_eq, div64_eq, ← unitExp_binary64]
  have hf := standardFormat_binary64
  exact ⟨addBits_roundsTo hf width_binary64 _ hx hy, subBits_roundsTo hf width_binary64 _ hx hy, mulBits_roundsTo hf width_binary64 _ hx hy,
    divBits_roundsTo hf width_binary64 _ hx hy⟩

end Sys2Proof.Machine
end

section
/-!
PROOFS. The square root (spec/42_uniform.md R96, spec/43_gaussian.md R112): the integer root, the bit that tells an inexact root, and that
the rounded root of a positive finite number is finite and on the right side of every midpoint.
-/

namespace Sys2Proof.Machine

/-! ## The integer square root -/

/-- The search keeps the root between the part found and the part found plus all the bits still to come. -/
theorem isqrtFrom_spec (bits n r : Nat) (hlow : r * r ≤ n) (hhigh : n < (r + 2 ^ bits) * (r + 2 ^ bits)) :
    isqrtFrom bits n r * isqrtFrom bits n r ≤ n ∧ n < (isqrtFrom bits n r + 1) * (isqrtFrom bits n r + 1) := by
  induction bits generalizing r with
  | zero => exact ⟨hlow, hhigh⟩
  | succ bits ih =>
    rw [isqrtFrom]
    split
    · next hle => exact ih _ hle (by rwa [Nat.add_assoc, ← Nat.two_mul, ← pow_succ'])
    · next hgt => exact ih r hlow (Nat.not_le.mp hgt)

theorem isqrt_spec (n : Nat) : isqrt n * isqrt n ≤ n ∧ n < (isqrt n + 1) * (isqrt n + 1) := by
  refine isqrtFrom_spec _ n 0 (Nat.zero_le n) ?_
  rw [Nat.zero_add, ← pow_add]
  exact Nat.lt_log2_self.trans_le (Nat.pow_le_pow_right (by decide) (by omega))

/-- The root with its sticky bit: twice the integer root, and one more where the root is not exact. -/
def stickyRoot (n : Nat) : Nat := withSticky (decide (isqrt n * isqrt n = n)) (isqrt n)

theorem stickyRoot_bounds (n : Nat) : 2 * isqrt n ≤ stickyRoot n ∧ stickyRoot n ≤ 2 * isqrt n + 1 := by
  unfold stickyRoot withSticky
  split <;> omega

/-- The sticky root lies on the same side of an even number as twice the root does. -/
theorem sq_le_of_le_stickyRoot {n c : Nat} (h : 2 * c ≤ stickyRoot n) : c * c ≤ n := by
  have hc : c ≤ isqrt n := by
    have := (stickyRoot_bounds n).2
    omega
  exact (Nat.mul_le_mul hc hc).trans (isqrt_spec n).1

theorem le_sq_of_stickyRoot_le {n c : Nat} (h : stickyRoot n ≤ 2 * c) : n ≤ c * c := by
  obtain ⟨-, hhigh⟩ := isqrt_spec n
  unfold stickyRoot withSticky at h
  by_cases hexact : isqrt n * isqrt n = n
  · have hc : isqrt n ≤ c := by
      simp [hexact] at h
      omega
    exact hexact.symm.le.trans (Nat.mul_le_mul hc hc)
  · have hc : isqrt n + 1 ≤ c := by
      simp [hexact] at h
      omega
    exact hhigh.le.trans (Nat.mul_le_mul hc hc)

/-! ## The rounded root -/

/-- From two exponents above the subnormal range on, values are even. -/
theorem two_dvd_magUnits {f : FloatFormat} {p : Nat} (h : 2 * 2 ^ f.fracBits ≤ p) : 2 ∣ magUnits f p := by
  have hvalue := magUnits_add_exponent f (p := p - 2 ^ f.fracBits) (by omega) 1
  rw [Nat.one_mul, Nat.sub_add_cancel (by omega)] at hvalue
  exact ⟨magUnits f (p - 2 ^ f.fracBits), by rw [hvalue, Nat.mul_comm, pow_one]⟩

section
variable {f : FloatFormat} (hf : StandardFormat f)
include hf

theorem StandardFormat.magUnits_infMag : magUnits f (infMag f) = 2 ^ f.fracBits * 2 ^ (2 ^ f.expBits - 2) := by
  rw [hf.infMag_eq, magUnits_significand f (by omega) (.inr le_rfl)]

/-- The root of a finite number is far below the overflow threshold. -/
theorem lt_overflowUnits_of_sq_le {m c : Nat} (hm : m < magUnits f (infMag f)) (hc : c * c ≤ m * 2 ^ unitExp f) :
    c < overflowUnits f := by
  by_contra hle
  have hroom := hf.room
  have hexp := hf.two_pow_expBits
  have hsig : 2 ^ (f.fracBits + 1) ≤ 2 ^ (f.fracBits + 2) - 1 := by
    have := Nat.one_lt_two_pow (n := f.fracBits + 1) (by omega)
    rw [pow_succ 2 (f.fracBits + 1)]
    omega
  have hthreshold : 2 ^ (f.fracBits + 1 + (2 ^ f.expBits - 4)) ≤ c := by
    rw [pow_add]
    exact (Nat.mul_le_mul_right _ hsig).trans (Nat.not_lt.mp hle)
  have hsq := (Nat.mul_le_mul hthreshold hthreshold).trans hc
  have hm' : m * 2 ^ unitExp f < 2 ^ (f.fracBits + (2 ^ f.expBits - 2) + unitExp f) := by
    rw [pow_add, pow_add 2 f.fracBits, ← hf.magUnits_infMag]
    exact Nat.mul_lt_mul_of_pos_right hm (Nat.two_pow_pos _)
  have hlt := hsq.trans_lt hm'
  rw [← pow_add, Nat.pow_lt_pow_iff_right (by decide), unitExp] at hlt
  omega

/-- The root of a number that is not zero lies above the range in which values are odd. -/
theorem isqrt_ge {m : Nat} (hm : m ≠ 0) : 4 * 2 ^ f.fracBits ≤ isqrt (m * 2 ^ unitExp f) := by
  have hroom := hf.room
  have hsq : (4 * 2 ^ f.fracBits) * (4 * 2 ^ f.fracBits) ≤ m * 2 ^ unitExp f :=
    calc (4 * 2 ^ f.fracBits) * (4 * 2 ^ f.fracBits)
      _ = 2 ^ (f.fracBits + 2 + (f.fracBits + 2)) := by ring
      _ ≤ 2 ^ unitExp f := Nat.pow_le_pow_right (by decide) (by unfold unitExp; omega)
      _ ≤ m * 2 ^ unitExp f := Nat.le_mul_of_pos_left _ (Nat.pos_of_ne_zero hm)
  have hlt := hsq.trans_lt (isqrt_spec _).2
  exact Nat.le_of_lt_succ (Nat.mul_self_lt_mul_self_iff.mp hlt)

/-- The rounding of a sticky root lies where the values around it are even. -/
theorem IsRounding.ge_of_stickyRoot {m p : Nat} (hm : m ≠ 0)
    (h : IsRounding f p (stickyRoot (m * 2 ^ unitExp f)) (2 ^ 1)) : 3 * 2 ^ f.fracBits ≤ p := by
  have hvalue : magUnits f (3 * 2 ^ f.fracBits) * 2 ^ 1 = 8 * 2 ^ f.fracBits := by
    rw [show 3 * 2 ^ f.fracBits = 1 * 2 ^ f.fracBits + 2 * 2 ^ f.fracBits by ring,
      magUnits_significand f le_rfl (.inr (by omega))]
    ring
  have hroot := isqrt_ge hf hm
  have hsticky := (stickyRoot_bounds (m * 2 ^ unitExp f)).1
  exact (IsRounding.of_exact (by decide) hvalue).mono h (by decide) (by omega)

theorem IsRounding.lt_infMag_of_stickyRoot {m p : Nat} (hm : m < magUnits f (infMag f))
    (h : IsRounding f p (stickyRoot (m * 2 ^ unitExp f)) (2 ^ 1)) : p < infMag f := by
  have hroot := lt_overflowUnits_of_sq_le hf hm (isqrt_spec _).1
  have hsticky := (stickyRoot_bounds (m * 2 ^ unitExp f)).2
  rw [← Nat.not_le, h.infMag_le_iff hf (by decide)]
  omega

omit hf in
/-- The midpoints of the rounding of a sticky root with other values lie on the far side of the root. -/
theorem IsRounding.midpoints_of_stickyRoot {n p : Nat} (h : IsRounding f p (stickyRoot n) (2 ^ 1)) (hp : 2 * 2 ^ f.fracBits < p) :
    (∀ c, p < c → 4 * n ≤ (magUnits f p + magUnits f c) ^ 2) ∧
      (∀ c, c < p → (magUnits f p + magUnits f c) ^ 2 ≤ 4 * n) := by
  constructor
  · intro c hc
    obtain ⟨e, he⟩ := (two_dvd_magUnits hp.le).add (two_dvd_magUnits (hp.trans hc).le)
    have hmid := (h.le_midpoint hc).1
    rw [he] at hmid ⊢
    have hsq := le_sq_of_stickyRoot_le (n := n) (c := e) (by omega)
    calc 4 * n
      _ ≤ 4 * (e * e) := Nat.mul_le_mul_left 4 hsq
      _ = (2 * e) ^ 2 := by ring
  · intro c hc
    obtain ⟨q, rfl⟩ : ∃ q, p = q + 1 := Nat.exists_eq_add_one.mpr (Nat.zero_lt_of_lt hc)
    obtain ⟨e, he⟩ := (two_dvd_magUnits hp.le).add (two_dvd_magUnits (Nat.le_of_lt_succ hp))
    have hmid := h.below q rfl
    rw [twiceMid, Nat.add_comm (magUnits f q), he] at hmid
    have hsq := sq_le_of_le_stickyRoot (n := n) (c := e) (by omega)
    have hcq := (magUnits_strictMono f).monotone (Nat.le_of_lt_succ hc)
    calc (magUnits f (q + 1) + magUnits f c) ^ 2
      _ ≤ (magUnits f (q + 1) + magUnits f q) ^ 2 := Nat.pow_le_pow_left (Nat.add_le_add_left hcq _) 2
      _ = 4 * (e * e) := by rw [he]; ring
      _ ≤ 4 * n := Nat.mul_le_mul_left 4 hsq

/-- The rounded root of a positive finite number. -/
theorem floatSqrt_spec {m : Nat} (hm : m ≠ 0) (hfin : m < magUnits f (infMag f)) :
    ∃ p, floatSqrt f (.fin false m) = .num false p ∧ 0 < p ∧ p < infMag f ∧
      (∀ c, p < c → 4 * (m * 2 ^ unitExp f) ≤ (magUnits f p + magUnits f c) ^ 2) ∧
      (∀ c, c < p → (magUnits f p + magUnits f c) ^ 2 ≤ 4 * (m * 2 ^ unitExp f)) := by
  have hround := isRounding_unboundedMag hf.fracBits_pos 1 (stickyRoot (m * 2 ^ unitExp f))
  have hsqrt : floatSqrt f (.fin false m) =
      .num false (min (unboundedMag f 1 (stickyRoot (m * 2 ^ unitExp f))) (infMag f)) := by
    simp only [floatSqrt, if_neg hm]
    rfl
  have hlow := hround.ge_of_stickyRoot hf hm
  have hhigh := hround.lt_infMag_of_stickyRoot hf hfin
  have hfrac := Nat.two_pow_pos f.fracBits
  rw [Nat.min_eq_left hhigh.le] at hsqrt
  exact ⟨_, hsqrt, by omega, hhigh, hround.midpoints_of_stickyRoot (by omega)⟩

end

/-! ## The root of a pattern -/

/-- A finite number that is not negative has the magnitude of its value. -/
theorem unitsOf_eq_of_nonneg {f : FloatFormat} {w : Nat} {v : BitVec w} (h : 0 ≤ unitsOf f v) :
    unitsOf f v = magUnits f (magOf f v) := by
  rw [unitsOf, signedUnits] at h ⊢
  split at h
  · next hneg =>
    rw [if_pos hneg]
    omega
  · next hneg => rw [if_neg hneg]

/-- A positive finite number has the sign bit 0 and a magnitude that is not zero. -/
theorem sign_of_unitsOf_pos {f : FloatFormat} {w : Nat} {v : BitVec w} (h : 0 < unitsOf f v) :
    v.getLsbD (signPos f) = false ∧ magUnits f (magOf f v) ≠ 0 := by
  have heq := unitsOf_eq_of_nonneg h.le
  have hmag : magUnits f (magOf f v) ≠ 0 := by omega
  refine ⟨?_, hmag⟩
  rw [unitsOf] at h
  have := (signedUnits_neg_iff hmag).not.mp (not_lt.mpr h.le)
  simpa using this

/-- The rounded root is a positive finite number, and the midpoint between it and any other value never lies strictly between the root and it. -/
theorem sqrtBits_rounds {f : FloatFormat} {w : Nat} (hf : StandardFormat f) (hw : w = signPos f + 1) (nan : BitVec w)
    {x c : BitVec w} (hx : IsFinite f x) (hpos : 0 < unitsOf f x) (hc : 0 ≤ unitsOf f c) :
    IsFinite f (sqrtBits f nan x) ∧ 0 < unitsOf f (sqrtBits f nan x) ∧
      (unitsOf f (sqrtBits f nan x) < unitsOf f c →
        4 * unitsOf f x * 2 ^ unitExp f ≤ (unitsOf f (sqrtBits f nan x) + unitsOf f c) ^ 2) ∧
      (unitsOf f c < unitsOf f (sqrtBits f nan x) →
        (unitsOf f (sqrtBits f nan x) + unitsOf f c) ^ 2 ≤ 4 * unitsOf f x * 2 ^ unitExp f) := by
  obtain ⟨hsign, hmag⟩ := sign_of_unitsOf_pos hpos
  obtain ⟨p, hsqrt, hp, hfin, habove, hbelow⟩ := floatSqrt_spec hf hmag (magUnits_strictMono f hx)
  have hresult : sqrtBits f nan x = signedPattern f w false p := by
    rw [sqrtBits, valueOf_of_isFinite hx, hsign, hsqrt, packBits_num]
  have hunits : unitsOf f (signedPattern f w false p) = magUnits f p :=
    unitsOf_signedPattern hw false (hfin.trans (infMag_lt f))
  rw [hresult, hunits, unitsOf_eq_of_nonneg hpos.le, unitsOf_eq_of_nonneg hc, Nat.cast_lt, Nat.cast_lt,
    (magUnits_strictMono f).lt_iff_lt, (magUnits_strictMono f).lt_iff_lt, Int.mul_assoc]
  refine ⟨isFinite_signedPattern hw false hfin, ?_, fun h => ?_, fun h => ?_⟩
  · exact_mod_cast (magUnits_zero f).symm.trans_lt (magUnits_strictMono f hp)
  · exact_mod_cast habove _ h
  · exact_mod_cast hbelow _ h

/-- Settles O44: the root of a pattern at binary32 and at binary64. -/
theorem squareRootIsCorrectlyRounded : Obligations.SquareRootIsCorrectlyRounded := by
  unfold Obligations.SquareRootIsCorrectlyRounded
  constructor
  · intro k x c hx hpos _ hc
    rw [finite32_iff] at hx
    rw [units32_eq] at hpos hc
    simp only [finite32_iff, units32_eq, sqrt32_eq, ← unitExp_binary32]
    exact sqrtBits_rounds standardFormat_binary32 width_binary32 _ hx hpos hc
  · intro k x c hx hpos _ hc
    rw [finite64_iff] at hx
    rw [units64_eq] at hpos hc
    simp only [finite64_iff, units64_eq, sqrt64_eq, ← unitExp_binary64]
    exact sqrtBits_rounds standardFormat_binary64 width_binary64 _ hx hpos hc

end Sys2Proof.Machine
end

section
/-!
PROOFS. The exceptional cases of the primitives (spec/42_uniform.md R96): NaN operands and invalid operations, signed zeros, infinities.
-/

namespace Sys2Proof.Machine

/-! ## Quiet NaNs -/

theorem qNaN32_quiet (k : Nat) : QuietNaN32 (qNaN32 k) := by
  have hnat : (qNaN32 k).toNat = (((Config.freeNaN32 k).extractLsb' 22 1).toNat * 2 ^ 9 + 0x1FF) * 2 ^ 22 +
      ((Config.freeNaN32 k).extractLsb' 0 22).toNat := by
    rw [qNaN32, toNat_append_eq_mul_add, toNat_append_eq_mul_add]
    rfl
  have hlow := ((Config.freeNaN32 k).extractLsb' 0 22).isLt
  constructor
  · rw [BitVec.toNat_eq, BitVec.extractLsb'_toNat, Nat.shiftRight_eq_div_pow, hnat]
    change _ = 255
    omega
  · rw [BitVec.getLsbD, Nat.testBit_eq_decide_div_mod_eq, hnat, decide_eq_true_iff]
    omega

theorem qNaN64_quiet (k : Nat) : QuietNaN64 (qNaN64 k) := by
  have hnat : (qNaN64 k).toNat = (((Config.freeNaN64 k).extractLsb' 51 1).toNat * 2 ^ 12 + 0xFFF) * 2 ^ 51 +
      ((Config.freeNaN64 k).extractLsb' 0 51).toNat := by
    rw [qNaN64, toNat_append_eq_mul_add, toNat_append_eq_mul_add]
    rfl
  have hlow := ((Config.freeNaN64 k).extractLsb' 0 51).isLt
  constructor
  · rw [BitVec.toNat_eq, BitVec.extractLsb'_toNat, Nat.shiftRight_eq_div_pow, hnat]
    change _ = 2047
    omega
  · rw [BitVec.getLsbD, Nat.testBit_eq_decide_div_mod_eq, hnat, decide_eq_true_iff]
    omega

/-- A quiet NaN is a NaN: its top fraction bit is 1. -/
theorem isNaN_of_quiet {f : FloatFormat} {w : Nat} (hf : StandardFormat f) {v : BitVec w}
    (hexp : v.extractLsb' f.fracBits f.expBits = BitVec.allOnes f.expBits) (hquiet : v.getLsbD (f.fracBits - 1) = true) :
    IsNaN f v := by
  refine (nanFields_iff f v).mp ⟨hexp, fun hfrac => ?_⟩
  have hfracBits := hf.fracBits_pos
  have hbit := congrArg (BitVec.getLsbD · (f.fracBits - 1)) hfrac
  simp only [BitVec.getLsbD_extractLsb', Nat.zero_add, hquiet, BitVec.getLsbD_zero, Bool.and_true, decide_eq_false_iff_not] at hbit
  omega

theorem isNaN_qNaN32 (k : Nat) : IsNaN binary32 (qNaN32 k) :=
  isNaN_of_quiet standardFormat_binary32 (qNaN32_quiet k).1 (qNaN32_quiet k).2

theorem isNaN_qNaN64 (k : Nat) : IsNaN binary64 (qNaN64 k) :=
  isNaN_of_quiet standardFormat_binary64 (qNaN64_quiet k).1 (qNaN64_quiet k).2

/-! ## NaN operands and invalid operations -/

/-- A NaN operand gives a NaN. -/
theorem float_nan (f : FloatFormat) {x y : FloatVal} (h : x = .nan ∨ y = .nan) :
    floatAdd f x y = .nan ∧ floatSub f x y = .nan ∧ floatMul f x y = .nan ∧ floatDiv f x y = .nan := by
  rcases h with rfl | rfl
  · exact ⟨rfl, rfl, rfl, rfl⟩
  · cases x <;> exact ⟨rfl, rfl, rfl, rfl⟩

section
variable {f : FloatFormat} {w : Nat} (nan : BitVec w)

theorem bits_nan {x y : BitVec w} (h : IsNaN f x ∨ IsNaN f y) :
    addBits f nan x y = nan ∧ subBits f nan x y = nan ∧ mulBits f nan x y = nan ∧ divBits f nan x y = nan := by
  obtain ⟨hadd, hsub, hmul, hdiv⟩ := float_nan f (h.imp valueOf_of_isNaN valueOf_of_isNaN)
  simp only [addBits, subBits, mulBits, divBits, hadd, hsub, hmul, hdiv, packBits_nan, and_self]

/-- A number that is no NaN is finite or an infinity. -/
theorem isFinite_or_infinity_or_isNaN (hw : w = signPos f + 1) (x : BitVec w) :
    IsFinite f x ∨ x = signedPattern f w (x.getLsbD (signPos f)) (infMag f) ∨ IsNaN f x := by
  rcases Nat.lt_trichotomy (magOf f x) (infMag f) with h | h | h
  · exact .inl h
  · exact .inr (.inl (by rw [← h, signedPattern_magOf hw]))
  · exact .inr (.inr h)

/-- The root of a NaN or of a negative number that is not zero is a NaN. -/
theorem sqrtBits_nan (hw : w = signPos f + 1) {x : BitVec w}
    (h : IsNaN f x ∨ (x.getLsbD (signPos f) = true ∧ x ≠ signedPattern f w true 0)) : sqrtBits f nan x = nan := by
  suffices floatSqrt f (valueOf f x) = .nan by rw [sqrtBits, this, packBits_nan]
  rcases h with h | ⟨hsign, hne⟩
  · rw [valueOf_of_isNaN h, floatSqrt]
  rcases isFinite_or_infinity_or_isNaN hw x with hx | hx | hx
  · have hmag : magUnits f (magOf f x) ≠ 0 := fun hzero => hne (by
      rw [← signedPattern_magOf hw x, hsign, (magUnits_eq_zero_iff f).mp hzero])
    rw [valueOf_of_isFinite hx, hsign]
    simp only [floatSqrt, if_neg hmag, if_true]
  · rw [hx, hsign, valueOf_infinity hw]
    rfl
  · rw [valueOf_of_isNaN hx, floatSqrt]

/-- The operations that are invalid on infinities and zeros, for every sign. -/
theorem invalid_bits (hf : StandardFormat f) (hw : w = signPos f + 1) (a b : Bool) :
    subBits f nan (signedPattern f w a (infMag f)) (signedPattern f w a (infMag f)) = nan ∧
      addBits f nan (signedPattern f w a (infMag f)) (signedPattern f w (!a) (infMag f)) = nan ∧
      mulBits f nan (signedPattern f w a 0) (signedPattern f w b (infMag f)) = nan ∧
      mulBits f nan (signedPattern f w a (infMag f)) (signedPattern f w b 0) = nan ∧
      divBits f nan (signedPattern f w a 0) (signedPattern f w b 0) = nan ∧
      divBits f nan (signedPattern f w a (infMag f)) (signedPattern f w b (infMag f)) = nan := by
  simp [addBits, subBits, mulBits, divBits, valueOf_infinity hw, valueOf_zero hw hf, floatAdd, floatSub, floatNeg, floatMul,
    floatDiv]

end

/-- Settles O45: a NaN result is the draw, which is quiet. -/
theorem invalidOperationsGiveAQuietNaN : Obligations.InvalidOperationsGiveAQuietNaN := by
  unfold Obligations.InvalidOperationsGiveAQuietNaN
  refine ⟨fun k x y h => ?_, fun k x h => ?_, fun k a b => ?_, fun k x y h => ?_, fun k x h => ?_, fun k a b => ?_⟩
  · rw [anyNaN32_iff, anyNaN32_iff] at h
    have hq := qNaN32_quiet k
    obtain ⟨hadd, hsub, hmul, hdiv⟩ := bits_nan (qNaN32 k) h
    rw [add32_eq, sub32_eq, mul32f_eq, div32_eq, hadd, hsub, hmul, hdiv]
    exact ⟨hq, hq, hq, hq⟩
  · rw [anyNaN32_iff] at h
    rw [sqrt32_eq, sqrtBits_nan (qNaN32 k) width_binary32 h]
    exact qNaN32_quiet k
  · have hq := qNaN32_quiet k
    obtain ⟨h1, h2, h3, h4, h5, h6⟩ := invalid_bits (qNaN32 k) standardFormat_binary32 width_binary32 a b
    simp only [add32_eq, sub32_eq, mul32f_eq, div32_eq, inf32_eq, zero32_eq]
    rw [h1, h2, h3, h4, h5, h6]
    exact ⟨hq, hq, hq, hq, hq, hq⟩
  · rw [anyNaN64_iff, anyNaN64_iff] at h
    have hq := qNaN64_quiet k
    obtain ⟨hadd, hsub, hmul, hdiv⟩ := bits_nan (qNaN64 k) h
    rw [add64_eq, sub64_eq, mul64f_eq, div64_eq, hadd, hsub, hmul, hdiv]
    exact ⟨hq, hq, hq, hq⟩
  · rw [anyNaN64_iff] at h
    rw [sqrt64_eq, sqrtBits_nan (qNaN64 k) width_binary64 h]
    exact qNaN64_quiet k
  · have hq := qNaN64_quiet k
    obtain ⟨h1, h2, h3, h4, h5, h6⟩ := invalid_bits (qNaN64 k) standardFormat_binary64 width_binary64 a b
    simp only [add64_eq, sub64_eq, mul64f_eq, div64_eq, inf64_eq, zero64_eq]
    rw [h1, h2, h3, h4, h5, h6]
    exact ⟨hq, hq, hq, hq, hq, hq⟩

/-! ## Signed zeros -/

theorem roundMag_lt_two_pow (f : FloatFormat) (k m : Nat) : roundMag f k m < 2 ^ signPos f :=
  (Nat.min_le_right _ _).trans_lt (infMag_lt f)

section
variable {f : FloatFormat} {w : Nat} (hw : w = signPos f + 1) (nan : BitVec w)
include hw

/-- Inverting the sign bit changes the sign alone. -/
theorem xor_signBit (x : BitVec w) : magOf f (x ^^^ signedPattern f w true 0) = magOf f x ∧
    (x ^^^ signedPattern f w true 0).getLsbD (signPos f) = !x.getLsbD (signPos f) := by
  have hbit : (signedPattern f w true 0).toNat = 2 ^ signPos f := toNat_signedPattern hw true (Nat.two_pow_pos _)
  constructor
  · rw [magOf, BitVec.toNat_xor, hbit, Nat.xor_mod_two_pow, Nat.mod_self, Nat.xor_zero, magOf]
  · rw [BitVec.getLsbD_xor, getLsbD_sign_signedPattern hw true (Nat.two_pow_pos _), Bool.xor_true]

theorem addBits_neg_self {x : BitVec w} (hx : IsFinite f x) :
    addBits f nan x (x ^^^ signedPattern f w true 0) = signedPattern f w false 0 := by
  obtain ⟨hmag, hsign⟩ := xor_signBit hw x
  have hneg : IsFinite f (x ^^^ signedPattern f w true 0) := hmag.trans_lt hx
  rw [addBits, valueOf_of_isFinite hx, valueOf_of_isFinite hneg, hmag, hsign]
  simp [floatAdd, signedUnits_not]

theorem mulBits_sign {x y : BitVec w} (hx : IsFinite f x) (hy : IsFinite f y) :
    (mulBits f nan x y).getLsbD (signPos f) = (x.getLsbD (signPos f) ^^ y.getLsbD (signPos f)) := by
  rw [mulBits, valueOf_of_isFinite hx, valueOf_of_isFinite hy]
  exact getLsbD_sign_signedPattern hw _ (roundMag_lt_two_pow f _ _)

theorem divBits_sign {x y : BitVec w} (hx : IsFinite f x) (hy : IsFinite f y) (h : unitsOf f y ≠ 0) :
    (divBits f nan x y).getLsbD (signPos f) = (x.getLsbD (signPos f) ^^ y.getLsbD (signPos f)) := by
  have hmag : magUnits f (magOf f y) ≠ 0 := signedUnits_eq_zero_iff.not.mp h
  rw [divBits, valueOf_of_isFinite hx, valueOf_of_isFinite hy, floatDiv, if_neg hmag, packBits_num]
  exact getLsbD_sign_signedPattern hw _ (roundMag_lt_two_pow f _ _)

theorem zero_bits (hf : StandardFormat f) (a b : Bool) :
    addBits f nan (signedPattern f w a 0) (signedPattern f w b 0) = signedPattern f w (a && b) 0 ∧
      subBits f nan (signedPattern f w a 0) (signedPattern f w b 0) = signedPattern f w (a && !b) 0 ∧
      sqrtBits f nan (signedPattern f w a 0) = signedPattern f w a 0 := by
  simp [addBits, subBits, sqrtBits, valueOf_zero hw hf, floatAdd, floatSub, floatNeg, floatSqrt]

end

/-- Settles O46, clause by clause at binary32 and at binary64. -/
theorem signedZerosFollowTheRule : Obligations.SignedZerosFollowTheRule := by
  unfold Obligations.SignedZerosFollowTheRule
  simp only [finite32_iff, units32_eq, add32_eq, sub32_eq, mul32f_eq, div32_eq, sqrt32_eq, zero32_eq,
    finite64_iff, units64_eq, add64_eq, sub64_eq, mul64f_eq, div64_eq, sqrt64_eq, zero64_eq]
  exact ⟨fun k x hx _ => addBits_neg_self width_binary32 _ hx,
    fun k x y hx hy => ⟨mulBits_sign width_binary32 _ hx hy, divBits_sign width_binary32 _ hx hy⟩,
    fun k => zero_bits width_binary32 _ standardFormat_binary32,
    fun k x hx _ => addBits_neg_self width_binary64 _ hx,
    fun k x y hx hy => ⟨mulBits_sign width_binary64 _ hx hy, divBits_sign width_binary64 _ hx hy⟩,
    fun k => zero_bits width_binary64 _ standardFormat_binary64⟩

/-! ## Infinities -/

/-- What the rule lists of an infinity and a finite number, and of two infinities where the operation is not invalid. -/
theorem infinity_bits {f : FloatFormat} {w : Nat} (hf : StandardFormat f) (hw : w = signPos f + 1) (nan : BitVec w) (a b : Bool)
    {y : BitVec w} (hy : IsFinite f y) :
    let inf := fun neg => signedPattern f w neg (infMag f)
    let zero := fun neg => signedPattern f w neg 0
    let sign := y.getLsbD (signPos f)
    addBits f nan (inf a) y = inf a ∧ addBits f nan y (inf a) = inf a ∧
    subBits f nan (inf a) y = inf a ∧ subBits f nan y (inf a) = inf !a ∧
    (unitsOf f y ≠ 0 → mulBits f nan (inf a) y = inf (a ^^ sign) ∧ mulBits f nan y (inf a) = inf (a ^^ sign)) ∧
    divBits f nan y (inf a) = zero (sign ^^ a) ∧ divBits f nan (inf a) y = inf (a ^^ sign) ∧
    (unitsOf f y ≠ 0 → divBits f nan y (zero a) = inf (sign ^^ a)) ∧
    addBits f nan (inf a) (inf a) = inf a ∧ subBits f nan (inf a) (inf !a) = inf a ∧
    mulBits f nan (inf a) (inf b) = inf (a ^^ b) ∧ sqrtBits f nan (inf false) = inf false := by
  have hmag : unitsOf f y ≠ 0 → magUnits f (magOf f y) ≠ 0 := signedUnits_eq_zero_iff.not.mp
  simp only [addBits, subBits, mulBits, divBits, sqrtBits, valueOf_infinity hw, valueOf_zero hw hf, valueOf_of_isFinite hy]
  refine ⟨rfl, rfl, rfl, rfl, fun h => ⟨?_, ?_⟩, rfl, rfl, fun h => ?_, ?_, ?_, rfl, rfl⟩
  · simp [floatMul, hmag h]
  · simp [floatMul, hmag h, Bool.xor_comm]
  · simp [floatDiv, hmag h]
  · simp [floatAdd]
  · simp [floatSub, floatNeg, floatAdd]

/-- Settles O60, at binary32 and at binary64. -/
theorem infinitiesBehaveAsLimits : Obligations.InfinitiesBehaveAsLimits := by
  unfold Obligations.InfinitiesBehaveAsLimits
  simp only [finite32_iff, units32_eq, add32_eq, sub32_eq, mul32f_eq, div32_eq, sqrt32_eq, zero32_eq, inf32_eq,
    finite64_iff, units64_eq, add64_eq, sub64_eq, mul64f_eq, div64_eq, sqrt64_eq, zero64_eq, inf64_eq]
  exact ⟨fun _ a b _ hy => infinity_bits standardFormat_binary32 width_binary32 _ a b hy,
    fun _ a b _ hy => infinity_bits standardFormat_binary64 width_binary64 _ a b hy⟩

end Sys2Proof.Machine
end

section
/-!
PROOFS. Integer-to-float conversion and the uniform converter (spec/42_uniform.md R97 to R99), at any format for integers of the format's width.
-/

namespace Sys2Proof.Machine

/-! ## Exact results -/

theorem roundMag_of_exact {f : FloatFormat} (hf : StandardFormat f) {k m p : Nat} (hp : p ≤ infMag f)
    (h : magUnits f p * 2 ^ k = m) : roundMag f k m = p := by
  have hexact := IsRounding.of_exact (Nat.two_pow_pos k) h
  rw [roundMag_eq_min, (isRounding_unboundedMag hf.fracBits_pos k m).unique hexact (Nat.two_pow_pos k), Nat.min_eq_left hp]

theorem roundRatio_of_exact {f : FloatFormat} (hf : StandardFormat f) {num den p : Nat} (hden : 0 < den) (hp : p ≤ infMag f)
    (h : magUnits f p * den = num) : roundRatio f num den = p := by
  obtain ⟨q, hq, heq⟩ := roundRatio_isRounding hf num hden
  rw [heq, hq.unique (IsRounding.of_exact hden h) hden, Nat.min_eq_left hp]

/-! ## The number 1.0 -/

/-- The magnitude pattern of 1.0: the exponent field is the bias, the fraction 0. -/
def oneMag (f : FloatFormat) : Nat := (2 ^ (f.expBits - 1) - 1) * 2 ^ f.fracBits

theorem oneMag_ge {f : FloatFormat} (j : Nat) (hj : j + 2 ≤ 2 ^ (f.expBits - 1)) : (j + 1) * 2 ^ f.fracBits ≤ oneMag f :=
  Nat.mul_le_mul_right _ (by omega)

section
variable {f : FloatFormat} (hf : StandardFormat f)
include hf

/-- The pattern of 1.0 is the smallest normal one, as many exponents higher as the bias says. -/
theorem oneMag_eq : oneMag f = (2 ^ (f.expBits - 1) - 2) * 2 ^ f.fracBits + 2 ^ f.fracBits := by
  have hroom := hf.room
  rw [oneMag, show 2 ^ (f.expBits - 1) - 1 = 2 ^ (f.expBits - 1) - 2 + 1 by omega, Nat.add_one_mul]

theorem magUnits_oneMag : magUnits f (oneMag f) = 2 ^ unitExp f := by
  rw [oneMag_eq hf, magUnits_significand f (by omega) (.inr le_rfl), unitExp, pow_add, Nat.mul_comm]

theorem one_add_lt_infMag (j : Nat) (hj : j < 2 ^ (f.expBits - 1)) : oneMag f + j * 2 ^ f.fracBits < infMag f := by
  have hexp := hf.two_pow_expBits
  rw [oneMag, infMag, ← Nat.add_mul]
  exact Nat.mul_lt_mul_of_pos_right (by omega) (Nat.two_pow_pos _)

/-- The pattern of `2^j`. -/
theorem magUnits_one_add (j : Nat) : magUnits f (oneMag f + j * 2 ^ f.fracBits) = 2 ^ j * 2 ^ unitExp f := by
  have hroom := hf.room
  have hnormal := oneMag_ge (f := f) 0 (by omega)
  rw [magUnits_add_exponent f (by omega), magUnits_oneMag hf, Nat.mul_comm]

end

/-! ## Conversion (R97) -/

/-- The magnitude pattern of an integer. -/
def intMag (f : FloatFormat) (u : Nat) : Nat := roundMag f 0 (u * 2 ^ unitExp f)

/-- The conversion of an integer of the format's width. -/
def convertBits (f : FloatFormat) {w : Nat} (u : BitVec w) : BitVec w := signedPattern f w false (intMag f u.toNat)

theorem cvtU32F32_eq (u : Word) : cvtU32F32 u = convertBits binary32 u := by
  simp [cvtU32F32, convertBits, intMag, signedPattern]

theorem cvtU64F64_eq (u : BitVec 64) : cvtU64F64 u = convertBits binary64 u := by
  simp [cvtU64F64, convertBits, intMag, signedPattern]

section
variable {f : FloatFormat} {w : Nat} (hf : StandardFormat f) (hw : w = signPos f + 1)
include hf hw

/-- The width of the format in exponents above 1.0 is in range, and below 1.0 is normal. -/
theorem width_add_two_le : w + 2 ≤ 2 ^ (f.expBits - 1) := by
  have hroom := hf.room
  rw [hw, signPos]
  omega

/-- The conversion is a rounding of the integer, and never overflows. -/
theorem intMag_spec {u : Nat} (hu : u < 2 ^ w) : IsRounding f (intMag f u) (u * 2 ^ unitExp f) 1 ∧ intMag f u < infMag f := by
  have hround := isRounding_unboundedMag hf.fracBits_pos 0 (u * 2 ^ unitExp f)
  have hpow : IsRounding f (oneMag f + w * 2 ^ f.fracBits) (2 ^ w * 2 ^ unitExp f) 1 :=
    .of_exact Nat.one_pos (by rw [magUnits_one_add hf, Nat.mul_one])
  have hwidth := width_add_two_le hf hw
  have hlt := (hround.mono hpow Nat.one_pos (Nat.mul_le_mul_right _ hu.le)).trans_lt (one_add_lt_infMag hf w (by omega))
  rw [intMag, roundMag_eq_min, Nat.min_eq_left hlt.le]
  exact ⟨hround, hlt⟩

theorem intMag_lt (u : BitVec w) : intMag f u.toNat < 2 ^ signPos f := (intMag_spec hf hw u.isLt).2.trans (infMag_lt f)

theorem convertBits_spec (u : BitVec w) :
    IsFinite f (convertBits f u) ∧ unitsOf f (convertBits f u) = magUnits f (intMag f u.toNat) :=
  ⟨isFinite_signedPattern hw false (intMag_spec hf hw u.isLt).2, unitsOf_signedPattern hw false (intMag_lt hf hw u)⟩

theorem intMag_mono {u v : Nat} (huv : u ≤ v) (hv : v < 2 ^ w) : intMag f u ≤ intMag f v :=
  (intMag_spec hf hw (huv.trans_lt hv)).1.mono (intMag_spec hf hw hv).1 Nat.one_pos (Nat.mul_le_mul_right _ huv)

end

theorem log2_mul_two_pow {n : Nat} (hn : n ≠ 0) (j : Nat) : Nat.log2 (n * 2 ^ j) = Nat.log2 n + j := by
  induction j with
  | zero => simp
  | succ j ih =>
    have hne : n * 2 ^ j ≠ 0 := Nat.mul_ne_zero hn (Nat.two_pow_pos j).ne'
    rw [pow_succ', Nat.mul_left_comm, Nat.log2_two_mul hne, ih, Nat.add_assoc]

/-- A common power of two does not change a rounded quotient. -/
theorem roundShift_mul_two_pow (m sh j : Nat) : roundShift (m * 2 ^ j) (sh + j) = roundShift m sh := by
  have hpos := Nat.two_pow_pos j
  have hlt : 2 ^ sh * 2 ^ j < 2 * (m % 2 ^ sh * 2 ^ j) ↔ 2 ^ sh < 2 * (m % 2 ^ sh) := by
    rw [← Nat.mul_assoc]
    exact Nat.mul_lt_mul_right hpos
  have heq : 2 * (m % 2 ^ sh * 2 ^ j) = 2 ^ sh * 2 ^ j ↔ 2 * (m % 2 ^ sh) = 2 ^ sh := by
    rw [← Nat.mul_assoc]
    exact Nat.mul_left_inj hpos.ne'
  simp only [roundShift, pow_add, Nat.mul_div_mul_right _ _ hpos, Nat.mul_mod_mul_right, hlt, heq]

/-- The rounded quotient as the rule writes it: by the half of the divisor (R97). -/
theorem roundShift_eq_by_half {m sh : Nat} (h : 0 < sh) : roundShift m sh =
    if 2 ^ (sh - 1) < m % 2 ^ sh ∨ (m % 2 ^ sh = 2 ^ (sh - 1) ∧ m / 2 ^ sh % 2 = 1) then m / 2 ^ sh + 1 else m / 2 ^ sh := by
  obtain ⟨j, rfl⟩ : ∃ j, sh = j + 1 := Nat.exists_eq_add_one.mpr h
  have hlt : 2 ^ (j + 1) < 2 * (m % 2 ^ (j + 1)) ↔ 2 ^ j < m % 2 ^ (j + 1) := by omega
  have heq : 2 * (m % 2 ^ (j + 1)) = 2 ^ (j + 1) ↔ m % 2 ^ (j + 1) = 2 ^ j := by omega
  simp only [roundShift, Nat.add_sub_cancel, hlt, heq]

/-- An integer of at most `p` bits is converted exactly. -/
theorem magUnits_intMag_exact {f : FloatFormat} {w : Nat} (hf : StandardFormat f) (hw : w = signPos f + 1) {u : Nat} (hu : u < 2 ^ w)
    (h0 : u ≠ 0) (h : Nat.log2 u ≤ f.fracBits) : magUnits f (intMag f u) = u * 2 ^ unitExp f := by
  obtain ⟨p, hp⟩ := exists_magUnits_eq f (q := u) ((Nat.log2_lt h0).mp (Nat.lt_succ_of_le h)) (unitExp f)
  rw [(intMag_spec hf hw hu).1.unique (.of_exact Nat.one_pos (by rw [hp, Nat.mul_one])) Nat.one_pos, hp]

/-- A longer integer is cut to `p` bits, rounded to nearest, ties to even. -/
theorem magUnits_intMag_rounded {f : FloatFormat} {w : Nat} (hf : StandardFormat f) (hw : w = signPos f + 1) {u : Nat} (hu : u < 2 ^ w)
    (h : f.fracBits < Nat.log2 u) :
    magUnits f (intMag f u) = roundShift u (Nat.log2 u - f.fracBits) * 2 ^ (Nat.log2 u - f.fracBits) * 2 ^ unitExp f := by
  have h0 : u ≠ 0 := by
    rintro rfl
    simp at h
  have hmag : intMag f u = unboundedMag f 0 (u * 2 ^ unitExp f) := by
    have hround := isRounding_unboundedMag hf.fracBits_pos 0 (u * 2 ^ unitExp f)
    exact (intMag_spec hf hw hu).1.unique hround Nat.one_pos
  have hexp : exponentAbove f 0 (u * 2 ^ unitExp f) = Nat.log2 u - f.fracBits + unitExp f := by
    rw [exponentAbove, pow_zero, Nat.div_one, log2_mul_two_pow h0]
    omega
  rw [hmag, magUnits_unboundedMag, hexp, Nat.zero_add, roundShift_mul_two_pow, pow_add, Nat.mul_assoc]

theorem intMag_zero {f : FloatFormat} (hf : StandardFormat f) : intMag f 0 = 0 :=
  roundMag_of_exact hf (Nat.zero_le _) (by simp)

theorem convertBits_zero {f : FloatFormat} (hf : StandardFormat f) (w : Nat) : convertBits f (0 : BitVec w) = 0 := by
  simp [convertBits, intMag_zero hf, signedPattern]

/-- The conversion of a non-zero integer in the words of the rule's pseudocode (R97). -/
theorem unitsOf_convertBits {f : FloatFormat} {w : Nat} (hf : StandardFormat f) (hw : w = signPos f + 1) {u : BitVec w}
    (h0 : u ≠ 0) : IsFinite f (convertBits f u) ∧ unitsOf f (convertBits f u) =
      (if Nat.log2 u.toNat ≤ f.fracBits then (u.toNat : Int)
       else
        let sh := Nat.log2 u.toNat - f.fracBits
        let q := u.toNat / 2 ^ sh
        let rem := u.toNat % 2 ^ sh
        let half := 2 ^ (sh - 1)
        (((if half < rem ∨ (rem = half ∧ q % 2 = 1) then q + 1 else q) * 2 ^ sh : Nat) : Int)) * 2 ^ unitExp f := by
  obtain ⟨hfin, hunits⟩ := convertBits_spec hf hw u
  refine ⟨hfin, hunits.trans ?_⟩
  have hne : u.toNat ≠ 0 := fun h => h0 (BitVec.eq_of_toNat_eq h)
  split
  · next h =>
    rw [magUnits_intMag_exact hf hw u.isLt hne h]
    push_cast
    rfl
  · next h =>
    rw [magUnits_intMag_rounded hf hw u.isLt (Nat.not_le.mp h), roundShift_eq_by_half (by omega)]
    dsimp only
    rw [Nat.cast_mul (_ * _), Nat.cast_pow, Nat.cast_ofNat]

/-- Settles O47, at binary32 and at binary64. -/
theorem conversionFollowsThePseudocode : Obligations.ConversionFollowsThePseudocode := by
  unfold Obligations.ConversionFollowsThePseudocode
  simp only [cvtU32F32_eq, cvtU64F64_eq, finite32_iff, finite64_iff, units32_eq, units64_eq, ← unitExp_binary32,
    ← unitExp_binary64]
  exact ⟨⟨convertBits_zero standardFormat_binary32 32, fun _ => unitsOf_convertBits standardFormat_binary32 width_binary32⟩,
    convertBits_zero standardFormat_binary64 64, fun _ => unitsOf_convertBits standardFormat_binary64 width_binary64⟩

end Sys2Proof.Machine
end

section
/-!
PROOFS. The uniform converter (spec/42_uniform.md R98, R99), at any format for integers of the format's width: its division only lowers the
exponent, so that its range and its end values are those of the conversion.
-/

namespace Sys2Proof.Machine

/-! ## The division (R98) -/

/-- The pattern of `2^w`, by which an integer of width `w` is divided. -/
def widthDivisor (f : FloatFormat) (w : Nat) : BitVec w := signedPattern f w false (oneMag f + w * 2 ^ f.fracBits)

/-- The converter at any format. -/
def drawBits (f : FloatFormat) {w : Nat} (nan u : BitVec w) : BitVec w := divBits f nan (convertBits f u) (widthDivisor f w)

/-- The magnitude pattern of a converted draw. -/
def drawMag (f : FloatFormat) (w u : Nat) : Nat := if u = 0 then 0 else intMag f u - w * 2 ^ f.fracBits

theorem divisor32_eq : divisor32 = 0x4F800000#32 := by decide +kernel
theorem divisor64_eq : divisor64 = 0x43F0000000000000#64 := by decide +kernel
theorem widthDivisor_binary32 : widthDivisor binary32 32 = 0x4F800000#32 := by decide +kernel
theorem widthDivisor_binary64 : widthDivisor binary64 64 = 0x43F0000000000000#64 := by decide +kernel

theorem u2f32_eq (k : Nat) (u : Word) : u2f32 k u = drawBits binary32 (qNaN32 k) u := by
  rw [u2f32, drawBits, div32_eq, cvtU32F32_eq, divisor32_eq, widthDivisor_binary32]

theorem u2f64_eq (k : Nat) (u : BitVec 64) : u2f64 k u = drawBits binary64 (qNaN64 k) u := by
  rw [u2f64, drawBits, div64_eq, cvtU64F64_eq, divisor64_eq, widthDivisor_binary64]

theorem intMag_one {f : FloatFormat} (hf : StandardFormat f) : intMag f 1 = oneMag f := by
  have hlt := one_add_lt_infMag hf 0 (Nat.two_pow_pos _)
  exact roundMag_of_exact hf (by omega) (by rw [magUnits_oneMag hf]; ring)

section
variable {f : FloatFormat} {w : Nat} (hf : StandardFormat f) (hw : w = signPos f + 1)
include hf hw

/-- A non-zero integer converts to 1.0 or more. -/
theorem oneMag_le_intMag {u : Nat} (h0 : u ≠ 0) (hu : u < 2 ^ w) : oneMag f ≤ intMag f u :=
  (intMag_one hf).ge.trans (intMag_mono hf hw (Nat.pos_of_ne_zero h0) hu)

/-- The quotient of a non-zero integer is a normal number, as many exponents lower as the width says. -/
theorem drawMag_normal {u : Nat} (h0 : u ≠ 0) (hu : u < 2 ^ w) :
    2 ^ f.fracBits ≤ drawMag f w u ∧ drawMag f w u + w * 2 ^ f.fracBits = intMag f u := by
  have hone := oneMag_ge w (width_add_two_le hf hw)
  have hint := oneMag_le_intMag hf hw h0 hu
  have hfrac := Nat.two_pow_pos f.fracBits
  rw [Nat.add_one_mul] at hone
  rw [drawMag, if_neg h0]
  omega

/-- The exact quotient of a converted integer and `2^w` is the value of the lowered pattern. -/
theorem magUnits_drawMag (u : BitVec w) :
    magUnits f (drawMag f w u.toNat) * 2 ^ w = magUnits f (intMag f u.toNat) := by
  by_cases h0 : u.toNat = 0
  · simp [drawMag, h0, intMag_zero hf]
  · obtain ⟨hnormal, hsum⟩ := drawMag_normal hf hw h0 u.isLt
    rw [← hsum, magUnits_add_exponent f hnormal]

theorem drawMag_lt_infMag (u : BitVec w) : drawMag f w u.toNat < infMag f := by
  refine lt_of_le_of_lt ?_ (intMag_spec hf hw u.isLt).2
  unfold drawMag
  split
  · exact Nat.zero_le _
  · exact Nat.sub_le _ _

/-- The converter's result by its sign and magnitude. -/
theorem drawBits_eq (nan u : BitVec w) : drawBits f nan u = signedPattern f w false (drawMag f w u.toNat) := by
  have hwidth := width_add_two_le hf hw
  have hdivisor := one_add_lt_infMag hf w (by omega)
  have hpos : 2 ^ w * 2 ^ unitExp f ≠ 0 := Nat.mul_ne_zero (Nat.two_pow_pos _).ne' (Nat.two_pow_pos _).ne'
  rw [drawBits, divBits, convertBits, widthDivisor, valueOf_signedPattern_of_lt hw false (intMag_spec hf hw u.isLt).2,
    valueOf_signedPattern_of_lt hw false hdivisor, magUnits_one_add hf, floatDiv, if_neg hpos, packBits_num,
    roundRatio_of_exact hf (Nat.pos_of_ne_zero hpos) (drawMag_lt_infMag hf hw u).le
      (by rw [← Nat.mul_assoc, magUnits_drawMag hf hw])]
  rfl

theorem toNat_drawBits (nan u : BitVec w) : (drawBits f nan u).toNat = drawMag f w u.toNat := by
  rw [drawBits_eq hf hw, toNat_signedPattern hw false ((drawMag_lt_infMag hf hw u).trans (infMag_lt f))]
  simp

theorem drawBits_zero (nan : BitVec w) : drawBits f nan 0 = 0 := by
  apply BitVec.eq_of_toNat_eq
  rw [toNat_drawBits hf hw]
  simp [drawMag]

/-- The pattern of the quotient is that of the integer, less the width in the exponent field. -/
theorem drawBits_eq_sub (nan : BitVec w) {u : BitVec w} (h0 : u ≠ 0) :
    drawBits f nan u = convertBits f u - BitVec.ofNat w (w * 2 ^ f.fracBits) := by
  have hne : u.toNat ≠ 0 := fun h => h0 (BitVec.eq_of_toNat_eq h)
  obtain ⟨-, hsum⟩ := drawMag_normal hf hw hne u.isLt
  have hlt : w * 2 ^ f.fracBits < 2 ^ w := by
    have := intMag_lt hf hw u
    have hpow : 2 ^ w = 2 * 2 ^ signPos f := by rw [hw, pow_succ']
    omega
  have hpattern : ∀ mag, signedPattern f w false mag = BitVec.ofNat w mag := fun mag => by simp [signedPattern]
  rw [drawBits_eq hf hw, convertBits, hpattern, hpattern, BitVec.ofNat_sub_ofNat_of_le _ _ hlt (by omega)]
  congr 1
  omega

end

/-- Settles O48: the divisors are computed, the division is exact at any format. -/
theorem converterDividesExactly : Obligations.ConverterDividesExactly := by
  unfold Obligations.ConverterDividesExactly
  simp only [u2f32_eq, u2f64_eq, cvtU32F32_eq, cvtU64F64_eq]
  exact ⟨divisor32_eq, divisor64_eq,
    fun _ => ⟨drawBits_zero standardFormat_binary32 width_binary32 _, drawBits_zero standardFormat_binary64 width_binary64 _⟩,
    fun _ _ => drawBits_eq_sub standardFormat_binary32 width_binary32 _, fun _ _ => drawBits_eq_sub standardFormat_binary64 width_binary64 _⟩

/-! ## The range (R99) -/

/-- `2^-w`, at 1. -/
theorem drawMag_one {f : FloatFormat} (hf : StandardFormat f) (w : Nat) :
    drawMag f w 1 = oneMag f - w * 2 ^ f.fracBits := by
  rw [drawMag, if_neg one_ne_zero, intMag_one hf]

section
variable {f : FloatFormat} {w : Nat} (hf : StandardFormat f) (hw : w = signPos f + 1)
include hf hw

theorem drawMag_eq_zero_iff {u : Nat} (hu : u < 2 ^ w) : drawMag f w u = 0 ↔ u = 0 := by
  refine ⟨fun h => ?_, fun h => by simp [drawMag, h]⟩
  by_contra h0
  have hnormal := (drawMag_normal hf hw h0 hu).1
  have hfrac := Nat.two_pow_pos f.fracBits
  omega

theorem drawMag_mono {u v : Nat} (huv : u ≤ v) (hv : v < 2 ^ w) : drawMag f w u ≤ drawMag f w v := by
  by_cases h0 : u = 0
  · simp [drawMag, h0]
  · have hint := intMag_mono hf hw huv hv
    have hu := (drawMag_normal hf hw h0 (huv.trans_lt hv)).2
    have hv := (drawMag_normal hf hw (by omega) hv).2
    omega

theorem le_drawMag {u : Nat} (h0 : u ≠ 0) (hu : u < 2 ^ w) : oneMag f - w * 2 ^ f.fracBits ≤ drawMag f w u := by
  rw [← drawMag_one hf w]
  exact drawMag_mono hf hw (Nat.pos_of_ne_zero h0) hu

theorem drawMag_le_oneMag {u : Nat} (hu : u < 2 ^ w) : drawMag f w u ≤ oneMag f := by
  by_cases h0 : u = 0
  · simp [drawMag, h0]
  · have hpow : IsRounding f (oneMag f + w * 2 ^ f.fracBits) (2 ^ w * 2 ^ unitExp f) 1 :=
      .of_exact Nat.one_pos (by rw [magUnits_one_add hf, Nat.mul_one])
    have hint := (intMag_spec hf hw hu).1.mono hpow Nat.one_pos (Nat.mul_le_mul_right _ hu.le)
    have hsum := (drawMag_normal hf hw h0 hu).2
    omega

/-- The draws that convert to more than the pattern of significand `q` in the highest exponent below 1.0: those beyond the midpoint that follows
it, in units of `2^-w`, and that midpoint itself where `q` is odd. -/
theorem lt_drawMag_iff {q u : Nat} (hq : 2 ^ f.fracBits ≤ q) (hq' : q < 2 * 2 ^ f.fracBits) (hu : u < 2 ^ w) :
    (2 ^ (f.expBits - 1) - 3) * 2 ^ f.fracBits + q < drawMag f w u ↔
      (2 * q + 1) * 2 ^ f.expBits < 2 * u ∨ ((2 * q + 1) * 2 ^ f.expBits = 2 * u ∧ (q + 1) % 2 = 0) := by
  by_cases h0 : u = 0
  · have hpos : 0 < (2 * q + 1) * 2 ^ f.expBits := Nat.mul_pos (Nat.succ_pos _) (Nat.two_pow_pos _)
    simp [drawMag, h0]
  have hroom := hf.room
  obtain ⟨t, ht⟩ : ∃ t, 2 ^ (f.expBits - 1) = t + 3 := ⟨2 ^ (f.expBits - 1) - 3, by omega⟩
  have hpattern : t * 2 ^ f.fracBits + q + w * 2 ^ f.fracBits = (t + w) * 2 ^ f.fracBits + q := by ring
  have hexp : t + w = f.expBits + unitExp f := by
    rw [hw, signPos, unitExp]
    omega
  have hmid : twiceMid f (t * 2 ^ f.fracBits + q + w * 2 ^ f.fracBits) * 1 =
      (2 * q + 1) * 2 ^ f.expBits * 2 ^ unitExp f := by
    rw [hpattern, twiceMid_significand f hq' (.inr hq), hexp, pow_add]
    ring
  have hparity : (t * 2 ^ f.fracBits + q + w * 2 ^ f.fracBits + 1) % 2 = (q + 1) % 2 := by
    obtain ⟨n, hn⟩ : 2 ∣ (t + w) * 2 ^ f.fracBits := Dvd.dvd.mul_left (dvd_pow_self 2 hf.fracBits_pos.ne') _
    rw [hpattern, hn]
    omega
  have hlt := (intMag_spec hf hw hu).1.lt_iff Nat.one_pos (t * 2 ^ f.fracBits + q + w * 2 ^ f.fracBits)
  rw [hmid, hparity, ← Nat.mul_assoc, Nat.mul_lt_mul_right (Nat.two_pow_pos _), Nat.mul_left_inj (Nat.two_pow_pos _).ne'] at hlt
  rw [ht, Nat.add_sub_cancel, ← hlt, ← (drawMag_normal hf hw h0 hu).2]
  exact (Nat.add_lt_add_iff_right).symm

omit hw in
/-- The pattern of 1.0 as a carry out of the highest exponent below it. -/
theorem oneMag_eq_carry : oneMag f = (2 ^ (f.expBits - 1) - 3) * 2 ^ f.fracBits + 2 * 2 ^ f.fracBits := by
  have hroom := hf.room
  rw [oneMag, ← Nat.add_mul]
  congr 1
  omega

/-- The draws that convert to 1.0. -/
theorem drawMag_eq_one_iff {u : Nat} (hu : u < 2 ^ w) :
    drawMag f w u = oneMag f ↔ (4 * 2 ^ f.fracBits - 1) * 2 ^ f.expBits ≤ 2 * u := by
  have hfrac := Nat.two_pow_pos f.fracBits
  have hle := drawMag_le_oneMag hf hw hu
  have hlt := lt_drawMag_iff hf hw (q := 2 * 2 ^ f.fracBits - 1) (by omega) (by omega) hu
  rw [show 2 * (2 * 2 ^ f.fracBits - 1) + 1 = 4 * 2 ^ f.fracBits - 1 by omega] at hlt
  have hone := oneMag_eq_carry hf
  omega

/-- The draws that convert to the largest value below 1.0. -/
theorem drawMag_eq_one_sub_iff {u : Nat} (hu : u < 2 ^ w) :
    drawMag f w u = oneMag f - 1 ↔
      (4 * 2 ^ f.fracBits - 3) * 2 ^ f.expBits < 2 * u ∧ 2 * u < (4 * 2 ^ f.fracBits - 1) * 2 ^ f.expBits := by
  have hfrac := Nat.two_pow_pos f.fracBits
  have hle := drawMag_le_oneMag hf hw hu
  have hlt := lt_drawMag_iff hf hw (q := 2 * 2 ^ f.fracBits - 2)
    (by have := Nat.one_lt_two_pow hf.fracBits_pos.ne'; omega) (by omega) hu
  rw [show 2 * (2 * 2 ^ f.fracBits - 2) + 1 = 4 * 2 ^ f.fracBits - 3 by omega] at hlt
  have htop := drawMag_eq_one_iff hf hw hu
  have hone := oneMag_eq_carry hf
  omega

/-- The table of the rule at any format. -/
theorem drawBits_range (nan u : BitVec w) :
    (drawBits f nan u).toNat ≤ oneMag f ∧ (drawBits f nan u = 0 ↔ u = 0) ∧
      (u ≠ 0 → oneMag f - w * 2 ^ f.fracBits ≤ (drawBits f nan u).toNat) ∧
      (drawBits f nan 1).toNat = oneMag f - w * 2 ^ f.fracBits ∧
      ((drawBits f nan u).toNat = oneMag f - 1 ↔
        (4 * 2 ^ f.fracBits - 3) * 2 ^ f.expBits < 2 * u.toNat ∧ 2 * u.toNat < (4 * 2 ^ f.fracBits - 1) * 2 ^ f.expBits) ∧
      ((drawBits f nan u).toNat = oneMag f ↔ (4 * 2 ^ f.fracBits - 1) * 2 ^ f.expBits ≤ 2 * u.toNat) := by
  have hzero : ∀ v : BitVec w, v = 0 ↔ v.toNat = 0 := fun v => by simp [BitVec.toNat_eq]
  have hwidth : 1 < 2 ^ w := Nat.one_lt_two_pow (by omega)
  have hone : (1 : BitVec w).toNat = 1 := by simp [Nat.mod_eq_of_lt hwidth]
  rw [hzero (drawBits f nan u), Ne, hzero u, toNat_drawBits hf hw, toNat_drawBits hf hw, hone]
  exact ⟨drawMag_le_oneMag hf hw u.isLt, drawMag_eq_zero_iff hf hw u.isLt, fun h0 => le_drawMag hf hw h0 u.isLt,
    drawMag_one hf w, drawMag_eq_one_sub_iff hf hw u.isLt, drawMag_eq_one_iff hf hw u.isLt⟩

theorem drawBits_mono (nan : BitVec w) {u v : BitVec w} (h : u.toNat ≤ v.toNat) :
    (drawBits f nan u).toNat ≤ (drawBits f nan v).toNat := by
  rw [toNat_drawBits hf hw, toNat_drawBits hf hw]
  exact drawMag_mono hf hw h v.isLt

end

/-- Settles O49: the table at binary32 and at binary64, and monotonicity. -/
theorem converterRangeIsTheClosedUnitInterval : Obligations.ConverterRangeIsTheClosedUnitInterval := by
  unfold Obligations.ConverterRangeIsTheClosedUnitInterval
  simp only [u2f32_eq, u2f64_eq]
  refine ⟨fun k u => ?_, fun k u v => drawBits_mono standardFormat_binary32 width_binary32 _, fun k u => ?_,
    fun k u v => drawBits_mono standardFormat_binary64 width_binary64 _⟩
  · obtain ⟨hle, hzero, hge, hone, hprev, htop⟩ := drawBits_range standardFormat_binary32 width_binary32 (qNaN32 k) u
    refine ⟨hle, hzero, hge, BitVec.eq_of_toNat_eq hone, BitVec.toNat_eq.trans (hprev.trans ?_),
      BitVec.toNat_eq.trans (htop.trans ?_)⟩
    · simp only [binary32]
      omega
    · simp only [binary32]
      omega
  · obtain ⟨hle, hzero, hge, hone, hprev, htop⟩ := drawBits_range standardFormat_binary64 width_binary64 (qNaN64 k) u
    refine ⟨hle, hzero, hge, BitVec.eq_of_toNat_eq hone, BitVec.toNat_eq.trans (hprev.trans ?_),
      BitVec.toNat_eq.trans (htop.trans ?_)⟩
    · simp only [binary64]
      omega
    · simp only [binary64]
      omega

end Sys2Proof.Machine
end

section
/-!
PROOFS. Scaling (spec/42_uniform.md R100, R103, R104), at any format: sums with a zero, products with 1.0 and with a zero, and what the three
primitives make of the bounds.
-/

namespace Sys2Proof.Machine

/-! ## Sums with a zero, products with 1.0 and with a zero -/

theorem roundMag_zero {f : FloatFormat} (hf : StandardFormat f) (k : Nat) : roundMag f k 0 = 0 :=
  roundMag_of_exact hf (Nat.zero_le _) (by simp)

section
variable {f : FloatFormat} {w : Nat} (nan : BitVec w) {x y : BitVec w} (hx : IsFinite f x) (hy : IsFinite f y)
include hx hy

theorem addBits_comm : addBits f nan x y = addBits f nan y x := by
  rw [addBits, addBits, valueOf_of_isFinite hx, valueOf_of_isFinite hy]
  simp only [floatAdd, Int.add_comm, Bool.and_comm]

theorem mulBits_comm : mulBits f nan x y = mulBits f nan y x := by
  rw [mulBits, mulBits, valueOf_of_isFinite hx, valueOf_of_isFinite hy]
  simp only [floatMul, Nat.mul_comm, Bool.xor_comm]

end

theorem subBits_self {f : FloatFormat} {w : Nat} (nan : BitVec w) {x : BitVec w} (hx : IsFinite f x) :
    subBits f nan x x = signedPattern f w false 0 := by
  rw [subBits, valueOf_of_isFinite hx]
  simp [floatSub, floatNeg, floatAdd, signedUnits_not]

section
variable {f : FloatFormat} {w : Nat} (hf : StandardFormat f) (hw : w = signPos f + 1) (nan : BitVec w)
include hf hw

theorem isFinite_zero (a : Bool) : IsFinite f (signedPattern f w a 0) := isFinite_signedPattern hw a hf.infMag_pos

theorem isFinite_one : IsFinite f (signedPattern f w false (oneMag f)) := by
  have hone := one_add_lt_infMag hf 0 (Nat.two_pow_pos _)
  exact isFinite_signedPattern hw false (by omega)

omit hf in
/-- To subtract a finite number is to add the number of the other sign. -/
theorem subBits_eq_addBits {q : Nat} (x : BitVec w) (b : Bool) (hq : q < infMag f) :
    subBits f nan x (signedPattern f w b q) = addBits f nan x (signedPattern f w (!b) q) := by
  rw [subBits, addBits, valueOf_signedPattern_of_lt hw b hq, valueOf_signedPattern_of_lt hw (!b) hq]
  rfl

/-- A zero added to a number that is not zero changes nothing. -/
theorem addBits_zero {p : Nat} (a b : Bool) (hp : p < infMag f) (h0 : p ≠ 0) :
    addBits f nan (signedPattern f w a p) (signedPattern f w b 0) = signedPattern f w a p := by
  have hsign : decide (signedUnits a (magUnits f p) < 0) = a := by simp [signedUnits_neg_iff, h0]
  rw [addBits, valueOf_signedPattern_of_lt hw a hp, valueOf_zero hw hf]
  simp [floatAdd, h0, hsign, roundMag_of_exact hf hp.le]

theorem zero_addBits {p : Nat} (a b : Bool) (hp : p < infMag f) (h0 : p ≠ 0) :
    addBits f nan (signedPattern f w b 0) (signedPattern f w a p) = signedPattern f w a p := by
  rw [addBits_comm nan (isFinite_zero hf hw b) (isFinite_signedPattern hw a hp), addBits_zero hf hw nan a b hp h0]

theorem zero_addBits_zero (a b : Bool) :
    addBits f nan (signedPattern f w a 0) (signedPattern f w b 0) = signedPattern f w (a && b) 0 := (zero_bits hw nan hf a b).1

/-- 1.0 times a number that is no NaN is the number. -/
theorem one_mulBits {x : BitVec w} (hx : ¬ IsNaN f x) : mulBits f nan (signedPattern f w false (oneMag f)) x = x := by
  have hone := one_add_lt_infMag hf 0 (Nat.two_pow_pos _)
  have hvalue := valueOf_signedPattern_of_lt hw false (mag := oneMag f) (by omega)
  rw [magUnits_oneMag hf] at hvalue
  rcases isFinite_or_infinity_or_isNaN hw x with h | h | h
  · obtain ⟨a, p, hp, rfl⟩ := exists_of_isFinite hw h
    rw [mulBits, hvalue, valueOf_signedPattern_of_lt hw a hp]
    simp [floatMul, roundMag_of_exact hf hp.le (Nat.mul_comm _ _)]
  · generalize x.getLsbD (signPos f) = a at h
    rw [h, mulBits, hvalue, valueOf_infinity hw]
    simp [floatMul]
  · exact absurd h hx

theorem mulBits_one {x : BitVec w} (hx : IsFinite f x) : mulBits f nan x (signedPattern f w false (oneMag f)) = x := by
  rw [mulBits_comm nan hx (isFinite_one hf hw), one_mulBits hf hw nan (Nat.lt_asymm hx)]

/-- `+0` times a finite number is the zero of its sign. -/
theorem zero_mulBits {x : BitVec w} (hx : IsFinite f x) :
    mulBits f nan (signedPattern f w false 0) x = signedPattern f w (x.getLsbD (signPos f)) 0 := by
  rw [mulBits, valueOf_zero hw hf, valueOf_of_isFinite hx]
  simp [floatMul, roundMag_zero hf]

omit hf in
/-- A number that is not negative times an infinity is that infinity, but for a zero. -/
theorem mulBits_infinity {p : Nat} (c : Bool) (hp : p < infMag f) :
    mulBits f nan (signedPattern f w false p) (signedPattern f w c (infMag f)) =
      if p = 0 then nan else signedPattern f w c (infMag f) := by
  rw [mulBits, valueOf_signedPattern_of_lt hw false hp, valueOf_infinity hw]
  by_cases h0 : p = 0 <;> simp [floatMul, h0]

end

/-! ## Scaling -/

/-- `SCALE32` and `SCALE64` at any format, with the NaNs of the three primitives (R100). -/
def scaleBits (f : FloatFormat) {w : Nat} (nanSub nanMul nanAdd d lo hi : BitVec w) : BitVec w :=
  addBits f nanAdd (mulBits f nanMul d (subBits f nanSub hi lo)) lo

theorem scale32_eq (k : Nat) (d lo hi : F32) :
    scale32 k d lo hi = scaleBits binary32 (qNaN32 k) (qNaN32 (k + 1)) (qNaN32 (k + 2)) d lo hi := by
  rw [scale32, add32_eq, mul32f_eq, sub32_eq, scaleBits]

theorem scale64_eq (k : Nat) (d lo hi : F64) :
    scale64 k d lo hi = scaleBits binary64 (qNaN64 k) (qNaN64 (k + 1)) (qNaN64 (k + 2)) d lo hi := by
  rw [scale64, add64_eq, mul64f_eq, sub64_eq, scaleBits]

section
variable {f : FloatFormat} {w : Nat} (hf : StandardFormat f) (hw : w = signPos f + 1) (nanSub nanMul nanAdd : BitVec w)
include hf hw

/-- The bounds `+0` and 1.0 return a draw unchanged (R100). -/
theorem scaleBits_default {p : Nat} (hp : p < infMag f) :
    scaleBits f nanSub nanMul nanAdd (signedPattern f w false p) (signedPattern f w false 0) (signedPattern f w false (oneMag f)) =
      signedPattern f w false p := by
  have hone := one_add_lt_infMag hf 0 (Nat.two_pow_pos _)
  have hone0 := oneMag_ge (f := f) 0 (by have := hf.room; omega)
  have hfrac := Nat.two_pow_pos f.fracBits
  rw [scaleBits, subBits_eq_addBits hw _ _ _ hf.infMag_pos, addBits_zero hf hw _ _ _ (by omega) (by omega),
    mulBits_one hf hw _ (isFinite_signedPattern hw false hp)]
  by_cases h0 : p = 0
  · rw [h0, zero_addBits_zero hf hw, Bool.and_false]
  · rw [addBits_zero hf hw _ _ _ hp h0]

/-- Equal finite bounds give the bound, except that `-0` gives `+0` (R103). -/
theorem scaleBits_equal {p : Nat} (hp : p < infMag f) {v : BitVec w} (hv : IsFinite f v) :
    scaleBits f nanSub nanMul nanAdd (signedPattern f w false p) v v =
      if v = signedPattern f w true 0 then signedPattern f w false 0 else v := by
  have hd := isFinite_signedPattern hw false hp
  have hzero := isFinite_zero hf hw false
  rw [scaleBits, subBits_self _ hv, mulBits_comm _ hd hzero, zero_mulBits hf hw _ hd,
    getLsbD_sign_signedPattern hw false (hp.trans (infMag_lt f))]
  split
  · next h => rw [h, zero_addBits_zero hf hw, Bool.false_and]
  · next h =>
    obtain ⟨a, q, hq, rfl⟩ := exists_of_isFinite hw hv
    by_cases h0 : q = 0
    · subst h0
      cases a with
      | false => rw [zero_addBits_zero hf hw, Bool.and_false]
      | true => exact absurd rfl h
    · rw [zero_addBits hf hw _ _ _ hq h0]

/-- A zero draw gives the lower bound, where the difference of the bounds is finite and the bound is not `-0` (R104 (a)). -/
theorem scaleBits_zero_draw {lo hi : BitVec w} (hlo : IsFinite f lo) (hsub : IsFinite f (subBits f nanSub hi lo))
    (hne : lo ≠ signedPattern f w true 0) :
    scaleBits f nanSub nanMul nanAdd (signedPattern f w false 0) lo hi = lo := by
  obtain ⟨a, q, hq, rfl⟩ := exists_of_isFinite hw hlo
  rw [scaleBits, zero_mulBits hf hw _ hsub]
  by_cases h0 : q = 0
  · subst h0
    cases a with
    | false => rw [zero_addBits_zero hf hw, Bool.and_false]
    | true => exact absurd rfl hne
  · rw [zero_addBits hf hw _ _ _ hq h0]

/-- A zero draw above the lower bound `-0` gives the zero of the upper bound's sign, where a zero counts as positive (R104 (a)). -/
theorem scaleBits_zero_draw_neg_zero {hi : BitVec w} (hhi : IsFinite f hi) :
    scaleBits f nanSub nanMul nanAdd (signedPattern f w false 0) (signedPattern f w true 0) hi =
      signedPattern f w (decide (unitsOf f hi < 0)) 0 := by
  obtain ⟨a, q, hq, rfl⟩ := exists_of_isFinite hw hhi
  have hq' := hq.trans (infMag_lt f)
  rw [scaleBits, subBits_eq_addBits hw _ _ _ hf.infMag_pos, Bool.not_true, unitsOf_signedPattern hw a hq']
  by_cases h0 : q = 0
  · subst h0
    rw [zero_addBits_zero hf hw, zero_mulBits hf hw _ (isFinite_zero hf hw _), getLsbD_sign_signedPattern hw _ hq',
      zero_addBits_zero hf hw]
    simp
  · rw [addBits_zero hf hw _ _ _ hq h0, zero_mulBits hf hw _ (isFinite_signedPattern hw a hq), getLsbD_sign_signedPattern hw _ hq',
      zero_addBits_zero hf hw]
    simp [signedUnits_neg_iff, h0]

/-- A draw of 1.0 gives the sum of the difference and the lower bound (R104 (b)). -/
theorem scaleBits_one_draw {lo hi : BitVec w} (h : ¬ IsNaN f (subBits f nanSub hi lo)) :
    scaleBits f nanSub nanMul nanAdd (signedPattern f w false (oneMag f)) lo hi = addBits f nanAdd (subBits f nanSub hi lo) lo := by
  rw [scaleBits, one_mulBits hf hw _ h]

/-- Where the difference is an infinity, the result is that infinity for a draw that is not zero (R104 (c), (d)). -/
theorem scaleBits_infinite_difference {p : Nat} (hp : p < infMag f) (h0 : p ≠ 0) {lo hi : BitVec w} (hlo : IsFinite f lo) {a : Bool}
    (h : subBits f nanSub hi lo = signedPattern f w a (infMag f)) :
    scaleBits f nanSub nanMul nanAdd (signedPattern f w false p) lo hi = signedPattern f w a (infMag f) := by
  rw [scaleBits, h, mulBits_infinity hw _ _ hp, if_neg h0]
  obtain ⟨hadd, -⟩ := infinity_bits hf hw nanAdd a a hlo
  exact hadd

end

/-! ## Scaling to a NaN -/

section
variable {f : FloatFormat} {w : Nat} (hw : w = signPos f + 1) {nanSub nanMul : BitVec w} (nanAdd : BitVec w)
  (hsub : IsNaN f nanSub) (hmul : IsNaN f nanMul)
include hmul

theorem scaleBits_of_product_nan {d lo hi : BitVec w} (h : mulBits f nanMul d (subBits f nanSub hi lo) = nanMul) :
    scaleBits f nanSub nanMul nanAdd d lo hi = nanAdd := by
  obtain ⟨hadd, -⟩ := bits_nan nanAdd (y := lo) (.inl hmul)
  rw [scaleBits, h, hadd]

theorem scaleBits_of_difference_nan {d lo hi : BitVec w} (h : IsNaN f (subBits f nanSub hi lo)) :
    scaleBits f nanSub nanMul nanAdd d lo hi = nanAdd := by
  obtain ⟨-, -, hproduct, -⟩ := bits_nan nanMul (x := d) (.inr h)
  exact scaleBits_of_product_nan nanAdd hmul hproduct

include hw

/-- Where the difference is an infinity, a zero draw gives a NaN (R104 (c), (d)). -/
theorem scaleBits_zero_draw_infinite_difference (hf : StandardFormat f) {lo hi : BitVec w} {a : Bool}
    (h : subBits f nanSub hi lo = signedPattern f w a (infMag f)) :
    scaleBits f nanSub nanMul nanAdd (signedPattern f w false 0) lo hi = nanAdd := by
  refine scaleBits_of_product_nan nanAdd hmul ?_
  rw [h, mulBits_infinity hw _ _ hf.infMag_pos, if_pos rfl]

omit hmul in
/-- What an infinity subtracted leaves is the infinity of the other sign or a NaN. -/
theorem subBits_infinity (a : Bool) (hi : BitVec w) :
    subBits f nanSub hi (signedPattern f w a (infMag f)) = signedPattern f w (!a) (infMag f) ∨
      subBits f nanSub hi (signedPattern f w a (infMag f)) = nanSub := by
  rw [subBits, valueOf_infinity hw]
  cases valueOf f hi with
  | nan => exact .inr rfl
  | inf b =>
    simp only [floatSub, floatNeg, floatAdd]
    split
    · next h => exact .inl (by rw [h, packBits_num])
    · exact .inr rfl
  | fin b m => exact .inl rfl

include hsub

/-- A NaN bound or an infinite lower bound gives a NaN for every draw (R104 (d), (e)). -/
theorem scaleBits_nan (hf : StandardFormat f) {p : Nat} (hp : p < infMag f) {lo hi : BitVec w} {a : Bool}
    (h : IsNaN f lo ∨ IsNaN f hi ∨ lo = signedPattern f w a (infMag f)) :
    scaleBits f nanSub nanMul nanAdd (signedPattern f w false p) lo hi = nanAdd := by
  rcases h with h | h | rfl
  · obtain ⟨hadd, -⟩ := bits_nan nanAdd (.inr h)
    exact hadd
  · obtain ⟨-, hdifference, -⟩ := bits_nan nanSub (y := lo) (.inl h)
    exact scaleBits_of_difference_nan nanAdd hmul (by rwa [hdifference])
  · rcases subBits_infinity hw (nanSub := nanSub) a hi with hd | hd
    · by_cases h0 : p = 0
      · exact h0 ▸ scaleBits_zero_draw_infinite_difference hw nanAdd hmul hf hd
      · obtain ⟨-, hadd, -⟩ := invalid_bits nanAdd hf hw (!a) a
        rw [Bool.not_not] at hadd
        rw [scaleBits, hd, mulBits_infinity hw _ _ hp, if_neg h0, hadd]
    · exact scaleBits_of_difference_nan nanAdd hmul (by rwa [hd])

end

/-! ## Scaling of a converted draw -/

section
variable {f : FloatFormat} {w : Nat} (hf : StandardFormat f) (hw : w = signPos f + 1)
include hf hw

/-- A converted draw is a finite number that is not negative, and a zero only where the draw is. -/
theorem exists_drawBits_eq (nan u : BitVec w) :
    ∃ p, p < infMag f ∧ (p = 0 ↔ u = 0) ∧ drawBits f nan u = signedPattern f w false p := by
  refine ⟨drawMag f w u.toNat, drawMag_lt_infMag hf hw u, ?_, drawBits_eq hf hw nan u⟩
  rw [drawMag_eq_zero_iff hf hw u.isLt, BitVec.toNat_eq, BitVec.ofNat_eq_ofNat, BitVec.toNat_zero]

theorem scaleBits_draw_default (nanSub nanMul nanAdd nan u : BitVec w) :
    scaleBits f nanSub nanMul nanAdd (drawBits f nan u) (signedPattern f w false 0) (signedPattern f w false (oneMag f)) =
      drawBits f nan u := by
  obtain ⟨p, hp, -, hdraw⟩ := exists_drawBits_eq hf hw nan u
  rw [hdraw, scaleBits_default hf hw _ _ _ hp]

theorem scaleBits_draw_equal (nanSub nanMul nanAdd nan u : BitVec w) {v : BitVec w} (hv : IsFinite f v) :
    scaleBits f nanSub nanMul nanAdd (drawBits f nan u) v v =
      if v = signedPattern f w true 0 then signedPattern f w false 0 else v := by
  obtain ⟨p, hp, -, hdraw⟩ := exists_drawBits_eq hf hw nan u
  rw [hdraw, scaleBits_equal hf hw _ _ _ hp hv]

theorem scaleBits_draw_nan {nanSub nanMul : BitVec w} (nanAdd nan u : BitVec w) (hsub : IsNaN f nanSub) (hmul : IsNaN f nanMul)
    {lo hi : BitVec w} {a : Bool} (h : IsNaN f lo ∨ IsNaN f hi ∨ lo = signedPattern f w a (infMag f)) :
    scaleBits f nanSub nanMul nanAdd (drawBits f nan u) lo hi = nanAdd := by
  obtain ⟨p, hp, -, hdraw⟩ := exists_drawBits_eq hf hw nan u
  rw [hdraw, scaleBits_nan hw _ hsub hmul hf hp h]

/-- Where the difference of the bounds is an infinity: that infinity, or a NaN for a zero draw (R104 (c), (d)). -/
theorem scaleBits_draw_infinite_difference {nanSub nanMul : BitVec w} (nanAdd nan u : BitVec w) (hmul : IsNaN f nanMul)
    {lo hi : BitVec w} {a : Bool} (hlo : IsFinite f lo) (h : subBits f nanSub hi lo = signedPattern f w a (infMag f)) :
    (u ≠ 0 → scaleBits f nanSub nanMul nanAdd (drawBits f nan u) lo hi = signedPattern f w a (infMag f)) ∧
      (u = 0 → scaleBits f nanSub nanMul nanAdd (drawBits f nan u) lo hi = nanAdd) := by
  obtain ⟨p, hp, hzero, hdraw⟩ := exists_drawBits_eq hf hw nan u
  rw [hdraw]
  refine ⟨fun h0 => ?_, fun h0 => ?_⟩
  · exact scaleBits_infinite_difference hf hw _ _ _ hp (hzero.not.mpr h0) hlo h
  · rw [hzero.mpr h0, scaleBits_zero_draw_infinite_difference hw _ hmul hf h]

end

end Sys2Proof.Machine
end

section
/-!
PROOFS. The uniform commands (spec/42_uniform.md R100 to R104): scaling of a converted draw at binary32 and at binary64, and the two commands
in terms of the words drawn.
-/

namespace Sys2Proof.Machine

/-! ## The default range and equal bounds (R100, R103) -/

theorem one32_eq : 0x3F800000#32 = signedPattern binary32 32 false (oneMag binary32) := rfl
theorem one64_eq : 0x3FF0000000000000#64 = signedPattern binary64 64 false (oneMag binary64) := rfl

/-- Settles O50: scaling by definition; the default range at any format. -/
theorem defaultRangeReturnsTheConvertedDraw : Obligations.DefaultRangeReturnsTheConvertedDraw := by
  unfold Obligations.DefaultRangeReturnsTheConvertedDraw
  refine ⟨fun _ _ _ _ => rfl, fun _ _ _ _ => rfl, fun k j u => ?_, fun k j u => ?_⟩
  · rw [u2f32_eq, scale32_eq]
    exact scaleBits_draw_default standardFormat_binary32 width_binary32 _ _ _ _ u
  · rw [u2f64_eq, scale64_eq]
    exact scaleBits_draw_default standardFormat_binary64 width_binary64 _ _ _ _ u

/-- Settles O51, at any format. -/
theorem equalBoundsGiveTheBound : Obligations.EqualBoundsGiveTheBound := by
  unfold Obligations.EqualBoundsGiveTheBound
  refine ⟨fun k j u v hv => ?_, fun k j u v hv => ?_⟩
  · rw [u2f32_eq, scale32_eq]
    exact scaleBits_draw_equal standardFormat_binary32 width_binary32 _ _ _ _ u ((finite32_iff v).mp hv)
  · rw [u2f64_eq, scale64_eq]
    exact scaleBits_draw_equal standardFormat_binary64 width_binary64 _ _ _ _ u ((finite64_iff v).mp hv)

/-! ## The two commands in terms of the words drawn (R101, R102) -/

/-- The state of a response given after drawing words and numbering NaN draws, field by field against the state before. -/
theorem respond_useNaNDraws_of_drawWords {k n : Nat} {s t : State} {ws : List Word} (r : Response)
    (h : drawWords k s = .value ws t) : respond r (useNaNDraws n t) =
      { s with x := t.x, index := t.index, nanDraws := s.nanDraws + n, responses := s.responses ++ [r] } :=
  (congrArg (fun v => respond r (useNaNDraws n v)) (drawWords_frame h) :)

theorem nanDraws_of_drawWords {k : Nat} {s t : State} {ws : List Word} (h : drawWords k s = .value ws t) :
    t.nanDraws = s.nanDraws := (congrArg State.nanDraws (drawWords_frame h) :)

section
variable {s : State} (hs : s.fatal = false)
include hs

theorem exec_uniformF32_of_gt (lower upper : F32) (h : 624 < s.index.toNat) :
    exec (.uniformF32 lower upper) s = .next (respond (errorResponse .fatal) (setFatal s)) := by
  simp only [exec, execUniformF32, command_of_not_fatal hs, nextWord_of_gt h, andThen_raised, finish_raised]

theorem exec_uniformF64_of_gt (lower upper : F64) (h : 624 < s.index.toNat) :
    exec (.uniformF64 lower upper) s = .next (respond (errorResponse .fatal) (setFatal s)) := by
  simp only [exec, execUniformF64, command_of_not_fatal hs, nextPair, nextWord_of_gt h, andThen_raised, finish_raised]

/-- `UNIFORM_F32` responds the scaled value of the word it draws (R101). -/
theorem exec_uniformF32_of_nextWord (lower upper : F32) {t : State} {u : Word} (h : nextWord s = .value u t) :
    exec (.uniformF32 lower upper) s = .next { s with
      x := t.x, index := t.index, nanDraws := s.nanDraws + 4,
      responses := s.responses ++ [response32 (scale32 (s.nanDraws + 1) (u2f32 s.nanDraws u) lower upper)] } := by
  have hdraw := drawWords_one h
  simp only [exec, execUniformF32, command_of_not_fatal hs, h, andThen_value, finish_value,
    respond_useNaNDraws_of_drawWords _ hdraw, nanDraws_of_drawWords hdraw]

/-- `UNIFORM_F64` responds the scaled value of the pair it draws, high word first (R102). -/
theorem exec_uniformF64_of_nextWord (lower upper : F64) {s1 s2 : State} {hi lo : Word} (h1 : nextWord s = .value hi s1)
    (h2 : nextWord s1 = .value lo s2) :
    exec (.uniformF64 lower upper) s = .next { s with
      x := s2.x, index := s2.index, nanDraws := s.nanDraws + 4,
      responses := s.responses ++
        [response64 (scale64 (s.nanDraws + 1) (u2f64 s.nanDraws (pair64 hi lo)) lower upper)] } := by
  have hdraw := drawWords_two h1 h2
  simp only [exec, execUniformF64, command_of_not_fatal hs, nextPair, h1, h2, andThen_value, finish_value,
    respond_useNaNDraws_of_drawWords _ hdraw, nanDraws_of_drawWords hdraw]

end

/-- Two words as the number of the pair (R102). -/
theorem pair64_eq_ofNat (hi lo : Word) : pair64 hi lo = BitVec.ofNat 64 (hi.toNat * 2 ^ 32 + lo.toNat) := by
  rw [← toNat_pair64, BitVec.ofNat_toNat, BitVec.setWidth_eq]

/-- Settles O53: op 4 selects `UNIFORM_F32`, the flag or the cursor refuses it, and otherwise it draws one word and responds. -/
theorem uniformF32RespondsTheScaledDraw : Obligations.UniformF32RespondsTheScaledDraw := by
  unfold Obligations.UniformF32RespondsTheScaledDraw
  refine ⟨fun b a => ?_, fun lower upper s =>
    ⟨exec_of_fatal (.uniformF32 lower upper), fun hs => exec_uniformF32_of_gt hs lower upper, fun hs => ?_⟩⟩
  · rw [decode_eq_uniformF32 (Laws.EncodedOpcode.fieldOp_packWord 4 b a), fieldA_packWord, fieldB_packWord, operand32, operand32]
  · obtain ⟨u, s1, h, -⟩ := exists_nextWord_of_operational hs
    refine ⟨u, s1, h, ?_⟩
    rw [exec_uniformF32_of_nextWord hs.1 lower upper h, scale32, u2f32, divisor32_eq]
    rfl

/-- Settles O54: op 5 selects `UNIFORM_F64`, the flag or the cursor refuses it, and otherwise it draws two words and responds. -/
theorem uniformF64RespondsTheScaledDraw : Obligations.UniformF64RespondsTheScaledDraw := by
  unfold Obligations.UniformF64RespondsTheScaledDraw
  refine ⟨fun b a => ?_, fun lower upper s =>
    ⟨exec_of_fatal (.uniformF64 lower upper), fun hs => exec_uniformF64_of_gt hs lower upper, fun hs => ?_⟩⟩
  · rw [decode_eq_uniformF64 (Laws.EncodedOpcode.fieldOp_packWord 5 b a), fieldA_packWord, fieldB_packWord]
  · obtain ⟨hi, s1, h1, hs1⟩ := exists_nextWord_of_operational hs
    obtain ⟨lo, s2, h2, -⟩ := exists_nextWord_of_operational hs1
    refine ⟨hi, lo, s1, s2, h1, h2, ?_⟩
    rw [exec_uniformF64_of_nextWord hs.1 lower upper h1 h2, pair64_eq_ofNat, scale64, u2f64, divisor64_eq]
    rfl

/-! ## Other bounds (R104) -/

theorem scale32_nan (k j : Nat) (u : Word) {lo hi : F32} {a : Bool} (h : AnyNaN32 lo ∨ AnyNaN32 hi ∨ lo = inf32 a) :
    QuietNaN32 (scale32 k (u2f32 j u) lo hi) := by
  rw [anyNaN32_iff, anyNaN32_iff, inf32_eq] at h
  rw [u2f32_eq, scale32_eq, scaleBits_draw_nan standardFormat_binary32 width_binary32 _ _ _ (isNaN_qNaN32 k) (isNaN_qNaN32 _) h]
  exact qNaN32_quiet (k + 2)

theorem scale64_nan (k j : Nat) (u : BitVec 64) {lo hi : F64} {a : Bool} (h : AnyNaN64 lo ∨ AnyNaN64 hi ∨ lo = inf64 a) :
    QuietNaN64 (scale64 k (u2f64 j u) lo hi) := by
  rw [anyNaN64_iff, anyNaN64_iff, inf64_eq] at h
  rw [u2f64_eq, scale64_eq, scaleBits_draw_nan standardFormat_binary64 width_binary64 _ _ _ (isNaN_qNaN64 k) (isNaN_qNaN64 _) h]
  exact qNaN64_quiet (k + 2)

theorem scale32_infinite_difference (k j : Nat) (u : Word) {lo hi : F32} {a : Bool} (hlo : Finite32 lo)
    (h : sub32 k hi lo = inf32 a) :
    (u ≠ 0 → scale32 k (u2f32 j u) lo hi = inf32 a) ∧ (u = 0 → QuietNaN32 (scale32 k (u2f32 j u) lo hi)) := by
  rw [finite32_iff] at hlo
  rw [sub32_eq, inf32_eq] at h
  obtain ⟨hinf, hnan⟩ := scaleBits_draw_infinite_difference standardFormat_binary32 width_binary32 (qNaN32 (k + 2)) (qNaN32 j) u
    (isNaN_qNaN32 (k + 1)) hlo h
  rw [u2f32_eq, scale32_eq, inf32_eq]
  exact ⟨hinf, fun h0 => (hnan h0).symm ▸ qNaN32_quiet (k + 2)⟩

theorem scale64_infinite_difference (k j : Nat) (u : BitVec 64) {lo hi : F64} {a : Bool} (hlo : Finite64 lo)
    (h : sub64 k hi lo = inf64 a) :
    (u ≠ 0 → scale64 k (u2f64 j u) lo hi = inf64 a) ∧ (u = 0 → QuietNaN64 (scale64 k (u2f64 j u) lo hi)) := by
  rw [finite64_iff] at hlo
  rw [sub64_eq, inf64_eq] at h
  obtain ⟨hinf, hnan⟩ := scaleBits_draw_infinite_difference standardFormat_binary64 width_binary64 (qNaN64 (k + 2)) (qNaN64 j) u
    (isNaN_qNaN64 (k + 1)) hlo h
  rw [u2f64_eq, scale64_eq, inf64_eq]
  exact ⟨hinf, fun h0 => (hnan h0).symm ▸ qNaN64_quiet (k + 2)⟩

/-- The bounds -3e38 and 3e38 overflow (R104 (c)). -/
theorem sub32_overflow_example (k : Nat) : sub32 k 0x7F61B1E6#32 0xFF61B1E6#32 = inf32 false := by
  have h : floatSub binary32 (unpack32 0x7F61B1E6#32) (unpack32 0xFF61B1E6#32) = .num false (infMag binary32) := by
    decide +kernel
  rw [sub32, h]
  rfl

/-- The bounds -5.0 and -1.6 with a draw of 1.0 (R104 (b)). -/
theorem scale32_above_upper_example (k : Nat) : scale32 k 0x3F800000#32 0xC0A00000#32 0xBFCCCCCD#32 = 0xBFCCCCCC#32 := by
  have hd : floatSub binary32 (unpack32 0xBFCCCCCD#32) (unpack32 0xC0A00000#32) = .num false 0x4059999A := by decide +kernel
  have hp : floatMul binary32 (unpack32 0x3F800000#32) (unpack32 0x4059999A#32) = .num false 0x4059999A := by decide +kernel
  have hr : floatAdd binary32 (unpack32 0x4059999A#32) (unpack32 0xC0A00000#32) = .num true 0x3FCCCCCC := by decide +kernel
  have hdifference : pack32 k (.num false 0x4059999A) = 0x4059999A#32 := rfl
  have hproduct : pack32 (k + 1) (.num false 0x4059999A) = 0x4059999A#32 := rfl
  rw [scale32, sub32, hd, hdifference, mul32f, hp, hproduct, add32, hr]
  rfl

theorem sub32_infinity_example (k : Nat) : sub32 k (inf32 false) (zero32 false) = inf32 false := by
  have hzero := isFinite_zero standardFormat_binary32 width_binary32 false
  obtain ⟨-, -, hsub, -⟩ := infinity_bits standardFormat_binary32 width_binary32 (qNaN32 k) false false hzero
  rw [sub32_eq, inf32_eq, zero32_eq, hsub]

theorem sub64_infinity_example (k : Nat) : sub64 k (inf64 false) (zero64 false) = inf64 false := by
  have hzero := isFinite_zero standardFormat_binary64 width_binary64 false
  obtain ⟨-, -, hsub, -⟩ := infinity_bits standardFormat_binary64 width_binary64 (qNaN64 k) false false hzero
  rw [sub64_eq, inf64_eq, zero64_eq, hsub]

/-- Settles O52: each clause about scaling at any format, the examples computed, and the status from what the commands respond. -/
theorem otherBoundsAreNoErrors : Obligations.OtherBoundsAreNoErrors := by
  unfold Obligations.OtherBoundsAreNoErrors
  have hf32 := standardFormat_binary32
  have hf64 := standardFormat_binary64
  have hw32 := width_binary32
  have hw64 := width_binary64
  refine ⟨fun k lo hi hlo _ hsub hne => ?_, fun k hi hhi => ?_, fun k lo hi h => ?_, fun k j u lo hi a => scale32_nan k j u,
    fun k j u lo hi a => scale32_infinite_difference k j u,
    fun k lo hi hlo _ hsub hne => ?_, fun k hi hhi => ?_, fun k lo hi h => ?_, fun k j u lo hi a => scale64_nan k j u,
    fun k j u lo hi a => scale64_infinite_difference k j u,
    fun k => ⟨sub32_overflow_example k, sub32_infinity_example k, sub64_infinity_example k, scale32_above_upper_example k⟩,
    fun lower upper s hs => ?_, fun lower upper s hs => ?_⟩
  · rw [finite32_iff] at hlo hsub
    rw [sub32_eq] at hsub
    rw [zero32_eq] at hne ⊢
    rw [scale32_eq, scaleBits_zero_draw hf32 hw32 _ _ _ hlo hsub hne]
  · rw [finite32_iff] at hhi
    rw [zero32_eq, zero32_eq, zero32_eq, scale32_eq, units32_eq, scaleBits_zero_draw_neg_zero hf32 hw32 _ _ _ hhi]
  · rw [anyNaN32_iff, sub32_eq] at h
    rw [one32_eq, scale32_eq, scaleBits_one_draw hf32 hw32 _ _ _ h, add32_eq, sub32_eq]
  · rw [finite64_iff] at hlo hsub
    rw [sub64_eq] at hsub
    rw [zero64_eq] at hne ⊢
    rw [scale64_eq, scaleBits_zero_draw hf64 hw64 _ _ _ hlo hsub hne]
  · rw [finite64_iff] at hhi
    rw [zero64_eq, zero64_eq, zero64_eq, scale64_eq, units64_eq, scaleBits_zero_draw_neg_zero hf64 hw64 _ _ _ hhi]
  · rw [anyNaN64_iff, sub64_eq] at h
    rw [one64_eq, scale64_eq, scaleBits_one_draw hf64 hw64 _ _ _ h, add64_eq, sub64_eq]
  · obtain ⟨u, s1, h, -⟩ := exists_nextWord_of_operational hs
    exact ⟨_, _, u, s1, h, exec_uniformF32_of_nextWord hs.1 lower upper h, rfl, rfl, rfl⟩
  · obtain ⟨hi, s1, h1, hs1⟩ := exists_nextWord_of_operational hs
    obtain ⟨lo, s2, h2, -⟩ := exists_nextWord_of_operational hs1
    exact ⟨_, _, hi, lo, s1, s2, h1, h2, exec_uniformF64_of_nextWord hs.1 lower upper h1 h2, rfl, rfl, rfl⟩

end Sys2Proof.Machine
end

section
/-!
PROOFS. Two exact products of the Box-Muller sampler (spec/43_gaussian.md R111, R117), at any format: a doubling, and a product with a zero.
-/

namespace Sys2Proof.Machine

/-! ## Multiplication by 2 of either sign (R111) -/

/-- Twice a value of the format is a value of the format, were its exponents unbounded: of a subnormal the pattern doubles, otherwise the
exponent field grows by one. -/
theorem exists_magUnits_eq_two_mul (f : FloatFormat) (p : Nat) : ∃ q, magUnits f q = 2 * magUnits f p := by
  rcases Nat.lt_or_ge p (2 ^ f.fracBits) with hsub | hnormal
  · have hvalue : ∀ q, q ≤ 2 * 2 ^ f.fracBits → magUnits f q = q := fun q hq => by
      simpa using magUnits_significand f (t := 0) hq (.inl rfl)
    exact ⟨2 * p, by rw [hvalue _ (by omega), hvalue _ (by omega)]⟩
  · exact ⟨p + 1 * 2 ^ f.fracBits, by rw [magUnits_add_exponent f hnormal, pow_one, Nat.mul_comm]⟩

section
variable {f : FloatFormat} (hf : StandardFormat f)
include hf

/-- An exact value that rounds below infinity and that some pattern stands for is the value of its rounding. -/
theorem magUnits_roundMag_of_exact {k m p : Nat} (h : magUnits f p * 2 ^ k = m) (hfin : roundMag f k m < infMag f) :
    magUnits f (roundMag f k m) = magUnits f p := by
  have hround := (isRounding_unboundedMag hf.fracBits_pos k m).unique (.of_exact (Nat.two_pow_pos k) h) (Nat.two_pow_pos k)
  rw [roundMag_eq_min, hround] at hfin ⊢
  rw [Nat.min_eq_left (by omega)]

/-- A finite product of 2 of either sign and a finite number is exact. -/
theorem unitsOf_two_mulBits {w : Nat} (hw : w = signPos f + 1) (nan : BitVec w) (a : Bool) {x : BitVec w} (hx : IsFinite f x)
    (hfin : IsFinite f (mulBits f nan (signedPattern f w a (oneMag f + 1 * 2 ^ f.fracBits)) x)) :
    unitsOf f (mulBits f nan (signedPattern f w a (oneMag f + 1 * 2 ^ f.fracBits)) x) = signedUnits a 2 * unitsOf f x := by
  obtain ⟨b, p, hp, rfl⟩ := exists_of_isFinite hw hx
  have htwo := one_add_lt_infMag hf 1 (by have := hf.room; omega)
  have hproduct : mulBits f nan (signedPattern f w a (oneMag f + 1 * 2 ^ f.fracBits)) (signedPattern f w b p) =
      signedPattern f w (a ^^ b) (roundMag f (unitExp f) (2 ^ 1 * 2 ^ unitExp f * magUnits f p)) := by
    rw [mulBits, valueOf_signedPattern_of_lt hw a htwo, valueOf_signedPattern_of_lt hw b hp, magUnits_one_add hf]
    rfl
  obtain ⟨q, hq⟩ := exists_magUnits_eq_two_mul f p
  rw [hproduct] at hfin ⊢
  rw [IsFinite, magOf_signedPattern hw _ (roundMag_lt_two_pow f _ _)] at hfin
  rw [unitsOf_signedPattern hw _ (roundMag_lt_two_pow f _ _), unitsOf_signedPattern hw b (hp.trans (infMag_lt f)),
    magUnits_roundMag_of_exact hf (p := q) (by rw [hq]; ring) hfin, hq, signedUnits_mul]

end

theorem neg2F32_eq : Const.neg2F32 = signedPattern binary32 32 true (oneMag binary32 + 1 * 2 ^ binary32.fracBits) := rfl
theorem neg2F64_eq : Const.neg2F64 = signedPattern binary64 64 true (oneMag binary64 + 1 * 2 ^ binary64.fracBits) := rfl

theorem two_mul_pi32 (k : Nat) : mul32f k 0x40000000#32 0x40490FDB#32 = Const.twoPiF32 := by
  have h : floatMul binary32 (unpack32 0x40000000#32) (unpack32 0x40490FDB#32) = .num false 0x40C90FDB := by decide +kernel
  rw [mul32f, h]
  rfl

theorem two_mul_pi64 (k : Nat) : mul64f k 0x4000000000000000#64 0x400921FB54442D18#64 = Const.twoPiF64 := by
  have h : floatMul binary64 (unpack64 0x4000000000000000#64) (unpack64 0x400921FB54442D18#64) = .num false 0x401921FB54442D18 := by
    decide +kernel
  rw [mul64f, h]
  rfl

/-- Settles O55: `2 * PI` is computed, and -2 is 2 of negative sign. -/
theorem samplerConstantsAreExact : Obligations.SamplerConstantsAreExact := by
  unfold Obligations.SamplerConstantsAreExact
  refine ⟨fun k => ⟨two_mul_pi32 k, two_mul_pi64 k⟩, fun k t ht hfin => ?_, fun k t ht hfin => ?_⟩
  · rw [finite32_iff] at ht hfin
    rw [neg2F32_eq, mul32f_eq] at hfin ⊢
    rw [units32_eq, units32_eq, unitsOf_two_mulBits standardFormat_binary32 width_binary32 _ true ht hfin]
    rfl
  · rw [finite64_iff] at ht hfin
    rw [neg2F64_eq, mul64f_eq] at hfin ⊢
    rw [units64_eq, units64_eq, unitsOf_two_mulBits standardFormat_binary64 width_binary64 _ true ht hfin]
    rfl

/-! ## A standard deviation of zero (R117) -/

section
variable {f : FloatFormat} {w : Nat} (hf : StandardFormat f) (hw : w = signPos f + 1)
include hf hw

/-- A finite number times a zero of either sign is a zero. -/
theorem mulBits_zero (nan : BitVec w) {x : BitVec w} (hx : IsFinite f x) (a : Bool) :
    mulBits f nan x (signedPattern f w a 0) = signedPattern f w (x.getLsbD (signPos f) ^^ a) 0 := by
  rw [mulBits, valueOf_of_isFinite hx, valueOf_zero hw hf, floatMul, Nat.mul_zero, roundMag_zero hf, packBits_num]

/-- A finite number times a zero, added to a finite number that is not zero, changes nothing. -/
theorem addBits_mulBits_zero (nanAdd nanMul : BitVec w) {x y : BitVec w} (hx : IsFinite f x) (a : Bool) (hy : IsFinite f y)
    (h0 : unitsOf f y ≠ 0) : addBits f nanAdd (mulBits f nanMul x (signedPattern f w a 0)) y = y := by
  obtain ⟨b, p, hp, rfl⟩ := exists_of_isFinite hw hy
  rw [unitsOf_signedPattern hw b (hp.trans (infMag_lt f)), Ne, signedUnits_eq_zero_iff, magUnits_eq_zero_iff] at h0
  rw [mulBits_zero hf hw nanMul hx, zero_addBits hf hw nanAdd _ _ hp h0]

end

theorem exists_zero32_eq {v : F32} (h : v = 0#32 ∨ v = 0x80000000#32) : ∃ a, v = zero32 a :=
  h.elim (fun h => ⟨false, h⟩) fun h => ⟨true, h⟩

theorem exists_zero64_eq {v : F64} (h : v = 0#64 ∨ v = 0x8000000000000000#64) : ∃ a, v = zero64 a :=
  h.elim (fun h => ⟨false, h⟩) fun h => ⟨true, h⟩

/-- Settles O59, at binary32 and at binary64. -/
theorem zeroSigmaGivesTheMean : Obligations.ZeroSigmaGivesTheMean := by
  unfold Obligations.ZeroSigmaGivesTheMean
  refine ⟨fun k j X sigma mean hX hsigma hmean h0 => ?_, fun k j X sigma mean hX hsigma hmean h0 => ?_⟩
  · rw [finite32_iff] at hX hmean
    rw [units32_eq] at h0
    obtain ⟨a, rfl⟩ := exists_zero32_eq hsigma
    rw [zero32_eq, mul32f_eq, add32_eq, addBits_mulBits_zero standardFormat_binary32 width_binary32 _ _ hX a hmean h0]
  · rw [finite64_iff] at hX hmean
    rw [units64_eq] at h0
    obtain ⟨a, rfl⟩ := exists_zero64_eq hsigma
    rw [zero64_eq, mul64f_eq, add64_eq, addBits_mulBits_zero standardFormat_binary64 width_binary64 _ _ hX a hmean h0]

end Sys2Proof.Machine
end

section
/-!
PROOFS. Zero words in a row (spec/43_gaussian.md R113, notes/assumptions/4.md): 1248 of them hold a whole pass of the array that began with a
twist, the array is then all zero, and every word drawn afterwards is zero.
-/

namespace Sys2Proof.Machine

/-! ## The all-zero array -/

/-- The array of 624 zero words. -/
def zeroArray : StateArray := Vector.replicate 624 0

@[simp] theorem wordAt_zeroArray (i : Nat) : wordAt zeroArray i = 0 := Vector.getElem_replicate _

theorem mix_zero : mix 0 0 0 = 0 := by decide

/-- The twist of the all-zero array is all zero, in either order. -/
theorem twistWith_zeroArray (order : TwistOrder) : twistWith order zeroArray = zeroArray := by
  refine array_ext fun i hi => ?_
  rw [wordAt_zeroArray]
  cases order with
  | snapshot => rw [wordAt_twistWith_snapshot _ hi, wordAt_zeroArray, wordAt_zeroArray, wordAt_zeroArray, mix_zero]
  | sequential =>
    induction i using Nat.strong_induction_on with
    | _ i ih =>
      have hcontent : ∀ j, contentAt zeroArray i j = 0 := fun j => by
        unfold contentAt
        split
        · next hj => exact ih j hj (hj.trans hi)
        · exact wordAt_zeroArray j
      rw [wordAt_twistWith_sequential _ hi, hcontent, hcontent, hcontent, mix_zero]

theorem iterate_twistArray_zeroArray (k : Nat) : twistArray^[k] zeroArray = zeroArray :=
  Function.iterate_fixed (twistWith_zeroArray Config.twistOrder) k

/-- Where the 624 words drawn from a twist on are zero, every word drawn from it on is zero. -/
theorem drawnWord_eq_zero_of_pass {s : State} (h : ∀ j, j < 624 → drawnWord s j = 0) (j : Nat) : drawnWord s j = 0 := by
  have hzero : twistArray s.x = zeroArray := array_ext fun i hi => by
    have hword : temper (wordAt (twistArray s.x) i) = 0 := by
      simpa [drawnWord, Nat.div_eq_of_lt hi, Nat.mod_eq_of_lt hi] using h i hi
    rw [wordAt_zeroArray]
    exact temper_injective (hword.trans temper_zero.symm)
  rw [drawnWord, Function.iterate_succ_apply, hzero, iterate_twistArray_zeroArray, wordAt_zeroArray, temper_zero]

/-! ## Draws up to the next twist and beyond -/

/-- The words left in the array can be drawn, and then the next twist is due. -/
theorem exists_drawWords_full {s : State} (h : s.index.toNat ≤ 624) :
    ∃ ws t, drawWords (624 - s.index.toNat) s = .value ws t ∧ t.index = 624 := by
  generalize hk : 624 - s.index.toNat = k
  induction k generalizing s with
  | zero => exact ⟨[], s, rfl, BitVec.eq_of_toNat_eq (by rw [show (624 : BitVec 10).toNat = 624 from rfl]; omega)⟩
  | succ k ih =>
    have hlt : s.index.toNat < 624 := by omega
    have hnext := index_succ_toNat hlt
    obtain ⟨ws, t, hws, ht⟩ := ih (s := { s with index := s.index + 1 }) (by rw [hnext]; omega) (by rw [hnext]; omega)
    exact ⟨_, t, by rw [drawWords, nextWord_of_lt hlt, andThen_value, hws, andThen_value], ht⟩

/-- After 1248 or more zero words in a row every word drawn is zero. -/
theorem drawWords_eq_zeros_of_two_passes {n m : Nat} {s t u : State} {ws : List Word} (hs : Operational s) (hn : 1248 ≤ n)
    (hzeros : drawWords n s = .value (List.replicate n 0) t) (h : drawWords m t = .value ws u) : ∀ w ∈ ws, w = 0 := by
  obtain ⟨vs, p, hvs, hp⟩ := exists_drawWords_full hs.2
  have hk : 624 - s.index.toNat ≤ 624 := Nat.sub_le _ _
  generalize 624 - s.index.toNat = k at hvs hk
  have hall := drawWords_append hvs (drawWords_of_full hp (n + m - k))
  rw [Nat.add_sub_cancel' (by omega), drawWords_append hzeros h] at hall
  have hwords := congrArg (List.drop k) (Run.value.inj hall).1
  rw [List.drop_append_of_le_length (by rw [List.length_replicate]; omega), List.drop_replicate,
    List.drop_left' (length_of_drawWords hvs)] at hwords
  have hpass : ∀ j, j < 624 → drawnWord p j = 0 := fun j hj => by
    have hword := congrArg (·[j]?) hwords
    have hj' : j < n - k := by omega
    have hj'' : j < n + m - k := by omega
    simpa [List.getElem?_append, hj', hj''] using hword.symm
  intro w hw
  obtain ⟨j, -, rfl⟩ := List.mem_map.mp (hwords ▸ List.mem_append_right _ hw)
  exact drawnWord_eq_zero_of_pass hpass j

/-- Zero words are drawn one by one. -/
theorem exists_nextWord_of_zeros {k : Nat} {s t : State} (h : drawWords (k + 1) s = .value (List.replicate (k + 1) 0) t) :
    ∃ s1, nextWord s = .value 0 s1 ∧ drawWords k s1 = .value (List.replicate k 0) t := by
  obtain ⟨v, s1, hv, hrest⟩ := andThen_eq_value.mp h
  obtain ⟨vs, s2, hvs, hend⟩ := andThen_eq_value.mp hrest
  obtain ⟨hwords, rfl⟩ := Run.value.inj hend
  obtain ⟨rfl, rfl⟩ := List.cons.inj hwords
  exact ⟨s1, hv, hvs⟩

end Sys2Proof.Machine
end

section
/-!
PROOFS. The Gaussian commands (spec/43_gaussian.md R113 to R115): the resample loop by the words it draws, and the two commands in terms of
the accepted draws.
-/

namespace Sys2Proof.Machine

/-! ## The resample loop (R113) -/

theorem u2f32_eq_zero_iff (k : Nat) (u : Word) : u2f32 k u = 0 ↔ u = 0 := by
  obtain ⟨-, hzero, -⟩ := drawBits_range standardFormat_binary32 width_binary32 (qNaN32 k) u
  rw [u2f32_eq, hzero]

theorem u2f64_eq_zero_iff (k : Nat) (u : BitVec 64) : u2f64 k u = 0 ↔ u = 0 := by
  obtain ⟨-, hzero, -⟩ := drawBits_range standardFormat_binary64 width_binary64 (qNaN64 k) u
  rw [u2f64_eq, hzero]

theorem pair64_eq_zero_iff {hi lo : Word} : pair64 hi lo = 0 ↔ hi = 0 ∧ lo = 0 := by
  simp only [BitVec.toNat_eq, toNat_pair64, BitVec.ofNat_eq_ofNat, BitVec.toNat_zero]
  omega

theorem nextPair_of_nextWord {s s1 s2 : State} {hi lo : Word} (h1 : nextWord s = .value hi s1) (h2 : nextWord s1 = .value lo s2) :
    nextPair s = .value (pair64 hi lo) s2 := by
  rw [nextPair, h1, andThen_value, h2, andThen_value]

/-- Out of range the first draw of the loop raises `Fatal`. -/
theorem drawA32_of_gt {s : State} (fuel : Nat) (h : 624 < s.index.toNat) :
    drawA32 (fuel + 1) s = .raised .fatal (setFatal s) := by
  rw [drawA32, nextWord_of_gt h, andThen_raised]

theorem drawA64_of_gt {s : State} (fuel : Nat) (h : 624 < s.index.toNat) :
    drawA64 (fuel + 1) s = .raised .fatal (setFatal s) := by
  rw [drawA64, nextPair, nextWord_of_gt h, andThen_raised, andThen_raised]

/-- A draw that is not zero is accepted. -/
theorem drawA32_of_ne_zero {s t : State} {u : Word} (fuel : Nat) (h : nextWord s = .value u t) (h0 : u ≠ 0) :
    drawA32 (fuel + 1) s = .value (u2f32 t.nanDraws u) t := by
  rw [drawA32, h, andThen_value, if_neg (mt (u2f32_eq_zero_iff _ u).mp h0)]

theorem drawA64_of_ne_zero {s t : State} {u : BitVec 64} (fuel : Nat) (h : nextPair s = .value u t) (h0 : u ≠ 0) :
    drawA64 (fuel + 1) s = .value (u2f64 t.nanDraws u) t := by
  rw [drawA64, h, andThen_value, if_neg (mt (u2f64_eq_zero_iff _ u).mp h0)]

/-- Zero words are rejected, one an iteration. -/
theorem drawA32_of_zeros {n : Nat} {s t : State} (fuel : Nat) (h : drawWords n s = .value (List.replicate n 0) t) :
    drawA32 (fuel + n) s = drawA32 fuel t := by
  induction n generalizing s with
  | zero =>
    cases h
    rfl
  | succ n ih =>
    obtain ⟨s1, hnext, hrest⟩ := exists_nextWord_of_zeros h
    rw [← Nat.add_assoc, drawA32, hnext, andThen_value, if_pos ((u2f32_eq_zero_iff _ 0).mpr rfl), ih hrest]

/-- Zero words are rejected, two an iteration. -/
theorem drawA64_of_zeros {n : Nat} {s t : State} (fuel : Nat) (h : drawWords (2 * n) s = .value (List.replicate (2 * n) 0) t) :
    drawA64 (fuel + n) s = drawA64 fuel t := by
  induction n generalizing s with
  | zero =>
    cases h
    rfl
  | succ n ih =>
    obtain ⟨s1, hhi, hrest⟩ := exists_nextWord_of_zeros h
    obtain ⟨s2, hlo, hrest⟩ := exists_nextWord_of_zeros hrest
    rw [← Nat.add_assoc, drawA64, nextPair_of_nextWord hhi hlo, andThen_value,
      if_pos ((u2f64_eq_zero_iff _ _).mpr (pair64_eq_zero_iff.mpr ⟨rfl, rfl⟩)), ih hrest]

/-- From an operational state the loop's bound is never met before a draw that is not zero (notes/assumptions/4.md). -/
theorem drawA32_of_zeros_then_word {n : Nat} {u : Word} {s s0 s1 : State} (hs : Operational s)
    (hzeros : drawWords n s = .value (List.replicate n 0) s0) (hu : nextWord s0 = .value u s1) (h0 : u ≠ 0) :
    drawA32 resampleFuel s = .value (u2f32 s1.nanDraws u) s1 := by
  have hn : n < 1248 := by
    by_contra hle
    exact h0 (drawWords_eq_zeros_of_two_passes hs (Nat.not_lt.mp hle) hzeros (drawWords_one hu) u (by simp))
  rw [show resampleFuel = 1247 - n + 1 + n by rw [resampleFuel]; omega, drawA32_of_zeros _ hzeros, drawA32_of_ne_zero _ hu h0]

theorem drawA64_of_zeros_then_pair {n : Nat} {hi lo : Word} {s s0 s1 s2 : State} (hs : Operational s)
    (hzeros : drawWords (2 * n) s = .value (List.replicate (2 * n) 0) s0) (hhi : nextWord s0 = .value hi s1)
    (hlo : nextWord s1 = .value lo s2) (h0 : pair64 hi lo ≠ 0) :
    drawA64 resampleFuel s = .value (u2f64 s2.nanDraws (pair64 hi lo)) s2 := by
  have hn : n < 1248 := by
    by_contra hle
    have hwords := drawWords_eq_zeros_of_two_passes hs (by omega) hzeros (drawWords_two hhi hlo)
    exact h0 (pair64_eq_zero_iff.mpr ⟨hwords hi (by simp), hwords lo (by simp)⟩)
  rw [show resampleFuel = 1247 - n + 1 + n by rw [resampleFuel]; omega, drawA64_of_zeros _ hzeros,
    drawA64_of_ne_zero _ (nextPair_of_nextWord hhi hlo) h0]

/-! ## The two commands (R114, R115) -/

section
variable {s : State} (hs : s.fatal = false)
include hs

theorem exec_gaussianF32_of_gt (mean sigma : F32) (h : 624 < s.index.toNat) :
    exec (.gaussianF32 mean sigma) s = .next (respond (errorResponse .fatal) (setFatal s)) := by
  have hloop : drawA32 resampleFuel s = .raised .fatal (setFatal s) := drawA32_of_gt 1247 h
  simp only [exec, execGaussianF32, command_of_not_fatal hs, hloop, andThen_raised, finish_raised]

theorem exec_gaussianF64_of_gt (mean sigma : F64) (h : 624 < s.index.toNat) :
    exec (.gaussianF64 mean sigma) s = .next (respond (errorResponse .fatal) (setFatal s)) := by
  have hloop : drawA64 resampleFuel s = .raised .fatal (setFatal s) := drawA64_of_gt 1247 h
  simp only [exec, execGaussianF64, command_of_not_fatal hs, hloop, andThen_raised, finish_raised]

/-- `GAUSSIAN_F32` responds the sample of the accepted draw and the word after it. -/
theorem exec_gaussianF32_of_draws (mean sigma : F32) {s1 s2 : State} {A : F32} {w : Word}
    (hA : drawA32 resampleFuel s = .value A s1) (hw : nextWord s1 = .value w s2) :
    exec (.gaussianF32 mean sigma) s = .next (respond
      (response32 (boxMuller32 (s2.nanDraws + 1) A (u2f32 s2.nanDraws w) mean sigma)) (useNaNDraws 7 s2)) := by
  simp only [exec, execGaussianF32, command_of_not_fatal hs, hA, hw, andThen_value, finish_value]

/-- `GAUSSIAN_F64` responds the sample of the accepted draw and the pair after it. -/
theorem exec_gaussianF64_of_draws (mean sigma : F64) {s1 s2 : State} {A : F64} {w : BitVec 64}
    (hA : drawA64 resampleFuel s = .value A s1) (hw : nextPair s1 = .value w s2) :
    exec (.gaussianF64 mean sigma) s = .next (respond
      (response64 (boxMuller64 (s2.nanDraws + 1) A (u2f64 s2.nanDraws w) mean sigma)) (useNaNDraws 7 s2)) := by
  simp only [exec, execGaussianF64, command_of_not_fatal hs, hA, hw, andThen_value, finish_value]

end

/-- Settles O56: op 6 selects `GAUSSIAN_F32`, the flag or the cursor refuses it, and otherwise the loop ends at the first word that is not
zero; the frame is that of the `n + 2` words drawn. -/
theorem gaussianF32RespondsTheBoxMullerSample : Obligations.GaussianF32RespondsTheBoxMullerSample := by
  unfold Obligations.GaussianF32RespondsTheBoxMullerSample
  refine ⟨fun b a => ?_, fun mean sigma s => ⟨exec_of_fatal (.gaussianF32 mean sigma),
    fun hs => exec_gaussianF32_of_gt hs mean sigma, fun n u w s0 s1 s2 hs hzeros hu h0 hw => ?_⟩⟩
  · rw [decode_eq_gaussianF32 (Laws.EncodedOpcode.fieldOp_packWord 6 b a), fieldA_packWord, fieldB_packWord, operand32, operand32]
  · have hall := drawWords_append hzeros (drawWords_two hu hw)
    rw [exec_gaussianF32_of_draws hs.1 mean sigma (drawA32_of_zeros_then_word hs hzeros hu h0) hw,
      respond_useNaNDraws_of_drawWords _ hall, nanDraws_of_drawWords hall,
      nanDraws_of_drawWords (drawWords_append hzeros (drawWords_one hu))]
    rfl

/-- Settles O57: as `GAUSSIAN_F32`, by pairs of words; the frame is that of the `2 n + 4` words drawn. -/
theorem gaussianF64RespondsTheBoxMullerSample : Obligations.GaussianF64RespondsTheBoxMullerSample := by
  unfold Obligations.GaussianF64RespondsTheBoxMullerSample
  refine ⟨fun b a => ?_, fun mean sigma s => ⟨exec_of_fatal (.gaussianF64 mean sigma),
    fun hs => exec_gaussianF64_of_gt hs mean sigma, fun n h1 l1 h2 l2 s0 s1 s2 s3 s4 hs hzeros hh1 hl1 h0 hh2 hl2 => ?_⟩⟩
  · rw [decode_eq_gaussianF64 (Laws.EncodedOpcode.fieldOp_packWord 7 b a), fieldA_packWord, fieldB_packWord]
  · have hA := drawWords_append hzeros (drawWords_two hh1 hl1)
    have hall := drawWords_append hA (drawWords_two hh2 hl2)
    have hne : pair64 h1 l1 ≠ 0 := mt pair64_eq_zero_iff.mp (not_and_or.mpr h0)
    rw [exec_gaussianF64_of_draws hs.1 mean sigma (drawA64_of_zeros_then_pair hs hzeros hh1 hl1 hne) (nextPair_of_nextWord hh2 hl2),
      respond_useNaNDraws_of_drawWords _ hall, nanDraws_of_drawWords hall, nanDraws_of_drawWords hA, pair64_eq_ofNat, pair64_eq_ofNat]
    rfl

end Sys2Proof.Machine
end

section
/-!
PROOFS. Error conditions (spec/60_exceptions.md R125 to R131, R138): what a command raises while it draws, every way in which a command
can end in an answer (`Answer`), and the statements about the three conditions read off from that.
-/

namespace Sys2Proof.Machine

/-! ## What is raised by drawing (R128) -/

/-- If a run ends with a value, then with one of which `P` holds; the only condition it raises is `Fatal`, and then the flag is set. -/
def Run.YieldsOrFatal {α : Type} (P : α → Prop) : Run α → Prop
  | .value v _ => P v
  | .raised c t => c = .fatal ∧ t.fatal = true
  | .stuck => True

theorem Run.YieldsOrFatal.andThen {α β : Type} {Q : α → Prop} {P : β → Prop} {r : Run α} {k : α → State → Run β}
    (hr : r.YieldsOrFatal Q) (hk : ∀ v t, (k v t).YieldsOrFatal P) : (r.andThen k).YieldsOrFatal P := by
  cases r with
  | value v t => exact hk v t
  | raised c t => exact hr
  | stuck => trivial

/-- A run that raises no condition but `Fatal`, whatever its value. -/
abbrev Run.RaisesOnlyFatal {α : Type} (r : Run α) : Prop := r.YieldsOrFatal fun _ => True

theorem raisesOnlyFatal_nextWord (s : State) : (nextWord s).RaisesOnlyFatal := by
  rcases nextWord_cases s with ⟨-, h⟩ | ⟨v, t, h, -⟩
  · rw [h]
    exact ⟨rfl, rfl⟩
  · rw [h]
    trivial

theorem raisesOnlyFatal_nextPair (s : State) : (nextPair s).RaisesOnlyFatal :=
  (raisesOnlyFatal_nextWord s).andThen fun _ t => (raisesOnlyFatal_nextWord t).andThen fun _ _ => trivial

theorem raisesOnlyFatal_drawBytes (q : Nat) (s : State) : (drawBytes q s).RaisesOnlyFatal := by
  induction q generalizing s with
  | zero => trivial
  | succ q ih => exact (raisesOnlyFatal_nextWord s).andThen fun _ t => (ih t).andThen fun _ _ => trivial

theorem raisesOnlyFatal_drawTail (r : Nat) (s : State) : (drawTail r s).RaisesOnlyFatal := by
  unfold drawTail
  split
  · trivial
  · exact (raisesOnlyFatal_nextWord s).andThen fun _ _ => trivial

theorem raisesOnlyFatal_drawStream (length : Nat) (s : State) : (drawStream length s).RaisesOnlyFatal :=
  (raisesOnlyFatal_drawBytes _ s).andThen fun _ t => (raisesOnlyFatal_drawTail _ t).andThen fun _ _ => trivial

/-- What is drawn does not matter, so `A` stands for it and Lean computes no quotient. -/
theorem raisesOnlyFatal_drawA32 (fuel : Nat) (s : State) : (drawA32 fuel s).RaisesOnlyFatal := by
  induction fuel generalizing s with
  | zero => trivial
  | succ fuel ih =>
    refine (raisesOnlyFatal_nextWord s).andThen fun u t => ?_
    generalize u2f32 t.nanDraws u = A
    split
    · exact ih t
    · trivial

theorem raisesOnlyFatal_drawA64 (fuel : Nat) (s : State) : (drawA64 fuel s).RaisesOnlyFatal := by
  induction fuel generalizing s with
  | zero => trivial
  | succ fuel ih =>
    refine (raisesOnlyFatal_nextPair s).andThen fun u t => ?_
    generalize u2f64 t.nanDraws u = A
    split
    · exact ih t
    · trivial

/-- Every command that draws has a body that ends in `OK` or in `Fatal`. -/
theorem exec_eq_command_ok_or_fatal {i : Instr} (h : DrawsAWord i) :
    ∃ body, (∀ s, exec i s = command s body) ∧ ∀ s, (body s).YieldsOrFatal fun r => r.status = .ok := by
  cases i with
  | seed seed => exact h.elim
  | nextU32 => exact ⟨_, fun _ => rfl, fun s => (raisesOnlyFatal_nextWord s).andThen fun _ _ => rfl⟩
  | nextU64 => exact ⟨_, fun _ => rfl, fun s => (raisesOnlyFatal_nextPair s).andThen fun _ _ => rfl⟩
  | nextBytes length =>
    exact ⟨_, exec_nextBytes_served h, fun s => (raisesOnlyFatal_drawStream length.toNat s).andThen fun _ _ => rfl⟩
  | uniformF32 lower upper => exact ⟨_, fun _ => rfl, fun s => (raisesOnlyFatal_nextWord s).andThen fun _ _ => rfl⟩
  | uniformF64 lower upper => exact ⟨_, fun _ => rfl, fun s => (raisesOnlyFatal_nextPair s).andThen fun _ _ => rfl⟩
  | gaussianF32 mean sigma =>
    exact ⟨_, fun _ => rfl, fun s => (raisesOnlyFatal_drawA32 resampleFuel s).andThen fun _ t =>
      (raisesOnlyFatal_nextWord t).andThen fun _ _ => rfl⟩
  | gaussianF64 mean sigma =>
    exact ⟨_, fun _ => rfl, fun s => (raisesOnlyFatal_drawA64 resampleFuel s).andThen fun _ t =>
      (raisesOnlyFatal_nextPair t).andThen fun _ _ => rfl⟩

/-! ## Commands by the order of their checks (R130) -/

/-- A cursor out of range is found by every command that draws, at its first draw (R128). -/
theorem exec_of_gt {i : Instr} {s : State} (hi : DrawsAWord i) (hs : s.fatal = false) (h : 624 < s.index.toNat) :
    exec i s = .next (respond (errorResponse .fatal) (setFatal s)) := by
  cases i with
  | seed seed => exact hi.elim
  | nextU32 =>
    rw [exec_nextU32_of_not_fatal hs, nextWord_of_gt h]
    rfl
  | nextU64 => exact exec_nextU64_of_gt hs h
  | nextBytes length => exact exec_nextBytes_of_gt hs hi h
  | uniformF32 lower upper => exact exec_uniformF32_of_gt hs lower upper h
  | uniformF64 lower upper => exact exec_uniformF64_of_gt hs lower upper h
  | gaussianF32 mean sigma => exact exec_gaussianF32_of_gt hs mean sigma h
  | gaussianF64 mean sigma => exact exec_gaussianF64_of_gt hs mean sigma h

/-- In normal operation a command that draws answers `OK`: its body raises `Fatal` alone, which would leave the flag set. -/
theorem exists_ok_of_exec {i : Instr} {s t : State} (hi : DrawsAWord i) (hs : Operational s) (h : exec i s = .next t) :
    ∃ r u, t = respond r u ∧ r.status = .ok := by
  have hdrawn := drawn_of_exec hi hs h
  obtain ⟨body, hexec, hbody⟩ := exec_eq_command_ok_or_fatal hi
  rw [hexec, command_of_not_fatal hs.1] at h
  have hends := hbody s
  rcases finish_eq_next.mp h with ⟨r, u, hr, rfl⟩ | ⟨c, u, hr, rfl⟩
  · rw [hr] at hends
    exact ⟨r, u, rfl, hends⟩
  · rw [hr] at hends
    exact absurd hdrawn.1 (by simp [hends.2])

/-- Nothing but its one response is added to the channels by a command (R45). -/
theorem channels_of_exec {i : Instr} {s u : State} {r : Response} (h : exec i s = .next (respond r u)) :
    u.input = s.input ∧ u.responses = s.responses := by
  obtain ⟨a, v, -, hchannels⟩ := exec_withChannels h
  have hself : respond r u = respond a (v.withChannels s.input s.responses) :=
    Host.Outcome.next.inj (h.symm.trans (hchannels s.input s.responses))
  exact ⟨(congrArg State.input hself :), List.append_inj_left' (congrArg State.responses hself :) rfl⟩

/-- The condition with which a command's operand is refused, before any draw: the second and third check of R130. -/
def refusal : Instr → Option Condition
  | .nextBytes length =>
    if length ≤ 0 then some .invalidArgument else if 10485760 < length then some .resourceLimitExceeded else none
  | _ => none

theorem refusal_eq_invalidArgument_iff {i : Instr} :
    refusal i = some .invalidArgument ↔ ∃ length, i = .nextBytes length ∧ length ≤ 0 := by
  cases i with
  | nextBytes length => simp [refusal]
  | seed | nextU32 | nextU64 | uniformF32 | uniformF64 | gaussianF32 | gaussianF64 => simp [refusal]

theorem refusal_eq_resourceLimitExceeded_iff {i : Instr} :
    refusal i = some .resourceLimitExceeded ↔ ∃ length, i = .nextBytes length ∧ 10485760 < length := by
  cases i with
  | nextBytes length =>
    by_cases hle : length ≤ 0
    · have hmax : ¬ 10485760 < length := by omega
      simp [refusal, hle, hmax]
    · simp [refusal, hle]
  | seed | nextU32 | nextU64 | uniformF32 | uniformF64 | gaussianF32 | gaussianF64 => simp [refusal]

/-- A refusal is one of the two recoverable conditions. -/
theorem ne_fatal_of_refusal {i : Instr} {c : Condition} (h : refusal i = some c) : c ≠ .fatal := by
  rintro rfl
  cases i with
  | nextBytes length =>
    simp only [refusal] at h
    split_ifs at h <;> cases h
  | seed | nextU32 | nextU64 | uniformF32 | uniformF64 | gaussianF32 | gaussianF64 => cases h

theorem refusal_of_drawsAWord {i : Instr} (h : DrawsAWord i) : refusal i = none := by
  cases i with
  | nextBytes length =>
    rw [refusal, if_neg (Int.not_le.mpr h.1), if_neg (Int.not_lt.mpr h.2)]
  | seed | nextU32 | nextU64 | uniformF32 | uniformF64 | gaussianF32 | gaussianF64 => rfl

/-- A refused command answers with its condition and changes nothing else, whatever the cursor (R126, R127). -/
theorem exec_of_refusal {i : Instr} {s : State} {c : Condition} (hs : s.fatal = false) (h : refusal i = some c) :
    exec i s = .next (respond (errorResponse c) s) := by
  cases c with
  | invalidArgument =>
    obtain ⟨length, rfl, hlength⟩ := refusal_eq_invalidArgument_iff.mp h
    exact exec_nextBytes_of_nonpos hs hlength
  | resourceLimitExceeded =>
    obtain ⟨length, rfl, hlength⟩ := refusal_eq_resourceLimitExceeded_iff.mp h
    exact exec_nextBytes_of_oversized hs hlength
  | fatal => exact absurd rfl (ne_fatal_of_refusal h)

/-- A command that is not refused draws, but for `SEED` (R128). -/
theorem seed_or_drawsAWord {i : Instr} (h : refusal i = none) : (∃ seed, i = .seed seed) ∨ DrawsAWord i := by
  cases i with
  | seed seed => exact .inl ⟨seed, rfl⟩
  | nextBytes length =>
    have hpos : ¬ length ≤ 0 := fun hle => by simp [refusal, hle] at h
    have hmax : ¬ 10485760 < length := fun hlt => by simp [refusal, hpos, hlt] at h
    exact .inr ⟨Int.not_le.mp hpos, Int.not_lt.mp hmax⟩
  | nextU32 | nextU64 | uniformF32 | uniformF64 | gaussianF32 | gaussianF64 => exact .inr trivial

/-! ## The ways in which a command ends in an answer (R125, R130, R131) -/

/-- By the order of the checks of R130: the response, and the state to whose responses it is appended. -/
inductive Answer (i : Instr) (s : State) : Response → State → Prop where
  | flagSet (hs : s.fatal = true) : Answer i s (errorResponse .fatal) s
  | refused (hs : s.fatal = false) {c : Condition} (hi : refusal i = some c) : Answer i s (errorResponse c) s
  | badCursor (hs : s.fatal = false) (hi : DrawsAWord i) (h : 624 < s.index.toNat) :
      Answer i s (errorResponse .fatal) (setFatal s)
  | ok (hs : s.fatal = false) (hi : refusal i = none) (hcursor : DrawsAWord i → s.index.toNat ≤ 624) {r : Response}
      (hr : r.status = .ok) {u : State} (hu : u.fatal = false) (hinput : u.input = s.input)
      (hresponses : u.responses = s.responses) : Answer i s r u

/-- Every command that answers does so in one of these ways. -/
theorem answer_of_exec {i : Instr} {s t : State} (h : exec i s = .next t) : ∃ r u, Answer i s r u ∧ t = respond r u := by
  by_cases hs : s.fatal = true
  · rw [exec_of_fatal i hs] at h
    cases h
    exact ⟨_, s, .flagSet hs, rfl⟩
  rw [Bool.not_eq_true] at hs
  rcases (Option.eq_none_or_eq_some (refusal i)).symm with ⟨c, hi⟩ | hi
  · rw [exec_of_refusal hs hi] at h
    cases h
    exact ⟨_, s, .refused hs hi, rfl⟩
  rcases seed_or_drawsAWord hi with ⟨seed, rfl⟩ | hdraws
  · rw [exec_seed_of_not_fatal seed hs] at h
    cases h
    exact ⟨plainResponse, seedState seed s, .ok hs hi False.elim rfl hs rfl rfl, rfl⟩
  rcases Nat.lt_or_ge 624 s.index.toNat with hgt | hle
  · rw [exec_of_gt hdraws hs hgt] at h
    cases h
    exact ⟨_, _, .badCursor hs hdraws hgt, rfl⟩
  · have hdrawn := drawn_of_exec hdraws ⟨hs, hle⟩ h
    obtain ⟨r, u, rfl, hr⟩ := exists_ok_of_exec hdraws ⟨hs, hle⟩ h
    obtain ⟨hinput, hresponses⟩ := channels_of_exec h
    exact ⟨r, u, .ok hs hi (fun _ => hle) hr hdrawn.1 hinput hresponses, rfl⟩

theorem conditionStatus_injective : Function.Injective conditionStatus := by
  rintro (_ | _ | _) (_ | _ | _) ⟨⟩ <;> rfl

theorem conditionStatus_ne_ok (c : Condition) : conditionStatus c ≠ .ok := by
  cases c <;> exact nofun

section
variable {i : Instr} {s u : State} {r : Response} (h : Answer i s r u)
include h

theorem Answer.channels : u.input = s.input ∧ u.responses = s.responses := by
  cases h with
  | ok _ _ _ _ _ hinput hresponses => exact ⟨hinput, hresponses⟩
  | flagSet | refused | badCursor => exact ⟨rfl, rfl⟩

/-- An answer that is not `OK` is the response of a condition, and the generator is as it was. -/
theorem Answer.of_not_ok (hr : r.status ≠ .ok) : r.data = 0 ∧ r.bytes = [] ∧ u.x = s.x ∧ u.index = s.index := by
  cases h with
  | ok _ _ _ hok => exact absurd hok hr
  | flagSet | refused | badCursor => exact ⟨rfl, rfl, rfl, rfl⟩

/-- A recoverable condition is reported exactly when the flag is clear and the command is refused with it. -/
theorem Answer.recoverable_iff {c : Condition} (hc : c ≠ .fatal) :
    r.status = conditionStatus c ↔ s.fatal = false ∧ refusal i = some c := by
  have hne : conditionStatus .fatal ≠ conditionStatus c := conditionStatus_injective.ne hc.symm
  cases h with
  | flagSet hs => exact iff_of_false hne (by simp [hs])
  | refused hs hi =>
    rw [hi, Option.some_inj]
    exact ⟨fun hr => ⟨hs, conditionStatus_injective hr⟩, fun hr => congrArg conditionStatus hr.2⟩
  | badCursor hs hi => exact iff_of_false hne (by simp [refusal_of_drawsAWord hi])
  | ok hs hi _ hr => exact iff_of_false (hr ▸ (conditionStatus_ne_ok c).symm) (by simp [hi])

theorem Answer.fatal_iff : r.status = .fatal ↔ s.fatal = true ∨ (DrawsAWord i ∧ 624 < s.index.toNat) := by
  cases h with
  | flagSet hs => exact iff_of_true rfl (.inl hs)
  | badCursor _ hi hgt => exact iff_of_true rfl (.inr ⟨hi, hgt⟩)
  | refused hs hi =>
    have hdraws : ¬ DrawsAWord i := fun hdraws => nomatch hi.symm.trans (refusal_of_drawsAWord hdraws)
    exact iff_of_false (conditionStatus_injective.ne (ne_fatal_of_refusal hi)) (by simp [hs, hdraws])
  | ok hs _ hcursor hr =>
    refine iff_of_false (by simp [hr]) ?_
    rintro (hfatal | ⟨hdraws, hgt⟩)
    · simp [hs] at hfatal
    · exact absurd (hcursor hdraws) (Nat.not_le.mpr hgt)

/-- `Fatal` is reported exactly when the flag is set afterwards (R129, R131). -/
theorem Answer.fatal_iff_flag : r.status = .fatal ↔ u.fatal = true := by
  cases h with
  | flagSet hs => exact iff_of_true rfl hs
  | badCursor => exact iff_of_true rfl rfl
  | refused hs hi => exact iff_of_false (conditionStatus_injective.ne (ne_fatal_of_refusal hi)) (by simp [hs])
  | ok _ _ _ hr hu => simp [hr, hu]

end

/-- Settles O33, each clause by what the answer, of whichever of the ways it is, says. -/
theorem conditionsLeaveTheGeneratorAlone : Obligations.ConditionsLeaveTheGeneratorAlone := by
  unfold Obligations.ConditionsLeaveTheGeneratorAlone
  intro i s t h
  obtain ⟨r, u, hanswer, rfl⟩ := answer_of_exec h
  obtain ⟨hinput, hresponses⟩ := hanswer.channels
  refine ⟨r, congrArg (· ++ [r]) hresponses, hinput, hanswer.of_not_ok, ?_, ?_, hanswer.fatal_iff, hanswer.fatal_iff_flag⟩
  · rw [← refusal_eq_invalidArgument_iff]
    exact hanswer.recoverable_iff (c := .invalidArgument) nofun
  · rw [← refusal_eq_resourceLimitExceeded_iff]
    exact hanswer.recoverable_iff (c := .resourceLimitExceeded) nofun

/-- Settles O32: the first draw finds the cursor, `SEED` overwrites it, and a length is refused before any draw. -/
theorem badCursorIsFatalAtTheFirstDraw : Obligations.BadCursorIsFatalAtTheFirstDraw := by
  unfold Obligations.BadCursorIsFatalAtTheFirstDraw
  intro i s hs hgt
  refine ⟨fun hi => exec_of_gt hi hs hgt, ?_, ?_⟩
  · rintro seed rfl
    exact ⟨_, exec_seed_of_not_fatal seed hs, rfl, hs⟩
  · rintro length rfl hrefused
    obtain ⟨c, hc⟩ := exec_nextBytes_refused hrefused hs
    exact ⟨_, hc, rfl, hs⟩

/-! ## `NEXT_BYTES` with a length it refuses, or the greatest it serves (R126, R127) -/

/-- A two's complement number is at most 0 exactly when it is 0 or its sign bit is set. -/
theorem toInt_nonpos_iff {w : Nat} (v : BitVec w) : v.toInt ≤ 0 ↔ v = 0 ∨ v.msb = true := by
  rw [BitVec.msb_eq_toInt, decide_eq_true_iff, ← BitVec.toInt_inj, BitVec.ofNat_eq_ofNat, BitVec.toInt_zero, le_iff_eq_or_lt]

theorem operandLength_nonpos_iff (field : BitVec 64) :
    operandLength field ≤ 0 ↔ field.extractLsb' 0 32 = 0 ∨ field.getLsbD 31 = true := by
  rw [operandLength, operand32, toInt_nonpos_iff]
  simp [BitVec.msb_eq_getLsbD_last]

/-- Settles O27: the check of the length is before any draw, the length is the sign-extended operand, and the status is reported in no
other way. -/
theorem nonPositiveLengthIsInvalidArgument : Obligations.NonPositiveLengthIsInvalidArgument := by
  unfold Obligations.NonPositiveLengthIsInvalidArgument
  refine ⟨fun length s => exec_nextBytes_of_nonpos, fun b a => ?_, fun i s t r h hresponses hstatus => ?_⟩
  · rw [decode_eq_nextBytes (Laws.EncodedOpcode.fieldOp_packWord 3 b a), fieldA_packWord, ← operandLength_nonpos_iff]
    simp
  · obtain ⟨r', hr', -, -, hinvalid, -⟩ := conditionsLeaveTheGeneratorAlone i s t h
    obtain rfl : r' = r := List.singleton_inj.mp (List.append_cancel_left (hr'.symm.trans hresponses))
    exact (hinvalid.mp hstatus).2

/-- Settles O28: the check of the length is before any draw, and the stream of the greatest served length is that of O29. -/
theorem oversizedLengthIsResourceLimitExceeded : Obligations.OversizedLengthIsResourceLimitExceeded := by
  unfold Obligations.OversizedLengthIsResourceLimitExceeded
  refine ⟨fun length s => exec_nextBytes_of_oversized, fun s hs => ?_⟩
  obtain ⟨-, -, hserved⟩ := nextBytesRespondsTheBigEndianStream
  obtain ⟨ws, t, bytes, -, -, hlength, hexec⟩ := hserved 10485760 s (by decide) (by decide) hs
  exact ⟨_, bytes, hexec, rfl, hlength⟩

/-! ## The sticky flag and the idle block (R129, R138) -/

/-- The reset event is taken off the channel and happens (R145). -/
theorem step_of_reset {s : State} {rest : List HostMove} (h : s.input = .reset :: rest) :
    step s = .next (resetEvent { s with input := rest }) := by
  simp only [step, takeMove_of_input_cons h]

/-- Settles O31: with the flag set a command leaves it set, as idling does, so a step that clears it took the reset event. -/
theorem fatalIsStickyUntilReset : Obligations.FatalIsStickyUntilReset := by
  unfold Obligations.FatalIsStickyUntilReset
  refine ⟨fun i s hs => exec_of_fatal i hs, fun s t hs h ht => ?_, fun s rest hin => ⟨_, step_of_reset hin, rfl⟩⟩
  rcases step_cases h with ⟨-, rfl⟩ | ⟨rest, hin, -⟩ | ⟨cw, rest, -, hexec⟩
  · exact absurd (hs.symm.trans ht) nofun
  · exact ⟨rest, hin⟩
  · rw [exec_of_fatal (decode cw) (s := { s with input := rest }) hs] at hexec
    cases hexec
    exact absurd (hs.symm.trans ht) nofun

/-- Settles O10: there is no move to take. -/
theorem idlingChangesNothing : Obligations.IdlingChangesNothing := by
  unfold Obligations.IdlingChangesNothing
  intro s hin
  simp only [step, takeMove_nil hin]

end Sys2Proof.Machine
end

section
/-!
PROOFS. The non-degeneracy of the array (spec/70_reset_and_hazards.md R155, spec/93_implementation_defined.md U8): seeding establishes it, and
the sequential twist keeps it because the twist's recurrence runs backward: where a regenerated word and its middle word are zero, the top
bit and the 31 bits that were mixed into it were zero.
-/

namespace Sys2Proof.Machine

/-! ## Seeding (R68) -/

/-- The recurrence adds its index: after a zero `x[1]` it gives `x[2] = 2`. -/
theorem notDegenerate_of_isSeedArray {seed : Word} {x : StateArray} (h : IsSeedArray seed x) : NotDegenerate x := by
  obtain ⟨-, hrec⟩ := h
  by_cases h1 : wordAt x 1 = 0
  · have h2 : wordAt x 2 = 2#32 := by simpa [h1] using hrec 2 (by decide) (by decide)
    exact .inr ⟨2, by decide, by decide, h2 ▸ by decide⟩
  · exact .inr ⟨1, by decide, by decide, h1⟩

/-! ## `MIX` backward (R70) -/

/-- The two masks share out all bits of a word (R11). -/
theorem eq_zero_of_masks {v : Word} (hupper : v &&& Const.upperMask = 0) (hlower : v &&& Const.lowerMask = 0) : v = 0 :=
  calc v
    _ = (v &&& Const.upperMask) ||| (v &&& Const.lowerMask) := by
      have hmasks : Const.upperMask ||| Const.lowerMask = BitVec.allOnes 32 := rfl
      rw [← BitVec.and_or_distrib_left, hmasks, BitVec.and_allOnes]
    _ = 0 := by rw [hupper, hlower, BitVec.or_self]

/-- The upper mask keeps the top bit alone (R11). -/
theorem and_upperMask_eq_zero_iff {v : Word} : v &&& Const.upperMask = 0 ↔ v.getLsbD 31 = false := by
  have htop : Const.upperMask = BitVec.twoPow 32 31 := rfl
  rw [htop, BitVec.and_twoPow]
  cases v.getLsbD 31 with
  | true => decide
  | false => decide

theorem not_notDegenerate_iff {x : StateArray} :
    ¬ NotDegenerate x ↔ wordAt x 0 &&& Const.upperMask = 0 ∧ ∀ j, 1 ≤ j → j < 624 → wordAt x j = 0 := by
  simp only [NotDegenerate, and_upperMask_eq_zero_iff, not_or, Bool.not_eq_true, not_exists, not_and, not_not]

/-- A zero word mixed from a zero middle word was mixed from zero bits: the shifted word leaves bit 31 to the coefficient `a`, which is
therefore absent, and the bit shifted out is the one that was tested. -/
theorem masks_eq_zero_of_mix_eq_zero {cur nxt : Word} (h : mix cur nxt 0 = 0) :
    cur &&& Const.upperMask = 0 ∧ nxt &&& Const.lowerMask = 0 := by
  rw [mix_eq, BitVec.ofNat_eq_ofNat, BitVec.zero_xor] at h
  refine BitVec.or_eq_zero_iff.mp ?_
  have hbit0 := getLsbD_zero_of_masks cur nxt
  generalize (cur &&& Const.upperMask) ||| (nxt &&& Const.lowerMask) = y at h hbit0 ⊢
  have heven : nxt.getLsbD 0 = false := by
    by_contra hodd
    rw [Bool.not_eq_false] at hodd
    have htop := congrArg (fun v : Word => v.getLsbD 31) h
    simp [hodd] at htop
    exact absurd htop (by decide)
  rw [heven] at h hbit0
  have hshift : y >>> 1 = 0#32 := by simpa using h
  refine BitVec.eq_of_getLsbD_eq fun i hi => ?_
  cases i with
  | zero => simpa using hbit0
  | succ i => simpa [Nat.add_comm] using congrArg (fun v : Word => v.getLsbD i) hshift

/-! ## The sequential twist backward (R71) -/

/-- The bits mixed into a regenerated word that is zero, with a middle word that is zero, are zero: the top bit of the word it replaces and
the lower bits of the next one. -/
theorem masks_eq_zero_of_twist {x : StateArray} {i : Nat} (hi : i < 624) (hword : wordAt (twistWith .sequential x) i = 0)
    (hmid : contentAt x i ((i + 397) % 624) = 0) :
    wordAt x i &&& Const.upperMask = 0 ∧ contentAt x i ((i + 1) % 624) &&& Const.lowerMask = 0 := by
  rw [wordAt_twistWith_sequential x hi, hmid] at hword
  have hmasks := masks_eq_zero_of_mix_eq_zero hword
  rwa [contentAt, if_neg (lt_irrefl i)] at hmasks

theorem contentAt_of_lt (o : StateArray) {i j : Nat} (h : j < i) : contentAt o i j = wordAt (twistWith .sequential o) j := if_pos h

theorem contentAt_of_le (o : StateArray) {i j : Nat} (h : i ≤ j) : contentAt o i j = wordAt o j := if_neg (Nat.not_lt.mpr h)

/-- The last word that a twist regenerates mixes in the lower bits of the regenerated `x[0]`, so a degenerate result is all zero: these bits
too. -/
theorem twist_eq_zero_of_degenerate {x : StateArray} (h : ¬ NotDegenerate (twistWith .sequential x)) :
    ∀ j, j < 624 → wordAt (twistWith .sequential x) j = 0 := by
  obtain ⟨hupper, hwords⟩ := not_notDegenerate_iff.mp h
  have hmid : contentAt x 623 ((623 + 397) % 624) = 0 :=
    (contentAt_of_lt x (by decide)).trans (hwords 396 (by decide) (by decide))
  obtain ⟨-, hlower⟩ := masks_eq_zero_of_twist (by decide) (hwords 623 (by decide) (by decide)) hmid
  rw [contentAt_of_lt x (by decide)] at hlower
  intro j hj
  cases j with
  | zero => exact eq_zero_of_masks hupper hlower
  | succ j => exact hwords (j + 1) (Nat.le_add_left 1 j) hj

section
variable {x : StateArray} (h : ∀ j, j < 624 → wordAt (twistWith .sequential x) j = 0)
include h

/-- Where two regenerated words in a row have zero middle words, the old word under the second is zero. -/
theorem wordAt_succ_eq_zero_of_twist {i : Nat} (hi : i + 1 < 624) (hmid : contentAt x i ((i + 397) % 624) = 0)
    (hmid' : contentAt x (i + 1) ((i + 1 + 397) % 624) = 0) : wordAt x (i + 1) = 0 := by
  obtain ⟨-, hlower⟩ := masks_eq_zero_of_twist (Nat.lt_of_succ_lt hi) (h i (Nat.lt_of_succ_lt hi)) hmid
  obtain ⟨hupper, -⟩ := masks_eq_zero_of_twist hi (h (i + 1) hi) hmid'
  rw [Nat.mod_eq_of_lt hi, contentAt_of_le x (Nat.le_succ i)] at hlower
  exact eq_zero_of_masks hupper hlower

/-- From word 227 on the middle word is a regenerated one. -/
theorem middle_eq_zero_of_le {i : Nat} (h227 : 227 ≤ i) (hi : i < 624) : contentAt x i ((i + 397) % 624) = 0 := by
  rw [contentAt_of_lt x (by omega)]
  exact h _ (Nat.mod_lt _ (by decide))

/-- Before word 227 the middle word is an old one, of those that lie beyond word 227 and are zero by the words regenerated last. -/
theorem middle_eq_zero {i : Nat} (hi : i < 624) : contentAt x i ((i + 397) % 624) = 0 := by
  by_cases h227 : 227 ≤ i
  · exact middle_eq_zero_of_le h h227 hi
  · rw [contentAt_of_le x (by omega), Nat.mod_eq_of_lt (by omega)]
    exact wordAt_succ_eq_zero_of_twist h (i := i + 396) (by omega) (middle_eq_zero_of_le h (by omega) (by omega))
      (middle_eq_zero_of_le h (by omega) (by omega))

theorem degenerate_of_twist_eq_zero : ¬ NotDegenerate x := by
  obtain ⟨hupper, -⟩ := masks_eq_zero_of_twist (by decide) (h 0 (by decide)) (middle_eq_zero h (by decide))
  refine not_notDegenerate_iff.mpr ⟨hupper, fun j h1 hj => ?_⟩
  obtain ⟨i, rfl⟩ := Nat.exists_eq_add_of_le' h1
  exact wordAt_succ_eq_zero_of_twist h hj (middle_eq_zero h (Nat.lt_of_succ_lt hj)) (middle_eq_zero h hj)

end

/-- Settles O24: the recurrence of seeding leaves a word that is not zero, and an array that the sequential twist makes degenerate is made all
zero by it, which backward, word by word, was degenerate before. -/
theorem sequentialTwistKeepsTheArrayNonDegenerate : Obligations.SequentialTwistKeepsTheArrayNonDegenerate := by
  unfold Obligations.SequentialTwistKeepsTheArrayNonDegenerate
  refine ⟨fun seed => notDegenerate_of_isSeedArray (isSeedArray_seedArray seed), fun x hx => ?_⟩
  by_contra h
  exact degenerate_of_twist_eq_zero (twist_eq_zero_of_degenerate h) hx

end Sys2Proof.Machine
end

section
/-!
PROOFS. Reset (spec/70_reset_and_hazards.md R145) and the commands that are always answered (R157).
-/

namespace Sys2Proof.Machine

/-! ## The reset event (R145) -/

/-- The first word drawn after reset is the known vector, in either twist order (R75). -/
theorem nextWord_resetEvent (s : State) : ∃ t, nextWord (resetEvent s) = .value 3499211612#32 t := by
  have hfull : (resetEvent s).index = 624 := rfl
  have hword : temper (wordAt (twistArray (resetEvent s).x) 0) = 3499211612#32 := temper_wordAt_twistArray_default
  rw [nextWord_of_full hfull, hword]
  exact ⟨_, rfl⟩

/-- Settles O11: the event taken leaves the array of the recurrence for 5489, and `SEED 5489` leaves the same one. -/
theorem resetSeedsWith5489 : Obligations.ResetSeedsWith5489 := by
  unfold Obligations.ResetSeedsWith5489
  intro s rest hin
  exact ⟨seedArray 5489#32, isSeedArray_seedArray 5489#32, step_of_reset hin, nextWord_resetEvent { s with input := rest },
    exec_seed_of_not_fatal 5489#32⟩

/-! ## Answers (R157) -/

/-- In normal operation every command that draws but for the two Gaussian ones is answered: the number of words it draws is fixed. -/
theorem exists_exec_of_drawsAWord {i : Instr} {s : State} (hi : DrawsAWord i) (hgauss : ¬ IsGaussian i) (hs : Operational s) :
    ∃ t, exec i s = .next t := by
  obtain ⟨v, s1, hv, hs1⟩ := exists_nextWord_of_operational hs
  obtain ⟨w, s2, hw, -⟩ := exists_nextWord_of_operational hs1
  cases i with
  | seed seed => exact hi.elim
  | nextU32 => exact ⟨_, exec_nextU32_of_nextWord hs.1 hv⟩
  | nextU64 => exact ⟨_, exec_nextU64_of_nextWord hs.1 hv hw⟩
  | nextBytes length =>
    obtain ⟨n, rfl⟩ := Int.eq_ofNat_of_zero_le hi.1.le
    obtain ⟨ws, t, hws⟩ := exists_drawWords_of_operational ((n + 3) / 4) hs
    exact ⟨_, exec_nextBytes_of_drawWords hs.1 hi hws⟩
  | uniformF32 lower upper => exact ⟨_, exec_uniformF32_of_nextWord hs.1 lower upper hv⟩
  | uniformF64 lower upper => exact ⟨_, exec_uniformF64_of_nextWord hs.1 lower upper hv hw⟩
  | gaussianF32 | gaussianF64 => exact absurd trivial hgauss

/-- By the order of the checks of R130, every command but the two Gaussian ones is answered. -/
theorem exists_exec_of_not_isGaussian {i : Instr} (hgauss : ¬ IsGaussian i) (s : State) : ∃ t, exec i s = .next t := by
  by_cases hs : s.fatal = true
  · exact ⟨_, exec_of_fatal i hs⟩
  rw [Bool.not_eq_true] at hs
  rcases (Option.eq_none_or_eq_some (refusal i)).symm with ⟨c, hi⟩ | hi
  · exact ⟨_, exec_of_refusal hs hi⟩
  rcases seed_or_drawsAWord hi with ⟨seed, rfl⟩ | hdraws
  · exact ⟨_, exec_seed_of_not_fatal seed hs⟩
  rcases Nat.lt_or_ge 624 s.index.toNat with hgt | hle
  · exact ⟨_, exec_of_gt hdraws hs hgt⟩
  · exact exists_exec_of_drawsAWord hdraws hgauss ⟨hs, hle⟩

/-- The frame of a command ends in a next state or, for a loop that never ends, in the one fault; nothing is refused (R157). -/
theorem exec_next_or_resampleNeverEnds (i : Instr) (s : State) :
    (∃ t, exec i s = .next t) ∨ exec i s = .fault .resampleNeverEnds := by
  obtain ⟨body, -, hexec⟩ := exec_eq_command_ignoresChannels i
  rw [hexec, command_eq_finish]
  cases guardedRun body s with
  | value r t => exact .inl ⟨_, rfl⟩
  | raised c t => exact .inl ⟨_, rfl⟩
  | stuck => exact .inr rfl

/-- Settles O40: the Gaussian commands by the frame of every command, the others by the order of their checks. -/
theorem everyOtherCommandIsAnswered : Obligations.EveryOtherCommandIsAnswered := by
  unfold Obligations.EveryOtherCommandIsAnswered
  exact fun i s => ⟨fun hi => exists_exec_of_not_isGaussian hi s, fun _ => exec_next_or_resampleNeverEnds i s⟩

end Sys2Proof.Machine
end

section
/-!
PROOFS. When a Gaussian command is answered (spec/70_reset_and_hazards.md R155, spec/93_implementation_defined.md U8): with a non-zero word ahead
of the cursor the draws come to it, and with none ahead the block stays in such a state and draws zero words alone.
-/

namespace Sys2Proof.Machine

/-- In normal operation words are left in the array or a twist is due. -/
theorem index_lt_or_full {s : State} (hs : Operational s) : s.index.toNat < 624 ∨ s.index = 624 := by
  obtain ⟨-, hle⟩ := hs
  rcases Nat.lt_or_eq_of_le hle with hlt | heq
  · exact .inl hlt
  · exact .inr (BitVec.eq_of_toNat_eq heq)

theorem operational_of_nextWord {s t : State} {v : Word} (hs : Operational s) (h : nextWord s = .value v t) : Operational t := by
  obtain ⟨w, u, hw, hu⟩ := exists_nextWord_of_operational hs
  obtain ⟨-, rfl⟩ := Run.value.inj (hw.symm.trans h)
  exact hu

theorem operational_of_drawWords {k : Nat} {s t : State} {ws : List Word} (hs : Operational s)
    (h : drawWords k s = .value ws t) : Operational t := by
  induction k generalizing s ws with
  | zero =>
    cases h
    exact hs
  | succ k ih =>
    obtain ⟨v, s1, hv, hrest⟩ := andThen_eq_value.mp h
    obtain ⟨vs, s2, hvs, hend⟩ := andThen_eq_value.mp hrest
    cases hend
    exact ih (operational_of_nextWord hs hv) hvs

/-! ## Draws with no word ahead -/

theorem not_wordAhead_iff {s : State} :
    ¬ WordAhead s ↔ (∀ j, s.index.toNat ≤ j → j < 624 → wordAt s.x j = 0) ∧ twistArray s.x = zeroArray := by
  have htwist : twistArray s.x = zeroArray ↔ ∀ j, j < 624 → wordAt (twistArray s.x) j = 0 :=
    ⟨fun h j _ => h ▸ wordAt_zeroArray j, fun h => array_ext fun j hj => (h j hj).trans (wordAt_zeroArray j).symm⟩
  simp only [htwist, WordAhead, not_or, not_exists, not_and, not_not]

/-- With no word ahead the next word is zero, and again none is ahead: the array that a twist leaves is all zero, and so is the one that the
twist after it leaves. -/
theorem nextWord_of_not_wordAhead {s : State} (hs : Operational s) (h : ¬ WordAhead s) :
    ∃ t, nextWord s = .value 0 t ∧ ¬ WordAhead t := by
  obtain ⟨hpresent, htwist⟩ := not_wordAhead_iff.mp h
  rcases index_lt_or_full hs with hlt | hfull
  · rw [nextWord_of_lt hlt, hpresent _ le_rfl hlt, temper_zero]
    refine ⟨_, rfl, not_wordAhead_iff.mpr ⟨fun j hj => hpresent j ?_, htwist⟩⟩
    rw [index_succ_toNat hlt] at hj
    exact Nat.le_of_succ_le hj
  · rw [nextWord_of_full hfull, htwist, wordAt_zeroArray, temper_zero]
    exact ⟨_, rfl, not_wordAhead_iff.mpr ⟨fun j _ _ => wordAt_zeroArray j, iterate_twistArray_zeroArray 1⟩⟩

/-- With no word ahead any number of draws gives zero words alone. -/
theorem drawWords_of_not_wordAhead (n : Nat) {s : State} (hs : Operational s) (h : ¬ WordAhead s) :
    ∃ t, drawWords n s = .value (List.replicate n 0) t := by
  induction n generalizing s with
  | zero => exact ⟨s, rfl⟩
  | succ n ih =>
    obtain ⟨s1, hzero, h1⟩ := nextWord_of_not_wordAhead hs h
    obtain ⟨t, ht⟩ := ih (operational_of_nextWord hs hzero) h1
    exact ⟨t, by rw [drawWords, hzero, andThen_value, ht, andThen_value, List.replicate_succ]⟩

/-- With no word ahead the loop of `GAUSSIAN_F32` rejects as many words as its bound lets it, and the fault follows. -/
theorem exec_gaussianF32_of_not_wordAhead {s : State} (hs : Operational s) (h : ¬ WordAhead s) (mean sigma : F32) :
    exec (.gaussianF32 mean sigma) s = .fault .resampleNeverEnds := by
  obtain ⟨t, ht⟩ := drawWords_of_not_wordAhead resampleFuel hs h
  have hloop : drawA32 resampleFuel s = .stuck := by
    rw [← Nat.zero_add resampleFuel, drawA32_of_zeros 0 ht, drawA32]
  simp only [exec, execGaussianF32, command_of_not_fatal hs.1, hloop, andThen_stuck, finish_stuck]

theorem exec_gaussianF64_of_not_wordAhead {s : State} (hs : Operational s) (h : ¬ WordAhead s) (mean sigma : F64) :
    exec (.gaussianF64 mean sigma) s = .fault .resampleNeverEnds := by
  obtain ⟨t, ht⟩ := drawWords_of_not_wordAhead (2 * resampleFuel) hs h
  have hloop : drawA64 resampleFuel s = .stuck := by
    rw [← Nat.zero_add resampleFuel, drawA64_of_zeros 0 ht, drawA64]
  simp only [exec, execGaussianF64, command_of_not_fatal hs.1, hloop, andThen_stuck, finish_stuck]

/-! ## Draws with a word ahead -/

/-- After some number of zero words a word that is not zero is drawn. -/
def DrawsNonzeroWord (s : State) : Prop :=
  ∃ (n : Nat) (u : Word) (s0 s1 : State), drawWords n s = .value (List.replicate n 0) s0 ∧ nextWord s0 = .value u s1 ∧ u ≠ 0

/-- A first word that is not zero will do, and after a zero one it is enough that the claim holds of what it leaves. -/
theorem DrawsNonzeroWord.of_nextWord {s t : State} {v : Word} (hv : nextWord s = .value v t)
    (h : v = 0 → DrawsNonzeroWord t) : DrawsNonzeroWord s := by
  by_cases h0 : v = 0
  · obtain ⟨n, u, s0, s1, hzeros, hu, hu0⟩ := h h0
    refine ⟨n + 1, u, s0, s1, ?_, hu, hu0⟩
    rw [drawWords, hv, andThen_value, hzeros, andThen_value, h0, List.replicate_succ]
  · exact ⟨0, v, s, t, rfl, hv, h0⟩

theorem eq_zero_of_temper_eq_zero {y : Word} (h : temper y = 0) : y = 0 := temper_injective (h.trans temper_zero.symm)

/-- A non-zero word of the present array, not yet consumed, is come to by as many draws as it lies ahead. -/
theorem drawsNonzeroWord_of_present {s : State} {j : Nat} (hj : s.index.toNat ≤ j) (h624 : j < 624)
    (h0 : wordAt s.x j ≠ 0) : DrawsNonzeroWord s := by
  obtain ⟨d, rfl⟩ := Nat.exists_eq_add_of_le hj
  induction d generalizing s with
  | zero => exact .of_nextWord (nextWord_of_lt h624) fun hv => absurd (eq_zero_of_temper_eq_zero hv) h0
  | succ d ih =>
    have hlt : s.index.toNat < 624 := by omega
    have hsucc : (s.index + 1).toNat + d = s.index.toNat + (d + 1) := by rw [index_succ_toNat hlt, Nat.add_right_comm, Nat.add_assoc]
    refine .of_nextWord (nextWord_of_lt hlt) fun _ => ih (s := { s with index := s.index + 1 }) ?_ ?_ ?_
    · exact Nat.le_add_right _ _
    · rwa [hsucc]
    · rwa [hsucc]

/-- A non-zero word of the array that the next twist leaves is come to after that twist. -/
theorem drawsNonzeroWord_of_twisted {s : State} (hs : Operational s) {j : Nat} (h624 : j < 624)
    (h0 : wordAt (twistArray s.x) j ≠ 0) : DrawsNonzeroWord s := by
  generalize hd : 624 - s.index.toNat = d
  induction d generalizing s with
  | zero =>
    have hfull : s.index = 624 := (index_lt_or_full hs).resolve_left (by omega)
    refine .of_nextWord (nextWord_of_full hfull) fun hv => drawsNonzeroWord_of_present (j := j) ?_ h624 h0
    have hj : j ≠ 0 := by
      rintro rfl
      exact h0 (eq_zero_of_temper_eq_zero hv)
    exact Nat.one_le_iff_ne_zero.mpr hj
  | succ d ih =>
    have hlt : s.index.toNat < 624 := by omega
    have hv := nextWord_of_lt hlt
    refine .of_nextWord hv fun _ => ih (operational_of_nextWord hs hv) h0 ?_
    rw [index_succ_toNat hlt]
    omega

theorem drawsNonzeroWord_of_wordAhead {s : State} (hs : Operational s) (h : WordAhead s) : DrawsNonzeroWord s := by
  rcases h with ⟨j, hj, h624, h0⟩ | ⟨j, h624, h0⟩
  · exact drawsNonzeroWord_of_present hj h624 h0
  · exact drawsNonzeroWord_of_twisted hs h624 h0

/-- The last of zero words drawn is zero, and so are those before it. -/
theorem exists_of_drawWords_zeros_succ {k : Nat} {s t : State} (h : drawWords (k + 1) s = .value (List.replicate (k + 1) 0) t) :
    ∃ u, drawWords k s = .value (List.replicate k 0) u ∧ nextWord u = .value 0 t := by
  obtain ⟨vs, u, v, hvs, hv, hwords⟩ := exists_of_drawWords_succ h
  rw [List.replicate_succ', List.append_singleton_inj] at hwords
  obtain ⟨rfl, rfl⟩ := hwords
  exact ⟨u, hvs, hv⟩

/-- The first word that is not zero makes the pair it falls into not zero, as its high word after an even number of zero words and as its low
word after an odd one. -/
theorem DrawsNonzeroWord.exists_pair {s : State} (hs : Operational s) (h : DrawsNonzeroWord s) :
    ∃ (n : Nat) (hi lo : Word) (s0 s1 s2 : State), drawWords (2 * n) s = .value (List.replicate (2 * n) 0) s0 ∧
      nextWord s0 = .value hi s1 ∧ nextWord s1 = .value lo s2 ∧ pair64 hi lo ≠ 0 := by
  obtain ⟨k, u, s0, s1, hzeros, hu, h0⟩ := h
  rcases Nat.even_or_odd' k with ⟨n, rfl | rfl⟩
  · obtain ⟨lo, s2, hlo, -⟩ := exists_nextWord_of_operational (operational_of_nextWord (operational_of_drawWords hs hzeros) hu)
    exact ⟨n, u, lo, s0, s1, s2, hzeros, hu, hlo, fun hpair => h0 (pair64_eq_zero_iff.mp hpair).1⟩
  · obtain ⟨p, hp, hhi⟩ := exists_of_drawWords_zeros_succ hzeros
    exact ⟨n, 0, u, p, s0, s1, hp, hhi, hu, fun hpair => h0 (pair64_eq_zero_iff.mp hpair).2⟩

theorem exists_exec_gaussianF32 {s : State} (hs : Operational s) (h : DrawsNonzeroWord s) (mean sigma : F32) :
    ∃ t, exec (.gaussianF32 mean sigma) s = .next t := by
  obtain ⟨n, u, s0, s1, hzeros, hu, h0⟩ := h
  obtain ⟨w, s2, hw, -⟩ := exists_nextWord_of_operational (operational_of_nextWord (operational_of_drawWords hs hzeros) hu)
  exact ⟨_, exec_gaussianF32_of_draws hs.1 mean sigma (drawA32_of_zeros_then_word hs hzeros hu h0) hw⟩

theorem exists_exec_gaussianF64 {s : State} (hs : Operational s) (h : DrawsNonzeroWord s) (mean sigma : F64) :
    ∃ t, exec (.gaussianF64 mean sigma) s = .next t := by
  obtain ⟨n, hi, lo, s0, s1, s2, hzeros, hhi, hlo, h0⟩ := h.exists_pair hs
  have hs2 := operational_of_nextWord (operational_of_nextWord (operational_of_drawWords hs hzeros) hhi) hlo
  obtain ⟨hi', s3, hhi', hs3⟩ := exists_nextWord_of_operational hs2
  obtain ⟨lo', s4, hlo', -⟩ := exists_nextWord_of_operational hs3
  exact ⟨_, exec_gaussianF64_of_draws hs.1 mean sigma (drawA64_of_zeros_then_pair hs hzeros hhi hlo h0)
    (nextPair_of_nextWord hhi' hlo')⟩

/-- Settles O58: with a word ahead the loop ends at the first draw that is not zero; with none it never leaves the zero words. -/
theorem gaussianIsAnsweredExactlyWhenAWordLiesAhead : Obligations.GaussianIsAnsweredExactlyWhenAWordLiesAhead := by
  unfold Obligations.GaussianIsAnsweredExactlyWhenAWordLiesAhead
  refine fun s hs => ⟨fun h => ?_, fun h => ?_⟩
  · have hword := drawsNonzeroWord_of_wordAhead hs h
    exact ⟨exists_exec_gaussianF32 hs hword, exists_exec_gaussianF64 hs hword⟩
  · exact ⟨exec_gaussianF32_of_not_wordAhead hs h, exec_gaussianF64_of_not_wordAhead hs h,
      fun n => drawWords_of_not_wordAhead n hs h⟩

end Sys2Proof.Machine
end

section
/-!
PROOFS. Command words given as numbers (spec/30_encoding.md sections 1, 3 and 6): the worked encodings, and a number as a table word and as the
word presented next.
-/

namespace Sys2Proof.Machine

/-! ## The worked encodings (section 6) -/

/-- What a word encodes is what it decodes to (R46 to R48). -/
theorem decode_of_eq_encode {cw : CommandWord} {i : Instr} (hi : WellFormed i) (h : cw = encode i) : decode cw = i := by
  rw [h, decodeOfEncodeIsTheCommand i hi]

/-- Settles O1: seven words are the encodings of their commands; of the word with ignored bits set, the opcode and the seed are read off. -/
theorem workedCommandWordsDecode : Obligations.WorkedCommandWordsDecode := by
  unfold Obligations.WorkedCommandWordsDecode
  refine ⟨decode_of_eq_encode rfl ?_, decode_of_eq_encode rfl ?_, decode_of_eq_encode (by decide) ?_, decode_of_eq_encode rfl ?_,
    decode_of_eq_encode rfl ?_, decode_of_eq_encode rfl ?_, decode_of_eq_encode rfl ?_, ?ignoredBits⟩
  case ignoredBits =>
    rw [decode_eq_seed (by decide)]
    decide
  all_goals decide

/-! ## Numbers below `2^131` (R47, R50) -/

theorem tableNumber_of_lt {nbits w : Nat} (h : w < 2 ^ nbits) : tableNumber nbits w = w := Nat.mod_eq_of_lt h

section
variable {w : Nat}

/-- A command word's number fits the 136 bits of a table word. -/
theorem tableNumber_136_of_lt (h : w < 2 ^ 131) : tableNumber 136 w = w :=
  tableNumber_of_lt (h.trans (Nat.pow_lt_pow_right (by decide) (by decide)))

theorem decodeNumber_of_lt (h : w < 2 ^ 131) : decodeNumber w = .ok (decode (BitVec.ofNat 131 w)) := if_pos h

theorem decodeTableWord_of_lt (h : w < 2 ^ 131) : decodeTableWord 136 w = some (decode (BitVec.ofNat 131 w)) := by
  rw [decodeTableWord, tableNumber_136_of_lt h, decodeNumber_of_lt h]
  rfl

/-- The move presented is the command word of the number (R45). -/
theorem withFetchWord_of_lt (h : w < 2 ^ 131) (s : State) :
    s.withFetchWord 136 w = presentNext (.command (BitVec.ofNat 131 w)) s := by
  rw [State.withFetchWord, tableNumber_136_of_lt h, if_pos h]

end

/-- A command word presented next is decoded and run on the state it was presented in (R45). -/
theorem step_presentNext_command (cw : CommandWord) (s : State) : step (presentNext (.command cw) s) = exec (decode cw) s :=
  step_of_takeMove_command (takeMove_presentNext _ s)

/-- Settles O9: the number is its own table number, so the decoder reads it and `withFetchWord` presents it as the same command word. -/
theorem presentedWordRunsNext : Obligations.PresentedWordRunsNext := by
  unfold Obligations.PresentedWordRunsNext
  intro s w h
  refine ⟨decodeTableWord_of_lt h, ?_⟩
  rw [withFetchWord_of_lt h, step_presentNext_command]

end Sys2Proof.Machine
end
